-- ==== Sys2Proof/Word.lean ====
section
/-! DEFINITION. The word types of the block (spec/00_scope.md R7) and the one bound every 64-bit
counter respects (R81, R157). Wire values (sequence numbers, windows, addresses) are bit vectors;
counters and stream indices are naturals, as spec/92_eei_decisions.md D11 says. -/

namespace Sys2Proof

/-- A byte of a stream, a descriptor or a frame. -/
abbrev Byte := BitVec 8

/-- 16-bit value: a window, an ethertype, a checksum (R7). -/
abbrev U16 := BitVec 16

/-- 32-bit value: a wire sequence number, an IPv4 address in numeric form, an operand word (R7, R13). -/
abbrev U32 := BitVec 32

/-- 64-bit value: a capacity, a time in milliseconds, a retransmission count (R7). -/
abbrev U64 := BitVec 64

/-- A 48-bit Ethernet address (R7). Its most significant byte is the first on the wire (R13). -/
abbrev EthAddr := BitVec 48

/-- `2^32`, the modulus of wire sequence numbers (R150). -/
abbrev two32 : Nat := 4294967296

/-- `2^64`: no counter or index of the block may reach it (R81, R157). -/
abbrev two64 : Nat := 18446744073709551616

end Sys2Proof
end

