-- ==== Sys2Proof/Syntax.lean ====
section
/-! DEFINITION. The command set NPE-CMD version 1 (spec/30_encoding.md R118), one constructor of `Instr`
per row of spec/opcode_table.json, and the records that cross the block's boundary (R123 to R128). -/

namespace Sys2Proof

/-- The stream select `S` of the BS commands (R117): 0 = IBS (inbound), 1 = OBS (outbound). -/
inductive Stream where
  | ibs
  | obs
  deriving DecidableEq, Repr

/-- Segment, the source's TCPSenderMessage (R123). `seqno` numbers its first sequence unit. -/
structure Segment where
  seqno : U32
  syn : Bool
  payload : List Byte
  fin : Bool
  deriving DecidableEq, Repr

/-- AckMsg, the source's TCPReceiverMessage (R124). `ackno` is absent before a SYN has been received. -/
structure AckMsg where
  ackno : Option U32
  windowSize : U16
  deriving DecidableEq, Repr

/-- Ethernet frame (R125). -/
structure Frame where
  dst : EthAddr
  src : EthAddr
  etype : U16
  payload : List Byte
  deriving DecidableEq, Repr

/-- ARP message (R126). -/
structure ArpMessage where
  opcode : U16
  senderEth : EthAddr
  senderIp : U32
  targetEth : EthAddr
  targetIp : U32
  deriving DecidableEq, Repr

/-- IPv4 datagram (R127): the block reads `dst` and `ttl` and writes `ttl` and `cksum`; `rest` is every
other header field and the payload, carried untouched. -/
structure Datagram where
  ttl : Byte
  dst : U32
  cksum : U16
  rest : List Byte
  deriving DecidableEq, Repr

/-- RouteInfo (R128, R65). `prefixLen` is 0 to 32 by its type. -/
structure RouteInfo where
  pfx : U32
  prefixLen : Fin 33
  nextHop : Option U32
  ifaceIdx : Nat
  deriving DecidableEq, Repr

/-- The 33 commands without their operands: UNIT and FUNC of a header (R118). -/
inductive Op where
  | sysReset
  | w32Add | w32Wrap | w32Unwrap
  | bsPush | bsClose | bsSetError | bsPeek | bsPop | bsAvail | bsPushed | bsPopped | bsBuffered
  | bsIsClosed | bsIsFinished | bsHasError
  | raInsert | raPending
  | rxReceive | rxSend
  | txPush | txMaybeSend | txReceive | txTick | txSendEmpty | txInFlight | txRetx
  | niSendDgram | niRecvFrame | niTick | niMaybeSend
  | rtAddRoute | rtRoute
  deriving DecidableEq, Repr

/-- A command with its operands (R118). Operands stand in the order of the table: operand words, then
the byte sequence, then the FLAGS operands; an optional operand carries its presence bit as `Option`. -/
inductive Instr where
  /-- `SYS.RESET` (R330) -/
  | sysReset
  /-- `W32.ADD raw, k` (R154) -/
  | w32Add (raw k : U32)
  /-- `W32.WRAP n, zero` (R155) -/
  | w32Wrap (n : U64) (zero : U32)
  /-- `W32.UNWRAP raw, zero, checkpoint` (R156) -/
  | w32Unwrap (raw zero : U32) (checkpoint : U64)
  /-- `BS.PUSH OBS, data` (R161) -/
  | bsPush (data : List Byte)
  /-- `BS.CLOSE OBS` (R162) -/
  | bsClose
  /-- `BS.SET_ERROR s` (R163) -/
  | bsSetError (sel : Stream)
  /-- `BS.PEEK IBS` (R164) -/
  | bsPeek
  /-- `BS.POP IBS, n` (R165) -/
  | bsPop (n : U64)
  /-- `BS.AVAIL s` (R166) -/
  | bsAvail (sel : Stream)
  /-- `BS.PUSHED s` (R167) -/
  | bsPushed (sel : Stream)
  /-- `BS.POPPED s` (R168) -/
  | bsPopped (sel : Stream)
  /-- `BS.BUFFERED s` (R169) -/
  | bsBuffered (sel : Stream)
  /-- `BS.IS_CLOSED s` (R170) -/
  | bsIsClosed (sel : Stream)
  /-- `BS.IS_FINISHED s` (R171) -/
  | bsIsFinished (sel : Stream)
  /-- `BS.HAS_ERROR s` (R172) -/
  | bsHasError (sel : Stream)
  /-- `RA.INSERT first_index, data, last` (R191) -/
  | raInsert (firstIndex : U64) (data : List Byte) (isLast : Bool)
  /-- `RA.PENDING` (R197) -/
  | raPending
  /-- `RX.RECEIVE seqno, payload, syn, fin` (R220) -/
  | rxReceive (seqno : U32) (payload : List Byte) (syn fin : Bool)
  /-- `RX.SEND` (R222) -/
  | rxSend
  /-- `TX.PUSH` (R231) -/
  | txPush
  /-- `TX.MAYBE_SEND` (R232) -/
  | txMaybeSend
  /-- `TX.RECEIVE ackno, window, has_ack` (R233) -/
  | txReceive (ackno : Option U32) (window : U16)
  /-- `TX.TICK Δ` (R234) -/
  | txTick (delta : U64)
  /-- `TX.SEND_EMPTY` (R235) -/
  | txSendEmpty
  /-- `TX.IN_FLIGHT` (R236) -/
  | txInFlight
  /-- `TX.RETX` (R237) -/
  | txRetx
  /-- `NI.SEND_DGRAM i, next_hop, dbytes` (R271) -/
  | niSendDgram (iface nextHop : U32) (dgram : List Byte)
  /-- `NI.RECV_FRAME i, fbytes, q` (R272) -/
  | niRecvFrame (iface : U32) (frame : List Byte) (toRouter : Bool)
  /-- `NI.TICK i, Δ` (R273) -/
  | niTick (iface : U32) (delta : U64)
  /-- `NI.MAYBE_SEND i` (R274) -/
  | niMaybeSend (iface : U32)
  /-- `RT.ADD_ROUTE prefix, prefix_len, next_hop, iface_idx` (R310) -/
  | rtAddRoute (pfx : U32) (prefixLen : Fin 33) (nextHop : Option U32) (ifaceIdx : U32)
  /-- `RT.ROUTE` (R312) -/
  | rtRoute
  deriving DecidableEq, Repr

/-- The row of the opcode table an instruction belongs to. -/
def Instr.op : Instr → Op
  | .sysReset => .sysReset
  | .w32Add _ _ => .w32Add
  | .w32Wrap _ _ => .w32Wrap
  | .w32Unwrap _ _ _ => .w32Unwrap
  | .bsPush _ => .bsPush
  | .bsClose => .bsClose
  | .bsSetError _ => .bsSetError
  | .bsPeek => .bsPeek
  | .bsPop _ => .bsPop
  | .bsAvail _ => .bsAvail
  | .bsPushed _ => .bsPushed
  | .bsPopped _ => .bsPopped
  | .bsBuffered _ => .bsBuffered
  | .bsIsClosed _ => .bsIsClosed
  | .bsIsFinished _ => .bsIsFinished
  | .bsHasError _ => .bsHasError
  | .raInsert _ _ _ => .raInsert
  | .raPending => .raPending
  | .rxReceive _ _ _ _ => .rxReceive
  | .rxSend => .rxSend
  | .txPush => .txPush
  | .txMaybeSend => .txMaybeSend
  | .txReceive _ _ => .txReceive
  | .txTick _ => .txTick
  | .txSendEmpty => .txSendEmpty
  | .txInFlight => .txInFlight
  | .txRetx => .txRetx
  | .niSendDgram _ _ _ => .niSendDgram
  | .niRecvFrame _ _ _ => .niRecvFrame
  | .niTick _ _ => .niTick
  | .niMaybeSend _ => .niMaybeSend
  | .rtAddRoute _ _ _ _ => .rtAddRoute
  | .rtRoute => .rtRoute

end Sys2Proof
end

