-- ==== Sys2Proof/Machine/Operands.lean ====
section
/-! DEFINITION. Operand assembly and byte order: the big-endian words of descriptors and responses
(spec/30_encoding.md R110 to R112, R115) and of the frame header (R125). -/

namespace Sys2Proof.Machine

/-- The two bytes of a 16-bit field, most significant first (R87). -/
def bytes16 (w : U16) : List Byte := [w.extractLsb' 8 8, w.extractLsb' 0 8]

/-- The four bytes of a word, bits 31 to 24 first (R110). -/
def bytes32 (w : U32) : List Byte :=
  [w.extractLsb' 24 8, w.extractLsb' 16 8, w.extractLsb' 8 8, w.extractLsb' 0 8]

/-- The six bytes of an Ethernet address, first byte on the wire first (R13). -/
def bytes48 (e : EthAddr) : List Byte :=
  [e.extractLsb' 40 8, e.extractLsb' 32 8, e.extractLsb' 24 8, e.extractLsb' 16 8, e.extractLsb' 8 8,
   e.extractLsb' 0 8]

/-- A 16-bit field from its bytes. -/
def word16 (a b : Byte) : U16 := a ++ b

/-- A word from its four bytes, the first holding bits 31 to 24 (R110). -/
def word32 (a b c d : Byte) : U32 := a ++ b ++ c ++ d

/-- An Ethernet address from its six bytes. -/
def word48 (a b c d e f : Byte) : EthAddr := a ++ b ++ c ++ d ++ e ++ f

/-- A 64-bit operand from two consecutive words, high word first (R112). -/
def pair64 (hi lo : U32) : U64 := hi ++ lo

/-- The two words of a 64-bit value, high word first (R112, R115). -/
def words64 (v : U64) : List U32 := [v.extractLsb' 32 32, v.extractLsb' 0 32]

/-- The bytes of a run of words. -/
def bytesOfWords (ws : List U32) : List Byte := ws.flatMap bytes32

/-- The first `k` words of a byte string (fewer when it is shorter). -/
def wordsOf : Nat → List Byte → List U32
  | k + 1, a :: b :: c :: d :: rest => word32 a b c d :: wordsOf k rest
  | _, _ => []

/-- FLAGS or RFLAGS with bit 0, bit 1 and bit 2 as given and the undefined bits 0 (R111, R115). -/
def flagBits (b0 b1 b2 : Bool) : Byte :=
  (if b0 then 1#8 else 0#8) ||| (if b1 then 2#8 else 0#8) ||| (if b2 then 4#8 else 0#8)

/-- The word of an optional operand: 0 when absent (R112). -/
def optWord (o : Option U32) : U32 := o.getD 0#32

end Sys2Proof.Machine
end

