-- ==== Sys2Proof/Config.lean ====
section
/-! DEFINITION. What an implementation fixes: the constants of spec/00_scope.md R6, the parameters of R5,
the external functions of R17 and the free values (spec/93_implementation_defined.md). An `opaque`
constant here has no body a proof can use: a claim proved about it holds whatever it is. -/

namespace Sys2Proof

/-- Ethernet broadcast address `FF:FF:FF:FF:FF:FF` (R6). -/
def Config.ethBroadcast : EthAddr := 0xFFFFFFFFFFFF#48

/-- IPv4 ethertype 0x0800 (R6). -/
def Config.ethertypeIpv4 : U16 := 0x0800#16

/-- ARP ethertype 0x0806 (R6). -/
def Config.ethertypeArp : U16 := 0x0806#16

/-- ARP opcode REQUEST = 1 (R6). -/
def Config.arpRequest : U16 := 1#16

/-- ARP opcode REPLY = 2 (R6). -/
def Config.arpReply : U16 := 2#16

/-- `MAX_PAYLOAD_SIZE = 1452` (R6). -/
def Config.maxPayloadSize : Nat := 1452

/-- `WINDOW_MAX = 65535`, the clamp of the advertised window (R6). -/
def Config.windowMax : Nat := 65535

/-- `ARP_CACHE_TTL = 30000` ms (R6). -/
def Config.arpCacheTtl : Nat := 30000

/-- `ARP_REQUEST_TTL = 5000` ms (R6). -/
def Config.arpRequestTtl : Nat := 5000

/-- Which wire formats the external collaborators of R17 implement. `external` is the spec's own
reading: nothing is known of them. `standard` is the layout R126 and R127 give for test benches
(PRESUMED: the spec marks it as general knowledge), under which frames can be written out and run. -/
inductive Config.Codec where
  | external
  | standard
  deriving DecidableEq, Repr

/-- The parameters of R5, sampled at reset and never written by a command. `N_IF` is the number of
entries of `ifaces`, each the own Ethernet and IPv4 address of one interface. The capacities `Q_MAX`,
`ROUTE_MAX` and `ARP_MAX` are unbounded (spec/92_eei_decisions.md D30) and have no field. -/
structure Config.Params where
  cIn : U64
  cOut : U64
  rto0 : U64
  isnFixed : Option U32
  ifaces : List (EthAddr × U32)
  codec : Config.Codec
  deriving DecidableEq, Repr

/-- `N_IF` (R5). -/
def Config.Params.nIf (p : Config.Params) : Nat := p.ifaces.length

/-- The legal parameters (R5): `N_IF` is 1 to 2^32. -/
def Config.Params.ok (p : Config.Params) : Bool := decide (1 ≤ p.nIf) && decide (p.nIf ≤ two32)

/-- The parameters `State.reset` samples. DESIGN CHOICE, unsafe (notes/assumptions/1.md): the spec gives no
value; these are the ones its own scenarios 1, 2, 4 and 7 name. No statement rests on them. -/
def Config.resetParams : Config.Params :=
  { cIn := 8#64
    cOut := 8#64
    rto0 := 1000#64
    isnFixed := none
    ifaces := [(0x020000000001#48, 0x0A000001#32), (0x020000000002#48, 0x0A0A0001#32)]
    codec := .external }

/-- The sender's ISN when `ISN_FIXED` is absent: a free 32-bit draw at each reset, indexed by the number of
draws made so far (R40, R330; D22, U4). -/
opaque Config.isnDraw : Nat → U32

/-- The RLEN field of a response whose payload is longer than the 65535 bytes the field can count: the spec
states no value (R115, R116), so it is free (notes/assumptions/5.md). -/
opaque Config.freeLen : Nat → U16

/-- External `parse_ipv4` (R17): nothing is assumed of it but that it depends on its argument alone. -/
opaque Config.parseIpv4 : List Byte → Option Datagram

/-- External `serialize_ipv4` (R17). -/
opaque Config.serializeIpv4 : Datagram → List Byte

/-- External `parse_arp` (R17). -/
opaque Config.parseArp : List Byte → Option ArpMessage

/-- External `serialize_arp` (R17). -/
opaque Config.serializeArp : ArpMessage → List Byte

/-- External `compute_checksum` (R17): of the header with its new ttl. -/
opaque Config.computeChecksum : Datagram → U16

end Sys2Proof
end

