-- ==== Sys2Proof/WellFormed.lean ====
section
/-! DEFINITION. When a descriptor or an instruction is no command (spec/30_encoding.md R114, R119), by name.
Most of R114 holds of an `Instr` by its types (stream select, prefix length, operand widths); what is left
is checked here. -/

namespace Sys2Proof

/-- Why a descriptor spells no command (R119). The reasons are R119's, R112's and R114's; their names, and which of several
is given, are the model's (DESIGN CHOICE, notes/assumptions/9.md). -/
inductive IllFormed where
  /-- fewer than the 4 header bytes -/
  | truncatedHeader
  /-- `UNIT` 8 to 15 -/
  | reservedUnit
  /-- a `FUNC` the unit does not define -/
  | reservedFunc
  /-- `BS.PUSH` or `BS.CLOSE` with S = 0, `BS.PEEK` or `BS.POP` with S = 1 (R350) -/
  | wrongStream
  /-- a non-zero undefined `FLAGS` bit -/
  | reservedFlags
  /-- non-zero `LEN` on a command without payload -/
  | nonzeroLen
  /-- not exactly `K` operand words and `LEN` payload bytes: truncated or too long -/
  | wrongLength
  /-- non-zero bits 31 to 16 of the `window` word -/
  | windowHighBits
  /-- a `prefix_len` word above 32 -/
  | prefixLenRange
  /-- a non-zero `ackno` or `next_hop` word whose presence bit is 0 -/
  | absentOperand
  /-- `iface` or `iface_idx` at or above `N_IF` -/
  | noSuchInterface
  /-- a byte-sequence operand longer than the 65535 bytes `LEN` can state (R113) -/
  | payloadTooLong
  deriving DecidableEq, Repr

/-- The byte-sequence operand (R111 `LEN`, R112); empty for a command without payload. -/
def Instr.payload : Instr → List Byte
  | .bsPush data => data
  | .raInsert _ data _ => data
  | .rxReceive _ payload _ _ => payload
  | .niSendDgram _ _ dgram => dgram
  | .niRecvFrame _ frame _ => frame
  | .sysReset | .w32Add _ _ | .w32Wrap _ _ | .w32Unwrap _ _ _ | .bsClose | .bsSetError _ | .bsPeek
  | .bsPop _ | .bsAvail _ | .bsPushed _ | .bsPopped _ | .bsBuffered _ | .bsIsClosed _
  | .bsIsFinished _ | .bsHasError _ | .raPending | .rxSend | .txPush | .txMaybeSend
  | .txReceive _ _ | .txTick _ | .txSendEmpty | .txInFlight | .txRetx | .niTick _ _
  | .niMaybeSend _ | .rtAddRoute _ _ _ _ | .rtRoute => []

/-- The interface operand (R114), for the commands that have one. -/
def Instr.iface : Instr → Option U32
  | .niSendDgram i _ _ => some i
  | .niRecvFrame i _ _ => some i
  | .niTick i _ => some i
  | .niMaybeSend i => some i
  | .rtAddRoute _ _ _ i => some i
  | .sysReset | .w32Add _ _ | .w32Wrap _ _ | .w32Unwrap _ _ _ | .bsPush _ | .bsClose
  | .bsSetError _ | .bsPeek | .bsPop _ | .bsAvail _ | .bsPushed _ | .bsPopped _ | .bsBuffered _
  | .bsIsClosed _ | .bsIsFinished _ | .bsHasError _ | .raInsert _ _ _ | .raPending
  | .rxReceive _ _ _ _ | .rxSend | .txPush | .txMaybeSend | .txReceive _ _ | .txTick _
  | .txSendEmpty | .txInFlight | .txRetx | .rtRoute => none

/-- What is wrong with an instruction for a block of `nIf` interfaces, if anything (R114). -/
def Instr.illFormed (nIf : Nat) (i : Instr) : Option IllFormed :=
  if 65536 ≤ i.payload.length then some .payloadTooLong
  else
    match i.iface with
    | none => none
    | some k => if k.toNat < nIf then none else some .noSuchInterface

/-- `i` is a command of a block with `nIf` interfaces (R114). -/
def Instr.wellFormed (nIf : Nat) (i : Instr) : Bool := (i.illFormed nIf).isNone

end Sys2Proof
end

