-- ==== Sys2Proof/Decode.lean ====
section
/-! DEFINITION. Decoding a command descriptor (spec/30_encoding.md R110 to R114, R118, R119): total on any
bytes, rejecting by name; and, after it, the encoder, written from the same table. -/

namespace Sys2Proof

open Sys2Proof.Machine

/-- A row of the opcode map (R118): a header `H` selects it when `H &&& mask = word`; `operandWords` is `K`;
`hasPayload` says whether `LEN` is free. -/
structure OpRow where
  word : U32
  mask : U32
  operandWords : Nat
  hasPayload : Bool
  deriving DecidableEq, Repr

/-- The opcode map of R118, `match`, `mask`, `K` and payload as printed. -/
def Op.row : Op → OpRow
  | .sysReset     => ⟨0x00000000#32, 0xFFFFFFFF#32, 0, false⟩
  | .w32Add       => ⟨0x10000000#32, 0xFFFFFFFF#32, 2, false⟩
  | .w32Wrap      => ⟨0x11000000#32, 0xFFFFFFFF#32, 3, false⟩
  | .w32Unwrap    => ⟨0x12000000#32, 0xFFFFFFFF#32, 4, false⟩
  | .bsPush       => ⟨0x20010000#32, 0xFFFF0000#32, 0, true⟩
  | .bsClose      => ⟨0x21010000#32, 0xFFFFFFFF#32, 0, false⟩
  | .bsSetError   => ⟨0x22000000#32, 0xFFFEFFFF#32, 0, false⟩
  | .bsPeek       => ⟨0x23000000#32, 0xFFFFFFFF#32, 0, false⟩
  | .bsPop        => ⟨0x24000000#32, 0xFFFFFFFF#32, 2, false⟩
  | .bsAvail      => ⟨0x25000000#32, 0xFFFEFFFF#32, 0, false⟩
  | .bsPushed     => ⟨0x26000000#32, 0xFFFEFFFF#32, 0, false⟩
  | .bsPopped     => ⟨0x27000000#32, 0xFFFEFFFF#32, 0, false⟩
  | .bsBuffered   => ⟨0x28000000#32, 0xFFFEFFFF#32, 0, false⟩
  | .bsIsClosed   => ⟨0x29000000#32, 0xFFFEFFFF#32, 0, false⟩
  | .bsIsFinished => ⟨0x2A000000#32, 0xFFFEFFFF#32, 0, false⟩
  | .bsHasError   => ⟨0x2B000000#32, 0xFFFEFFFF#32, 0, false⟩
  | .raInsert     => ⟨0x30000000#32, 0xFFFE0000#32, 2, true⟩
  | .raPending    => ⟨0x31000000#32, 0xFFFFFFFF#32, 0, false⟩
  | .rxReceive    => ⟨0x40000000#32, 0xFFFC0000#32, 1, true⟩
  | .rxSend       => ⟨0x41000000#32, 0xFFFFFFFF#32, 0, false⟩
  | .txPush       => ⟨0x50000000#32, 0xFFFFFFFF#32, 0, false⟩
  | .txMaybeSend  => ⟨0x51000000#32, 0xFFFFFFFF#32, 0, false⟩
  | .txReceive    => ⟨0x52000000#32, 0xFFFEFFFF#32, 2, false⟩
  | .txTick       => ⟨0x53000000#32, 0xFFFFFFFF#32, 2, false⟩
  | .txSendEmpty  => ⟨0x54000000#32, 0xFFFFFFFF#32, 0, false⟩
  | .txInFlight   => ⟨0x55000000#32, 0xFFFFFFFF#32, 0, false⟩
  | .txRetx       => ⟨0x56000000#32, 0xFFFFFFFF#32, 0, false⟩
  | .niSendDgram  => ⟨0x60000000#32, 0xFFFF0000#32, 2, true⟩
  | .niRecvFrame  => ⟨0x61000000#32, 0xFFFE0000#32, 1, true⟩
  | .niTick       => ⟨0x62000000#32, 0xFFFFFFFF#32, 3, false⟩
  | .niMaybeSend  => ⟨0x63000000#32, 0xFFFFFFFF#32, 1, false⟩
  | .rtAddRoute   => ⟨0x70000000#32, 0xFFFEFFFF#32, 4, false⟩
  | .rtRoute      => ⟨0x71000000#32, 0xFFFFFFFF#32, 0, false⟩

/-- The commands in the order of R118. -/
def Op.all : List Op :=
  [.sysReset, .w32Add, .w32Wrap, .w32Unwrap,
   .bsPush, .bsClose, .bsSetError, .bsPeek, .bsPop, .bsAvail, .bsPushed, .bsPopped, .bsBuffered,
   .bsIsClosed, .bsIsFinished, .bsHasError,
   .raInsert, .raPending, .rxReceive, .rxSend,
   .txPush, .txMaybeSend, .txReceive, .txTick, .txSendEmpty, .txInFlight, .txRetx,
   .niSendDgram, .niRecvFrame, .niTick, .niMaybeSend, .rtAddRoute, .rtRoute]

/-- `H[31:28]` and `H[27:24]`: UNIT and FUNC of a row (R111, R117). -/
def Op.code (o : Op) : Byte := o.row.word.extractLsb' 24 8

/-- The command that UNIT and FUNC name, if any. -/
def Op.ofCode (c : Byte) : Option Op := Op.all.find? (fun o => o.code == c)

/-- `UNIT` of a header (R111). -/
def headerUnit (h : U32) : BitVec 4 := h.extractLsb' 28 4

/-- `FLAGS` of a header (R111). -/
def headerFlags (h : U32) : Byte := h.extractLsb' 16 8

/-- `LEN` of a header (R111). -/
def headerLen (h : U32) : U16 := h.extractLsb' 0 16

/-- Why UNIT and FUNC name no command (R119): `UNIT` 8 to 15, or a `FUNC` the unit does not define. -/
def reservedCode (h : U32) : IllFormed :=
  if 8 ≤ (headerUnit h).toNat then .reservedUnit else .reservedFunc

/-- Why a header whose UNIT and FUNC name `o` does not match its row (R119): the stream bit of the four
commands that exist for one stream only, an undefined `FLAGS` bit, or `LEN` without payload. -/
def mismatch (o : Op) (h : U32) : IllFormed :=
  if (headerFlags h ^^^ o.row.word.extractLsb' 16 8) &&& o.row.mask.extractLsb' 16 8 = 0#8 then
    .nonzeroLen
  else
    match o with
    | .bsPush | .bsClose =>
      if (headerFlags h).getLsbD 0 then .reservedFlags else .wrongStream
    | .bsPeek | .bsPop =>
      if (headerFlags h).getLsbD 0 then .wrongStream else .reservedFlags
    | _ => .reservedFlags

/-- The row a header selects (R114, R118), or why it selects none. -/
def selectRow (h : U32) : Except IllFormed Op :=
  match Op.ofCode (h.extractLsb' 24 8) with
  | none => .error (reservedCode h)
  | some o => if h &&& o.row.mask = o.row.word then .ok o else .error (mismatch o h)

/-- The length of a descriptor with header `h` and row `o`: `4 + 4·K + LEN` (R110). -/
def descriptorLength (o : Op) (h : U32) : Nat := 4 + 4 * o.row.operandWords + (headerLen h).toNat

/-- The stream that FLAGS bit 0 selects (R117). -/
def streamOf (flags : Byte) : Stream := if flags.getLsbD 0 then .obs else .ibs

/-- An interface operand: below `N_IF` (R114). -/
def ifaceOperand (nIf : Nat) (w : U32) (k : U32 → Instr) : Except IllFormed Instr :=
  if w.toNat < nIf then .ok (k w) else .error .noSuchInterface

/-- An optional operand: its word must be 0 when its presence bit is 0 (R112). -/
def optOperand (present : Bool) (w : U32) (k : Option U32 → Except IllFormed Instr) :
    Except IllFormed Instr :=
  if present then k (some w)
  else if w = 0#32 then k none
  else .error .absentOperand

/-- A `window` operand: bits 15:0, the upper bits 0 (R112). -/
def windowOperand (w : U32) (k : U16 → Instr) : Except IllFormed Instr :=
  if w.extractLsb' 16 16 = 0#16 then .ok (k (w.extractLsb' 0 16)) else .error .windowHighBits

/-- A `prefix_len` operand: 0 to 32, the upper bits 0 (R112, R114). -/
def prefixLenOperand (w : U32) (k : Fin 33 → Except IllFormed Instr) : Except IllFormed Instr :=
  if h : w.toNat < 33 then k ⟨w.toNat, h⟩ else .error .prefixLenRange

/-- The instruction of row `o` with FLAGS `f`, operand words `ws` and payload `p` (R112, R118). -/
def assemble (nIf : Nat) (o : Op) (f : Byte) (ws : List U32) (p : List Byte) :
    Except IllFormed Instr :=
  let w := fun k => ws.getD k 0#32
  match o with
  | .sysReset => .ok .sysReset
  | .w32Add => .ok (.w32Add (w 0) (w 1))
  | .w32Wrap => .ok (.w32Wrap (pair64 (w 0) (w 1)) (w 2))
  | .w32Unwrap => .ok (.w32Unwrap (w 0) (w 1) (pair64 (w 2) (w 3)))
  | .bsPush => .ok (.bsPush p)
  | .bsClose => .ok .bsClose
  | .bsSetError => .ok (.bsSetError (streamOf f))
  | .bsPeek => .ok .bsPeek
  | .bsPop => .ok (.bsPop (pair64 (w 0) (w 1)))
  | .bsAvail => .ok (.bsAvail (streamOf f))
  | .bsPushed => .ok (.bsPushed (streamOf f))
  | .bsPopped => .ok (.bsPopped (streamOf f))
  | .bsBuffered => .ok (.bsBuffered (streamOf f))
  | .bsIsClosed => .ok (.bsIsClosed (streamOf f))
  | .bsIsFinished => .ok (.bsIsFinished (streamOf f))
  | .bsHasError => .ok (.bsHasError (streamOf f))
  | .raInsert => .ok (.raInsert (pair64 (w 0) (w 1)) p (f.getLsbD 0))
  | .raPending => .ok .raPending
  | .rxReceive => .ok (.rxReceive (w 0) p (f.getLsbD 0) (f.getLsbD 1))
  | .rxSend => .ok .rxSend
  | .txPush => .ok .txPush
  | .txMaybeSend => .ok .txMaybeSend
  | .txReceive => optOperand (f.getLsbD 0) (w 0) fun a => windowOperand (w 1) fun win => .txReceive a win
  | .txTick => .ok (.txTick (pair64 (w 0) (w 1)))
  | .txSendEmpty => .ok .txSendEmpty
  | .txInFlight => .ok .txInFlight
  | .txRetx => .ok .txRetx
  | .niSendDgram => ifaceOperand nIf (w 0) fun i => .niSendDgram i (w 1) p
  | .niRecvFrame => ifaceOperand nIf (w 0) fun i => .niRecvFrame i p (f.getLsbD 0)
  | .niTick => ifaceOperand nIf (w 0) fun i => .niTick i (pair64 (w 1) (w 2))
  | .niMaybeSend => ifaceOperand nIf (w 0) fun i => .niMaybeSend i
  | .rtAddRoute =>
    prefixLenOperand (w 1) fun len =>
      optOperand (f.getLsbD 0) (w 2) fun nh =>
        ifaceOperand nIf (w 3) fun i => .rtAddRoute (w 0) len nh i
  | .rtRoute => .ok .rtRoute

/-- Decode a descriptor for a block of `nIf` interfaces: the command it spells, or why it spells none
(R110, R113, R114, R119). -/
def decode (nIf : Nat) (bs : List Byte) : Except IllFormed Instr :=
  match bs with
  | b0 :: b1 :: b2 :: b3 :: rest =>
    let h := word32 b0 b1 b2 b3
    match selectRow h with
    | .error e => .error e
    | .ok o =>
      if rest.length + 4 = descriptorLength o h then
        assemble nIf o (headerFlags h) (wordsOf o.row.operandWords rest)
          (rest.drop (4 * o.row.operandWords))
      else .error .wrongLength
  | _ => .error .truncatedHeader

/-! The encoder. -/

/-- FLAGS bit of a stream select (R117). -/
def streamBit : Stream → Bool
  | .ibs => false
  | .obs => true

/-- The `FLAGS` field of a command (R118): its one-bit operands and, for the four commands of one stream, the
fixed S. -/
def Instr.flags : Instr → Byte
  | .bsPush _ => flagBits true false false
  | .bsClose => flagBits true false false
  | .bsSetError sel => flagBits (streamBit sel) false false
  | .bsAvail sel => flagBits (streamBit sel) false false
  | .bsPushed sel => flagBits (streamBit sel) false false
  | .bsPopped sel => flagBits (streamBit sel) false false
  | .bsBuffered sel => flagBits (streamBit sel) false false
  | .bsIsClosed sel => flagBits (streamBit sel) false false
  | .bsIsFinished sel => flagBits (streamBit sel) false false
  | .bsHasError sel => flagBits (streamBit sel) false false
  | .raInsert _ _ isLast => flagBits isLast false false
  | .rxReceive _ _ syn fin => flagBits syn fin false
  | .txReceive ackno _ => flagBits ackno.isSome false false
  | .niRecvFrame _ _ toRouter => flagBits toRouter false false
  | .rtAddRoute _ _ nextHop _ => flagBits nextHop.isSome false false
  | .sysReset | .w32Add _ _ | .w32Wrap _ _ | .w32Unwrap _ _ _ | .bsPeek | .bsPop _ | .raPending
  | .rxSend | .txPush | .txMaybeSend | .txTick _ | .txSendEmpty | .txInFlight | .txRetx
  | .niSendDgram _ _ _ | .niTick _ _ | .niMaybeSend _ | .rtRoute => 0#8

/-- The operand words of a command, in the order of R118. -/
def Instr.operandWords : Instr → List U32
  | .w32Add raw k => [raw, k]
  | .w32Wrap n zero => words64 n ++ [zero]
  | .w32Unwrap raw zero checkpoint => raw :: zero :: words64 checkpoint
  | .bsPop n => words64 n
  | .raInsert firstIndex _ _ => words64 firstIndex
  | .rxReceive seqno _ _ _ => [seqno]
  | .txReceive ackno window => [optWord ackno, window.setWidth 32]
  | .txTick delta => words64 delta
  | .niSendDgram iface nextHop _ => [iface, nextHop]
  | .niRecvFrame iface _ _ => [iface]
  | .niTick iface delta => iface :: words64 delta
  | .niMaybeSend iface => [iface]
  | .rtAddRoute pfx prefixLen nextHop ifaceIdx =>
    [pfx, BitVec.ofNat 32 prefixLen.val, optWord nextHop, ifaceIdx]
  | .sysReset | .bsPush _ | .bsClose | .bsSetError _ | .bsPeek | .bsAvail _ | .bsPushed _
  | .bsPopped _ | .bsBuffered _ | .bsIsClosed _ | .bsIsFinished _ | .bsHasError _ | .raPending
  | .rxSend | .txPush | .txMaybeSend | .txSendEmpty | .txInFlight | .txRetx | .rtRoute => []

/-- The header word of a command: UNIT, FUNC, FLAGS, LEN (R111). -/
def Instr.header (i : Instr) : U32 :=
  i.op.code ++ i.flags ++ BitVec.ofNat 16 i.payload.length

/-- The descriptor of a command: `H ++ W ++ P` (R110). -/
def encode (i : Instr) : List Byte :=
  bytes32 i.header ++ bytesOfWords i.operandWords ++ i.payload

/-! Words numbered as spec/opcode_table.json numbers them: bit 0 is the least significant bit of the header
word, and a later word's bits count on from it. -/

/-- The first `k` words of `w`, the header first, each in big-endian bytes (R110). -/
def bytesOfNat : Nat → Nat → List Byte
  | 0, _ => []
  | k + 1, w => bytes32 (BitVec.ofNat 32 w) ++ bytesOfNat k (w / two32)

/-- The descriptor that the bits `w` (of which the lowest `nbits` count) spell, laid out as the port receives
it: as long as its header says (R113), every bit above `nbits` 0. -/
def tableDescriptor (nbits w : Nat) : List Byte :=
  let v := w % 2 ^ nbits
  let h := BitVec.ofNat 32 v
  match selectRow h with
  | .error _ => bytes32 h
  | .ok o =>
    let n := descriptorLength o h
    (bytesOfNat ((n + 3) / 4) v).take n

/-- What the decoder reads from an instruction whose bits are `w`, numbered as the opcode table numbers them,
for the block `State.reset` describes. -/
def decodeTableWord (nbits w : Nat) : Option Instr :=
  match decode Config.resetParams.nIf (tableDescriptor nbits w) with
  | .ok i => some i
  | .error _ => none

end Sys2Proof
end

