-- ==== Sys2Proof/Machine/State.lean ====
section
/-! DEFINITION. The architectural state (spec/10_state.md), plain data, one record per unit, and the reset
state (R75, spec/70_reset_and_hazards.md R380). Counters and stream indices are naturals (R157, D11); every other
number has its width by its type. -/

namespace Sys2Proof.Machine

/-- The block raises no fault: "the core never raises failure signals" (R344), so this type has no
constructor. Safe: nothing is stopped by it. -/
inductive Fault : Type where
  deriving DecidableEq, Repr

/-- Why the machine has no step. Refusals are safe: no claim holds of a run that contains one (R119, R157). -/
inductive Refusal where
  /-- An instruction without a meaning yet; raised by `exec` alone. Safe. -/
  | notModelled (mnemonic : String)
  /-- The descriptor at the command port is not a command (R119, U5); raised by `step`. Safe. -/
  | badDescriptor (why : IllFormed)
  /-- The command would carry a 64-bit counter or stream index to 2^64, which is outside the spec (R81, R157,
  D11, U7); raised by BS.PUSH, RA.INSERT, RX.RECEIVE and TX.PUSH. Safe. -/
  | counterOverflow
  /-- The interface operand is at or above `N_IF` (R119); raised by the NI commands and RT.ADD_ROUTE when they
  are given to `exec` without having been decoded. Safe. -/
  | noSuchInterface
  deriving DecidableEq, Repr

/-- A finite partial map with natural keys, in canonical form: keys strictly rising. -/
abbrev Table (α : Type) := List (Nat × α)

/-- The Reassembler's fragment store (R30, R83): a map from absolute stream index to byte. An index that is
not listed is an unfilled slot. -/
abbrev Memory := List Host.Cell

/-- A ByteStream (R23). -/
structure ByteStream where
  cap : U64
  buffer : List Byte
  pushed : Nat
  popped : Nat
  closed : Bool
  error : Bool
  deriving DecidableEq, Repr

/-- The Reassembler (R30). -/
structure Reassembler where
  store : Memory
  pending : Nat
  lastSeen : Bool
  lastIndex : Nat
  deriving DecidableEq, Repr

/-- The TCPReceiver (R35). -/
structure Receiver where
  isnReceived : Bool
  zero : U32
  deriving DecidableEq, Repr

/-- An unacknowledged segment with the absolute sequence number of its first unit (R46). -/
structure InFlight where
  abs : Nat
  seg : Segment
  deriving DecidableEq, Repr

/-- The TCPSender (R40 to R48). `retx` is the source's `R`. -/
structure Sender where
  isn : U32
  rto0 : U64
  rtoCur : U64
  t : U64
  retx : U64
  synSent : Bool
  finSent : Bool
  cursor : Nat
  outstanding : List InFlight
  win : U16
  ready : List Segment
  deriving DecidableEq, Repr

/-- An ARP cache entry (R56). -/
structure ArpEntry where
  eth : EthAddr
  age : U64
  deriving DecidableEq, Repr

/-- A parked frame: a Frame without the `dst` that is not yet meaningful (R58, R270, U11). -/
structure Parked where
  src : EthAddr
  etype : U16
  payload : List Byte
  deriving DecidableEq, Repr

/-- A NetworkInterface (R55 to R60). The tables are keyed by the numeric value of an IPv4 address (R84); an
address with no parked frames has no `pending` entry (R58). -/
structure NetIf where
  eth : EthAddr
  ip : U32
  arpCache : Table ArpEntry
  arpInflight : Table U64
  pending : Table (List Parked)
  outQueue : List Frame
  rxQueue : List Datagram
  deriving DecidableEq, Repr

/-- The Router (R65). -/
structure Router where
  routes : List RouteInfo
  deriving DecidableEq, Repr

/-- The state of the block: the record `S` of R22, with the parameters it samples at reset (R5), the command and
response ports (R110, R115), and the model's own counter of free values drawn. `cmds` holds the descriptors the
host presents, in issue order; `resps` the responses given so far, oldest first (R19). -/
structure State where
  params : Config.Params
  draws : Nat
  cmds : List (List Byte)
  resps : List (List Byte)
  ibs : ByteStream
  obs : ByteStream
  ra : Reassembler
  rx : Receiver
  tx : Sender
  ni : List NetIf
  rt : Router
  deriving DecidableEq, Repr

/-- A ByteStream after reset (R75). -/
def ByteStream.fresh (cap : U64) : ByteStream :=
  { cap := cap, buffer := [], pushed := 0, popped := 0, closed := false, error := false }

/-- The Reassembler after reset (R75). `last_index` is unspecified and never read before it is written (R381);
0 is a DESIGN CHOICE, unsafe (notes/assumptions/3.md). -/
def Reassembler.fresh : Reassembler :=
  { store := [], pending := 0, lastSeen := false, lastIndex := 0 }

/-- The TCPReceiver after reset (R75). `zero` is unspecified and never read before it is written (R381); 0 is a
DESIGN CHOICE, unsafe (notes/assumptions/3.md). -/
def Receiver.fresh : Receiver := { isnReceived := false, zero := 0#32 }

/-- The TCPSender after reset (R75): `RTO_cur` is `RTO0`, the window 1. -/
def Sender.fresh (isn : U32) (rto0 : U64) : Sender :=
  { isn := isn, rto0 := rto0, rtoCur := rto0, t := 0#64, retx := 0#64, synSent := false,
    finSent := false, cursor := 0, outstanding := [], win := 1#16, ready := [] }

/-- A NetworkInterface after reset (R75). -/
def NetIf.fresh (a : EthAddr × U32) : NetIf :=
  { eth := a.1, ip := a.2, arpCache := [], arpInflight := [], pending := [], outQueue := [],
    rxQueue := [] }

/-- The ISN a reset takes: `ISN_FIXED`, or draw number `draws` when it is absent (R40, R330). -/
def State.isnAtReset (p : Config.Params) (draws : Nat) : U32 := p.isnFixed.getD (Config.isnDraw draws)

/-- How many free values have been drawn once that reset is done. -/
def State.drawsAfterReset (p : Config.Params) (draws : Nat) : Nat :=
  if p.isnFixed.isSome then draws else draws + 1

/-- `ResetState(params, isn_draw)` (R330, R380): every field of `S` at its value of R75. The ports are not part of
`S` and start empty. -/
def State.resetWith (p : Config.Params) (draws : Nat) : State :=
  { params := p
    draws := State.drawsAfterReset p draws
    cmds := []
    resps := []
    ibs := ByteStream.fresh p.cIn
    obs := ByteStream.fresh p.cOut
    ra := Reassembler.fresh
    rx := Receiver.fresh
    tx := Sender.fresh (State.isnAtReset p draws) p.rto0
    ni := p.ifaces.map NetIf.fresh
    rt := { routes := [] } }

/-- The machine right after power-on reset (R380), with the parameters of `Config.resetParams`
(notes/assumptions/1.md) and the first free value. -/
def State.reset : State := State.resetWith Config.resetParams 0

end Sys2Proof.Machine
end

