-- ==== Sys2Proof/Machine/Flags.lean ====
section
/-! DEFINITION. One-bit state and one-bit results: the sticky flags of spec/10_state.md R25, the derived
`is_finished` (R171), and RFLAGS (spec/30_encoding.md R115, R116). The block has no condition codes. -/

namespace Sys2Proof.Machine

/-- `BsClose(b)`: set the sticky `closed` flag (R162). -/
def ByteStream.close (b : ByteStream) : ByteStream := { b with closed := true }

/-- Set the sticky `error` flag (R163). -/
def ByteStream.setError (b : ByteStream) : ByteStream := { b with error := true }

/-- `finished(b) = closed ∧ buffer_size = 0` (R12, R171). -/
def ByteStream.finished (b : ByteStream) : Bool := b.closed && b.buffer.isEmpty

/-- Set `S.ra.last_seen` and record `last_index` (R191 step 1). -/
def Reassembler.markLast (r : Reassembler) (lastIndex : Nat) : Reassembler :=
  { r with lastSeen := true, lastIndex := lastIndex }

/-- Set `S.rx.isn_received` and take the peer's ISN (R220 step 1). -/
def Receiver.takeSyn (r : Receiver) (seqno : U32) : Receiver :=
  { r with isnReceived := true, zero := seqno }

/-- RFLAGS of a boolean result: bit 0 (R116). -/
def rflagBool (b : Bool) : Byte := flagBits b false false

/-- RFLAGS of a returned segment: VALID, SYN, FIN (R116). -/
def rflagSegment (syn fin : Bool) : Byte := flagBits true syn fin

end Sys2Proof.Machine
end

