-- ==== Sys2Proof/Machine/Ops.lean ====
section
/-! DEFINITION. The named operations every meaning is built from: the container and ByteStream primitives of
spec/00_scope.md R10 and R12, the responses of spec/30_encoding.md R115 and R116, the command port, and saturating
time (R157). There is no exception entry or return: the block has no traps (R348, R349). -/

namespace Sys2Proof.Machine

/-- What a command answers. -/
abbrev Result := Host.Outcome State Fault Refusal

/-! Anomalies. -/

/-- The names of the sixteen anomalies (R340). They are diagnostic only: no state, no response and no code
carries them (R341, D33). -/
inductive Anomaly where
  | bsTruncate | bsClosed
  | raEmpty | raBeyondWindow | raTrim | raDuplicate
  | rxNoSyn | rxBadSeqno
  | txAckAbsent | txAckBeyond
  | niMalformed | niNotForUs | niEthertype | niEvictPending
  | rtNoRoute | rtTtl
  deriving DecidableEq, Repr

/-- `drop(CAUSE)` (R10): nothing happens; the name only says which silent drop this is. -/
def drop {α : Type} (_cause : Anomaly) (x : α) : α := x

/-! Partial maps with natural keys (R10). -/

/-- `m[k]`, or `none` when `k ∉ dom m`. -/
def Table.read {α : Type} : Table α → Nat → Option α
  | [], _ => none
  | (k', v) :: m, k => if k' = k then some v else Table.read m k

/-- `k ∈ dom m`. -/
def Table.has {α : Type} (m : Table α) (k : Nat) : Bool := (Table.read m k).isSome

/-- `m[k] <- v`, replacing any earlier binding and keeping the keys in rising order. -/
def Table.write {α : Type} : Table α → Nat → α → Table α
  | [], k, v => [(k, v)]
  | (k', v') :: m, k, v =>
    if k < k' then (k, v) :: (k', v') :: m
    else if k = k' then (k, v) :: m
    else (k', v') :: Table.write m k v

/-- `erase m[k]`. -/
def Table.remove {α : Type} (m : Table α) (k : Nat) : Table α := m.filter (fun c => c.1 != k)

/-- The keys stand in strictly rising order. -/
def Table.wf {α : Type} : Table α → Bool
  | [] => true
  | (_, _) :: [] => true
  | (k, _) :: (k', v') :: m => decide (k < k') && Table.wf ((k', v') :: m)

/-- `StoreRead(i)` (R10): the byte the Reassembler holds for stream index `i`; `none` for an unfilled slot. -/
def Memory.read (m : Memory) (i : Nat) : Option Byte := Table.read m i

/-- `StoreWrite(i, b)` (R10). -/
def Memory.write (m : Memory) (i : Nat) (b : Byte) : Memory := Table.write m i b

/-- Erase the `n` indices from `u` on (R191 step 5). -/
def Memory.eraseRange (m : Memory) (u n : Nat) : Memory :=
  m.filter (fun c => !(decide (u ≤ c.1) && decide (c.1 < u + n)))

/-- The store's canonical form: indices strictly rising (an unlisted index reads as unfilled, so no entry can
equal it). -/
def Memory.wf (m : Memory) : Bool := Table.wf m

/-! Saturating 64-bit time (R157, D12). -/

/-- `sat64(x) = min(x, 2^64 − 1)`. -/
def sat64 (x : Nat) : U64 := BitVec.ofNat 64 (min x (two64 - 1))

/-- `sat64(t + Δ)`. -/
def addTime (t delta : U64) : U64 := sat64 (t.toNat + delta.toNat)

/-! ByteStreams (R12). -/

/-- `avail(b) = b.C − buffer_size(b)`. -/
def ByteStream.avail (b : ByteStream) : Nat := b.cap.toNat - b.buffer.length

/-- How many bytes `BsPush` appends (R161): none when the stream is closed or in error, else as many as fit. -/
def ByteStream.accepts (b : ByteStream) (data : List Byte) : Nat :=
  if b.closed || b.error then drop .bsClosed 0 else min b.avail data.length

/-- `BsPush(b, data)` (R161): append the bytes from the front that fit; the excess is dropped in silence. -/
def ByteStream.push (b : ByteStream) (data : List Byte) : ByteStream :=
  { b with
    buffer := b.buffer ++ data.take (b.accepts data)
    pushed := b.pushed + b.accepts data }

/-- `BsPop(b, n)` (R165): remove `min(n, buffer_size)` bytes from the front. -/
def ByteStream.pop (b : ByteStream) (n : Nat) : ByteStream :=
  { b with
    buffer := b.buffer.drop (min n b.buffer.length)
    popped := b.popped + min n b.buffer.length }

/-- The bytes BS.PEEK shows (R164, D14): as many as the response's length field can count. -/
def ByteStream.peek (b : ByteStream) : List Byte := b.buffer.take (min b.buffer.length 65535)

/-! Reading and writing one unit of the state. -/

/-- The stream a stream select names (R117). -/
def State.stream (s : State) : Stream → ByteStream
  | .ibs => s.ibs
  | .obs => s.obs

/-- The state with its inbound stream replaced. -/
def State.setIbs (s : State) (b : ByteStream) : State := { s with ibs := b }

/-- The state with its outbound stream replaced. -/
def State.setObs (s : State) (b : ByteStream) : State := { s with obs := b }

/-- The state with the selected stream replaced. -/
def State.setStream (s : State) : Stream → ByteStream → State
  | .ibs, b => s.setIbs b
  | .obs, b => s.setObs b

/-- The state with its Reassembler replaced. -/
def State.setRa (s : State) (r : Reassembler) : State := { s with ra := r }

/-- The state with its TCPReceiver replaced. -/
def State.setRx (s : State) (r : Receiver) : State := { s with rx := r }

/-- The state with its TCPSender replaced. -/
def State.setTx (s : State) (t : Sender) : State := { s with tx := t }

/-- The state with its interfaces replaced. -/
def State.setNi (s : State) (ni : List NetIf) : State := { s with ni := ni }

/-- The state with interface `i` replaced (no change when there is no interface `i`). -/
def State.setIf (s : State) (i : Nat) (n : NetIf) : State := s.setNi (s.ni.set i n)

/-- The state with its route list replaced. -/
def State.setRoutes (s : State) (rs : List RouteInfo) : State := { s with rt := { routes := rs } }

/-! Responses (R115, R116). -/

/-- A response: the command it answers, RFLAGS, the result words and the result payload. -/
structure Response where
  op : Op
  flags : Byte
  words : List U32
  payload : List Byte
  deriving DecidableEq, Repr

/-- The bare header: no flags, no words, no payload (R116). -/
def Response.bare (op : Op) : Response := ⟨op, 0#8, [], []⟩

/-- A response of one 32-bit result (R116). -/
def Response.word (op : Op) (v : U32) : Response := ⟨op, 0#8, [v], []⟩

/-- A response of one 64-bit result in two words, high first (R115, R116). A natural is given by its low 64
bits, which is its value whenever it is below 2^64. -/
def Response.nat64 (op : Op) (v : Nat) : Response := ⟨op, 0#8, words64 (BitVec.ofNat 64 v), []⟩

/-- A response of one boolean, RFLAGS bit 0 (R116). -/
def Response.bool (op : Op) (b : Bool) : Response := ⟨op, rflagBool b, [], []⟩

/-- The response of TX.MAYBE_SEND and TX.SEND_EMPTY: a segment, or none with `seqno` 0 (R116). -/
def Response.segment (op : Op) : Option Segment → Response
  | some g => ⟨op, rflagSegment g.syn g.fin, [g.seqno], g.payload⟩
  | none => ⟨op, 0#8, [0#32], []⟩

/-- A response of VALID and, when set, a payload: NI.RECV_FRAME and NI.MAYBE_SEND (R116). -/
def Response.optBytes (op : Op) : Option (List Byte) → Response
  | some p => ⟨op, rflagBool true, [], p⟩
  | none => ⟨op, 0#8, [], []⟩

/-- The bytes `RH ++ RW ++ RP` of a response whose RLEN field is `rlen` (R115). -/
def Response.bytes (r : Response) (rlen : U16) : List Byte :=
  bytes32 (r.op.code ++ r.flags ++ rlen) ++ bytesOfWords r.words ++ r.payload

/-- RLEN: the number of payload bytes (R115). A payload longer than 65535 bytes has no RLEN the spec states: a free
value, draw number `draws` (DESIGN CHOICE, notes/assumptions/5.md). -/
def Response.rlen (r : Response) (draws : Nat) : U16 :=
  if r.payload.length < 65536 then BitVec.ofNat 16 r.payload.length else Config.freeLen draws

/-- The free values drawn once `r` has been given. -/
def Response.drawsAfter (r : Response) (draws : Nat) : Nat :=
  if r.payload.length < 65536 then draws else draws + 1

/-- `respond(...)` (R10, R115): the response leaves at the response port, after every state change. -/
def State.respond (s : State) (r : Response) : State :=
  { s with
    resps := s.resps ++ [r.bytes (r.rlen s.draws)]
    draws := r.drawsAfter s.draws }

/-! The command port (R110). -/

/-- The next descriptor the host presents, and the state once the block has taken it whole (R110); `none` while
the host presents none. -/
def fetch (s : State) : Option (List Byte × State) :=
  match s.cmds with
  | [] => none
  | d :: rest => some (d, { s with cmds := rest })

/-- The state with the descriptor that the bits `w` spell presented next. -/
def present (s : State) (nbits w : Nat) : State :=
  { s with cmds := tableDescriptor nbits w :: s.cmds }

end Sys2Proof.Machine
end

