-- ==== Sys2Proof/Machine/ByteStream.lean ====
section
/-! DEFINITION. The ByteStream commands (spec/41_bytestream.md). The stream operations themselves are in
Machine/Ops.lean and Machine/Flags.lean. -/

namespace Sys2Proof.Machine

/-- `BS.PUSH OBS, data` (R161). Refused when `bytes_pushed` would reach 2^64 (R157, D11). -/
def execBsPush (data : List Byte) (s : State) : Result :=
  if (s.obs.push data).pushed < two64 then
    .next ((s.setObs (s.obs.push data)).respond (Response.bare .bsPush))
  else .refused .counterOverflow

/-- `BS.CLOSE OBS` (R162). -/
def execBsClose (s : State) : Result :=
  .next ((s.setObs s.obs.close).respond (Response.bare .bsClose))

/-- `BS.SET_ERROR s` (R163). -/
def execBsSetError (sel : Stream) (s : State) : Result :=
  .next ((s.setStream sel (s.stream sel).setError).respond (Response.bare .bsSetError))

/-- `BS.PEEK IBS` (R164, D14). -/
def execBsPeek (s : State) : Result :=
  .next (s.respond ⟨.bsPeek, 0#8, [], s.ibs.peek⟩)

/-- `BS.POP IBS, n` (R165). -/
def execBsPop (n : U64) (s : State) : Result :=
  .next ((s.setIbs (s.ibs.pop n.toNat)).respond (Response.bare .bsPop))

/-- `BS.AVAIL s` (R166). -/
def execBsAvail (sel : Stream) (s : State) : Result :=
  .next (s.respond (Response.nat64 .bsAvail (s.stream sel).avail))

/-- `BS.PUSHED s` (R167). -/
def execBsPushed (sel : Stream) (s : State) : Result :=
  .next (s.respond (Response.nat64 .bsPushed (s.stream sel).pushed))

/-- `BS.POPPED s` (R168). -/
def execBsPopped (sel : Stream) (s : State) : Result :=
  .next (s.respond (Response.nat64 .bsPopped (s.stream sel).popped))

/-- `BS.BUFFERED s` (R169). -/
def execBsBuffered (sel : Stream) (s : State) : Result :=
  .next (s.respond (Response.nat64 .bsBuffered (s.stream sel).buffer.length))

/-- `BS.IS_CLOSED s` (R170). -/
def execBsIsClosed (sel : Stream) (s : State) : Result :=
  .next (s.respond (Response.bool .bsIsClosed (s.stream sel).closed))

/-- `BS.IS_FINISHED s` (R171). -/
def execBsIsFinished (sel : Stream) (s : State) : Result :=
  .next (s.respond (Response.bool .bsIsFinished (s.stream sel).finished))

/-- `BS.HAS_ERROR s` (R172). -/
def execBsHasError (sel : Stream) (s : State) : Result :=
  .next (s.respond (Response.bool .bsHasError (s.stream sel).error))

end Sys2Proof.Machine
end

