-- ==== Sys2Proof/Machine/Reassembler.lean ====
section
/-! DEFINITION. The Reassembler (spec/42_reassembler.md). Its stream is IBS. -/

namespace Sys2Proof.Machine

/-- `U`, the next index the inbound writer expects (R190). -/
def State.windowStart (s : State) : Nat := s.ibs.pushed

/-- `E`, the first index outside the acceptance window (R190). -/
def State.windowEnd (s : State) : Nat := s.ibs.pushed + s.ibs.avail

/-- Step 4 of RaInsert: store the bytes at `i`, `i+1`, ... in the slots that are unfilled; a filled slot keeps its
byte and `pending` (R191, R193). -/
def raStore (m : Memory) (pending i : Nat) : List Byte → Memory × Nat
  | [] => (m, pending)
  | b :: rest =>
    if Table.has m i then raStore (drop .raDuplicate m) pending (i + 1) rest
    else raStore (m.write i b) (pending + 1) (i + 1) rest

/-- The longest run of filled slots from index `u` on, at most `fuel` long (R191 step 5). A run is never longer
than the number of stored bytes, so that number is fuel enough. -/
def raRun (m : Memory) : Nat → Nat → List Byte
  | 0, _ => []
  | fuel + 1, u =>
    match m.read u with
    | none => []
    | some b => b :: raRun m fuel (u + 1)

/-- Step 1 of RaInsert (R191): the terminator, from the untrimmed fragment. -/
def raMark (s : State) (firstIndex : Nat) (data : List Byte) (isLast : Bool) : State :=
  if isLast then s.setRa (s.ra.markLast (firstIndex + data.length)) else s

/-- Steps 3 and 4 of RaInsert (R191): trim to `[U, E)` and store what is left. -/
def raKeep (s : State) (firstIndex : Nat) (data : List Byte) : State :=
  let lo := max firstIndex s.windowStart
  let hi := min (firstIndex + data.length) s.windowEnd
  let kept := drop .raTrim ((data.drop (lo - firstIndex)).take (hi - lo))
  let r := raStore s.ra.store s.ra.pending lo kept
  s.setRa { s.ra with store := r.1, pending := r.2 }

/-- Step 5 of RaInsert (R191): push the contiguous run to IBS and remove it from the store, also when the push is
a no-op (R194, D15). -/
def raFlush (s : State) : State :=
  let run := raRun s.ra.store s.ra.store.length s.windowStart
  (s.setIbs (s.ibs.push run)).setRa
    { s.ra with
      store := Memory.eraseRange s.ra.store s.windowStart run.length
      pending := s.ra.pending - run.length }

/-- `RaCloseCheck()` (R192). -/
def raCloseCheck (s : State) : State :=
  if s.ra.lastSeen && s.ra.pending == 0 && s.ibs.pushed == s.ra.lastIndex then s.setIbs s.ibs.close
  else s

/-- `RaInsert(first_index, data, is_last)` (R191). -/
def raInsert (s : State) (firstIndex : Nat) (data : List Byte) (isLast : Bool) : State :=
  let s1 := raMark s firstIndex data isLast
  if data.length = 0 then raCloseCheck (drop .raEmpty s1)
  else if s1.windowEnd ≤ firstIndex then raCloseCheck (drop .raBeyondWindow s1)
  else raCloseCheck (raFlush (raKeep s1 firstIndex data))

/-- The insert would store a byte at stream index 2^64 or above, or carry `bytes_pushed` to 2^64: outside the spec
(R81, R157, D11). -/
def raOverflows (s : State) (firstIndex : Nat) (data : List Byte) (isLast : Bool) : Bool :=
  (decide (max firstIndex s.windowStart < min (firstIndex + data.length) s.windowEnd) &&
    decide (two64 < min (firstIndex + data.length) s.windowEnd)) ||
  decide (two64 ≤ (raInsert s firstIndex data isLast).ibs.pushed)

/-- `RA.INSERT first_index, data, last` (R191). -/
def execRaInsert (firstIndex : U64) (data : List Byte) (isLast : Bool) (s : State) : Result :=
  if raOverflows s firstIndex.toNat data isLast then .refused .counterOverflow
  else .next ((raInsert s firstIndex.toNat data isLast).respond (Response.bare .raInsert))

/-- `RA.PENDING` (R197). -/
def execRaPending (s : State) : Result :=
  .next (s.respond (Response.nat64 .raPending s.ra.pending))

end Sys2Proof.Machine
end

