-- ==== Sys2Proof/Machine/Wrap32.lean ====
section
/-! DEFINITION. Wrap32: sequence-number arithmetic and the W32 commands (spec/40_wrap32.md). -/

namespace Sys2Proof.Machine

/-- `a +32 k = (a + k) mod 2^32` (R150). -/
def add32 (a : U32) (k : Nat) : U32 := a + BitVec.ofNat 32 k

/-- `wrap(n, zero) = (zero + n) mod 2^32` (R151). -/
def wrap (n : Nat) (zero : U32) : U32 := add32 zero n

/-- `|a − b|` on naturals. -/
def absDiff (a b : Nat) : Nat := if a ≤ b then b - a else a - b

/-- Step 1 of `unwrap`: the first candidate, `offset + base` (R152). -/
def unwrapStart (raw zero : U32) (checkpoint : Nat) : Nat :=
  (raw - zero).toNat + (checkpoint - checkpoint % two32)

/-- Step 2 of `unwrap`: subtract 2^32 from a first candidate at or above the checkpoint, except when both are
below 2^32 (R152). -/
def unwrapLow (raw zero : U32) (checkpoint : Nat) : Nat :=
  let low := unwrapStart raw zero checkpoint
  if checkpoint ≤ low ∧ ¬(low < two32 ∧ checkpoint < two32) then low - two32 else low

/-- `unwrap(raw, zero, checkpoint)`: the nearest candidate, ties to the lower, never at or above 2^64 (R152,
D13). -/
def unwrap (raw zero : U32) (checkpoint : Nat) : Nat :=
  let low := unwrapLow raw zero checkpoint
  let high := low + two32
  if two64 ≤ high then low
  else if absDiff high checkpoint < absDiff low checkpoint then high
  else low

/-- `W32.ADD raw, k` (R154). -/
def execW32Add (raw k : U32) (s : State) : Result :=
  .next (s.respond (Response.word .w32Add (add32 raw k.toNat)))

/-- `W32.WRAP n, zero` (R155). -/
def execW32Wrap (n : U64) (zero : U32) (s : State) : Result :=
  .next (s.respond (Response.word .w32Wrap (wrap n.toNat zero)))

/-- `W32.UNWRAP raw, zero, checkpoint` (R156). -/
def execW32Unwrap (raw zero : U32) (checkpoint : U64) (s : State) : Result :=
  .next (s.respond (Response.nat64 .w32Unwrap (unwrap raw zero checkpoint.toNat)))

end Sys2Proof.Machine
end

