-- ==== Sys2Proof/Machine/Receiver.lean ====
section
/-! DEFINITION. The TCPReceiver (spec/43_tcp_receiver.md). -/

namespace Sys2Proof.Machine

/-- Step 1 of RX.RECEIVE: a SYN sets `isn_received` and replaces `zero`, whatever came before (R220, R395). -/
def rxMark (s : State) (seqno : U32) (syn : Bool) : State :=
  if syn then s.setRx (s.rx.takeSyn seqno) else s

/-- Step 3 of RX.RECEIVE: the absolute seqno, unwrapped at `bytes_pushed + 1` (R220). -/
def rxAbs (s : State) (seqno : U32) : Nat := unwrap seqno s.rx.zero (s.ibs.pushed + 1)

/-- The stream index of the segment's first byte, `A` with SYN and `A − 1` without (R221); `none` for a segment that
is dropped, because no SYN has been received or because it claims the SYN's own number without SYN (D18). `s` is
the state after step 1. -/
def rxIndex (s : State) (seqno : U32) (syn : Bool) : Option Nat :=
  if !s.rx.isnReceived then drop .rxNoSyn none
  else if !syn && rxAbs s seqno == 0 then drop .rxBadSeqno none
  else some (if syn then rxAbs s seqno else rxAbs s seqno - 1)

/-- `RX.RECEIVE seqno, payload, syn, fin` (R220). Refused where RaInsert would carry a counter to 2^64. -/
def execRxReceive (seqno : U32) (payload : List Byte) (syn fin : Bool) (s : State) : Result :=
  let s1 := rxMark s seqno syn
  match rxIndex s1 seqno syn with
  | none => .next (s1.respond (Response.bare .rxReceive))
  | some idx =>
    if raOverflows s1 idx payload fin then .refused .counterOverflow
    else .next ((raInsert s1 idx payload fin).respond (Response.bare .rxReceive))

/-- The AckMsg of RX.SEND (R222). -/
def rxAck (s : State) : AckMsg :=
  { ackno :=
      if s.rx.isnReceived then
        some (add32 s.rx.zero (1 + s.ibs.pushed + (if s.ibs.closed then 1 else 0)))
      else none
    windowSize := BitVec.ofNat 16 (min s.ibs.avail Config.windowMax) }

/-- The response that carries an AckMsg: HAS_ACK, `ackno` (0 when absent), `window_size` zero-extended (R116). -/
def Response.ackMsg (op : Op) (m : AckMsg) : Response :=
  ⟨op, rflagBool m.ackno.isSome, [optWord m.ackno, m.windowSize.setWidth 32], []⟩

/-- `RX.SEND` (R222). -/
def execRxSend (s : State) : Result :=
  .next (s.respond (Response.ackMsg .rxSend (rxAck s)))

end Sys2Proof.Machine
end

