-- ==== Sys2Proof/Machine/Wire.lean ====
section
/-! DEFINITION. Wire formats: the frame layout (spec/30_encoding.md R125), the external collaborators of
spec/00_scope.md R17, and the standard ARP and IPv4 layouts R126 and R127 give for test benches (PRESUMED: the
spec marks them as general knowledge; notes/assumptions/4.md). -/

namespace Sys2Proof.Machine

/-- `serialize_frame(f) = dst (6) ++ src (6) ++ type (2, big-endian) ++ payload` (R125). -/
def serializeFrame (f : Frame) : List Byte := bytes48 f.dst ++ bytes48 f.src ++ bytes16 f.etype ++ f.payload

/-- `parse_frame(x)`: `none` when `|x| < 14`, else the inverse of `serialize_frame` (R125). -/
def parseFrame : List Byte → Option Frame
  | d0 :: d1 :: d2 :: d3 :: d4 :: d5 :: s0 :: s1 :: s2 :: s3 :: s4 :: s5 :: t0 :: t1 :: payload =>
    some { dst := word48 d0 d1 d2 d3 d4 d5, src := word48 s0 s1 s2 s3 s4 s5, etype := word16 t0 t1,
           payload := payload }
  | _ => none

/-! The standard layouts. -/

/-- The ones' complement sum of 16-bit big-endian words, carries not yet folded (R127). -/
def sum16 : List Byte → Nat
  | a :: b :: rest => (word16 a b).toNat + sum16 rest
  | [a] => (word16 a 0#8).toNat
  | [] => 0

/-- Fold the carries of a sum of at most 2^17 words into 16 bits. -/
def fold16 (n : Nat) : U16 :=
  let once := n % 65536 + n / 65536
  BitVec.ofNat 16 (once % 65536 + once / 65536)

/-- The length in bytes of the header of an IPv4 datagram whose byte 0 is `b0`: `4·IHL` (R127). -/
def ipv4HeaderLength (b0 : Byte) : Nat := 4 * (b0.extractLsb' 0 4).toNat

/-- `rest` of the standard layout: bytes 0 to 7, byte 9 and bytes 12 to 15 of the header, then everything from
byte 20 on. Its serialized form puts ttl at byte 8, cksum at 10 and 11, dst at 16 to 19 (R127). -/
def stdSerializeIpv4 (d : Datagram) : List Byte :=
  d.rest.take 8 ++ [d.ttl] ++ (d.rest.drop 8).take 1 ++ bytes16 d.cksum ++ (d.rest.drop 9).take 4 ++
    bytes32 d.dst ++ d.rest.drop 13

/-- The Internet checksum of the header with the checksum field taken as zero (R127). -/
def stdComputeChecksum (d : Datagram) : U16 :=
  let bytes := stdSerializeIpv4 { d with cksum := 0#16 }
  ~~~ fold16 (sum16 (bytes.take (ipv4HeaderLength (bytes.headD 0#8))))

/-- A standard IPv4 parser: it rejects a buffer shorter than its header, a version other than 4, and a header
whose checksum does not verify (R127). R127 does not say by which test a checksum verifies: here it does when the field equals
the recomputed checksum, so that a field of 0xFFFF over words that sum to 0xFFFF is rejected, though all words together sum to
0xFFFF as well (DESIGN CHOICE, notes/assumptions/17.md). -/
def stdParseIpv4 (bs : List Byte) : Option Datagram :=
  match bs with
  | b0 :: b1 :: b2 :: b3 :: b4 :: b5 :: b6 :: b7 :: ttl :: proto :: c0 :: c1 :: s0 :: s1 :: s2 :: s3 ::
      d0 :: d1 :: d2 :: d3 :: rest =>
    let d : Datagram :=
      { ttl := ttl, dst := word32 d0 d1 d2 d3, cksum := word16 c0 c1,
        rest := [b0, b1, b2, b3, b4, b5, b6, b7, proto, s0, s1, s2, s3] ++ rest }
    if b0.extractLsb' 4 4 = 4#4 ∧ 5 ≤ (b0.extractLsb' 0 4).toNat ∧ ipv4HeaderLength b0 ≤ bs.length ∧
        stdComputeChecksum d = d.cksum then some d
    else none
  | _ => none

/-- The four fixed leading fields of an ARP message: hardware type 1, protocol type 0x0800, sizes 6 and 4
(R126). -/
def arpLead : List Byte := [0x00#8, 0x01#8, 0x08#8, 0x00#8, 0x06#8, 0x04#8]

/-- The standard 28-byte ARP layout (R126). -/
def stdSerializeArp (m : ArpMessage) : List Byte :=
  arpLead ++ bytes16 m.opcode ++ bytes48 m.senderEth ++ bytes32 m.senderIp ++ bytes48 m.targetEth ++
    bytes32 m.targetIp

/-- A standard ARP parser: it rejects a message whose first four fields differ from `arpLead` or that is shorter
than 28 bytes (R126); bytes after the 28th are ignored (PRESUMED, notes/assumptions/4.md). -/
def stdParseArp (bs : List Byte) : Option ArpMessage :=
  match bs with
  | l0 :: l1 :: l2 :: l3 :: l4 :: l5 :: o0 :: o1 :: a0 :: a1 :: a2 :: a3 :: a4 :: a5 :: i0 :: i1 :: i2 ::
      i3 :: t0 :: t1 :: t2 :: t3 :: t4 :: t5 :: j0 :: j1 :: j2 :: j3 :: _ =>
    if [l0, l1, l2, l3, l4, l5] = arpLead then
      some { opcode := word16 o0 o1, senderEth := word48 a0 a1 a2 a3 a4 a5,
             senderIp := word32 i0 i1 i2 i3, targetEth := word48 t0 t1 t2 t3 t4 t5,
             targetIp := word32 j0 j1 j2 j3 }
    else none
  | _ => none

/-! The collaborators the block calls (R17), as its configuration selects them. -/

/-- `parse_ipv4`. -/
def parseIpv4 : Config.Codec → List Byte → Option Datagram
  | .external, bs => Config.parseIpv4 bs
  | .standard, bs => stdParseIpv4 bs

/-- `serialize_ipv4`. -/
def serializeIpv4 : Config.Codec → Datagram → List Byte
  | .external, d => Config.serializeIpv4 d
  | .standard, d => stdSerializeIpv4 d

/-- `parse_arp`. -/
def parseArp : Config.Codec → List Byte → Option ArpMessage
  | .external, bs => Config.parseArp bs
  | .standard, bs => stdParseArp bs

/-- `serialize_arp`. -/
def serializeArp : Config.Codec → ArpMessage → List Byte
  | .external, m => Config.serializeArp m
  | .standard, m => stdSerializeArp m

/-- `compute_checksum`. -/
def computeChecksum : Config.Codec → Datagram → U16
  | .external, d => Config.computeChecksum d
  | .standard, d => stdComputeChecksum d

end Sys2Proof.Machine
end

