-- ==== Sys2Proof/Machine/NetIf.lean ====
section
/-! DEFINITION. The NetworkInterface: ARP table and address resolution (spec/45_network_interface.md). -/

namespace Sys2Proof.Machine

/-- `Ipv4Frame(ni, dst_eth, dbytes)` (R270). -/
def ipv4Frame (ni : NetIf) (dst : EthAddr) (dbytes : List Byte) : Frame :=
  { dst := dst, src := ni.eth, etype := Config.ethertypeIpv4, payload := dbytes }

/-- `Parked(ni, dbytes)` (R270). -/
def parkedFrame (ni : NetIf) (dbytes : List Byte) : Parked :=
  { src := ni.eth, etype := Config.ethertypeIpv4, payload := dbytes }

/-- A parked frame with its destination stamped (R272). -/
def Parked.stamp (p : Parked) (dst : EthAddr) : Frame :=
  { dst := dst, src := p.src, etype := p.etype, payload := p.payload }

/-- `ArpFrame(ni, dst_eth, msg)` (R270). -/
def arpFrame (c : Config.Codec) (ni : NetIf) (dst : EthAddr) (m : ArpMessage) : Frame :=
  { dst := dst, src := ni.eth, etype := Config.ethertypeArp, payload := serializeArp c m }

/-- The ARP request for `ip` (R275). -/
def arpRequestFor (c : Config.Codec) (ni : NetIf) (ip : U32) : Frame :=
  arpFrame c ni Config.ethBroadcast
    { opcode := Config.arpRequest, senderEth := ni.eth, senderIp := ni.ip, targetEth := 0#48,
      targetIp := ip }

/-- The ARP reply to a request (R276). -/
def arpReplyTo (c : Config.Codec) (ni : NetIf) (req : ArpMessage) : Frame :=
  arpFrame c ni req.senderEth
    { opcode := Config.arpReply, senderEth := ni.eth, senderIp := ni.ip, targetEth := req.senderEth,
      targetIp := req.senderIp }

/-- `pending[ip]`, empty when the key is absent (R58). -/
def NetIf.parkedFor (ni : NetIf) (ip : U32) : List Parked := (Table.read ni.pending ip.toNat).getD []

/-- Append a frame to `out_queue` (R59). -/
def NetIf.enqueue (ni : NetIf) (f : Frame) : NetIf := { ni with outQueue := ni.outQueue ++ [f] }

/-- `NiSend(i, dbytes, ip)` on one interface (R271): frame at once on a cache hit; else park, and request the address
unless a request is in its cool-down. -/
def NetIf.send (c : Config.Codec) (ni : NetIf) (dbytes : List Byte) (ip : U32) : NetIf :=
  match Table.read ni.arpCache ip.toNat with
  | some e => ni.enqueue (ipv4Frame ni e.eth dbytes)
  | none =>
    let parked :=
      { ni with pending := Table.write ni.pending ip.toNat (ni.parkedFor ip ++ [parkedFrame ni dbytes]) }
    if Table.has ni.arpInflight ip.toNat then parked
    else
      { parked.enqueue (arpRequestFor c ni ip) with
        arpInflight := Table.write ni.arpInflight ip.toNat 0#64 }

/-- Learn the sender's mapping and release the frames parked for it, oldest first (R272). -/
def NetIf.learn (ni : NetIf) (m : ArpMessage) : NetIf :=
  { ni with
    arpCache := Table.write ni.arpCache m.senderIp.toNat { eth := m.senderEth, age := 0#64 }
    outQueue := ni.outQueue ++ (ni.parkedFor m.senderIp).map (fun p => p.stamp m.senderEth)
    pending := Table.remove ni.pending m.senderIp.toNat }

/-- Answer a request for the interface's own address (R272, R276). -/
def NetIf.answer (c : Config.Codec) (ni : NetIf) (m : ArpMessage) : NetIf :=
  if m.opcode = Config.arpRequest ∧ m.targetIp = ni.ip then ni.enqueue (arpReplyTo c ni m) else ni

/-- A frame received on one interface (R272): the interface afterwards, and the datagram it returns to the host. -/
def NetIf.receive (c : Config.Codec) (ni : NetIf) (fbytes : List Byte) (toRouter : Bool) :
    NetIf × Option Datagram :=
  match parseFrame fbytes with
  | none => drop .niMalformed (ni, none)
  | some f =>
    if f.dst ≠ ni.eth ∧ f.dst ≠ Config.ethBroadcast then drop .niNotForUs (ni, none)
    else if f.etype = Config.ethertypeIpv4 then
      match parseIpv4 c f.payload with
      | none => drop .niMalformed (ni, none)
      | some d =>
        if toRouter then ({ ni with rxQueue := ni.rxQueue ++ [d] }, none) else (ni, some d)
    else if f.etype = Config.ethertypeArp then
      match parseArp c f.payload with
      | none => drop .niMalformed (ni, none)
      | some m => ((ni.learn m).answer c m, none)
    else drop .niEthertype (ni, none)

/-- One ARP cache entry `Δ` milliseconds later (R273). -/
def ArpEntry.aged (e : ArpEntry) (delta : U64) : ArpEntry := { e with age := addTime e.age delta }

/-- The entry is past its time to live once `Δ` has been added: strictly more than 30000 ms (R273, D26). -/
def ArpEntry.expires (e : ArpEntry) (delta : U64) : Bool :=
  decide (Config.arpCacheTtl < (e.aged delta).age.toNat)

/-- The request is past its cool-down once `Δ` has been added: strictly more than 5000 ms (R273, D26). -/
def cooledDown (age delta : U64) : Bool := decide (Config.arpRequestTtl < (addTime age delta).toNat)

/-- The addresses whose cache entry is evicted by a tick of `Δ` (R273). -/
def NetIf.evicted (ni : NetIf) (delta : U64) : List Nat :=
  (ni.arpCache.filter (fun c => c.2.expires delta)).map (·.1)

/-- One interface `Δ` milliseconds later (R273): entries age and those over age leave; an evicted cache entry takes
its `pending` list with it. -/
def NetIf.tick (ni : NetIf) (delta : U64) : NetIf :=
  { ni with
    arpCache := (ni.arpCache.filter (fun c => !c.2.expires delta)).map (fun c => (c.1, c.2.aged delta))
    pending := drop .niEvictPending (ni.pending.filter (fun c => !(ni.evicted delta).contains c.1))
    arpInflight :=
      (ni.arpInflight.filter (fun c => !cooledDown c.2 delta)).map (fun c => (c.1, addTime c.2 delta)) }

/-- `NI.SEND_DGRAM i, next_hop, dbytes` (R271). -/
def execNiSendDgram (iface nextHop : U32) (dgram : List Byte) (s : State) : Result :=
  match s.ni[iface.toNat]? with
  | none => .refused .noSuchInterface
  | some ni =>
    .next ((s.setIf iface.toNat (ni.send s.params.codec dgram nextHop)).respond
      (Response.bare .niSendDgram))

/-- `NI.RECV_FRAME i, fbytes, q` (R272). -/
def execNiRecvFrame (iface : U32) (frame : List Byte) (toRouter : Bool) (s : State) : Result :=
  match s.ni[iface.toNat]? with
  | none => .refused .noSuchInterface
  | some ni =>
    .next ((s.setIf iface.toNat (ni.receive s.params.codec frame toRouter).1).respond
      (Response.optBytes .niRecvFrame
        ((ni.receive s.params.codec frame toRouter).2.map (serializeIpv4 s.params.codec))))

/-- `NI.TICK i, Δ` (R273). -/
def execNiTick (iface : U32) (delta : U64) (s : State) : Result :=
  match s.ni[iface.toNat]? with
  | none => .refused .noSuchInterface
  | some ni =>
    .next ((s.setIf iface.toNat (ni.tick delta)).respond (Response.bare .niTick))

/-- `NI.MAYBE_SEND i` (R274). -/
def execNiMaybeSend (iface : U32) (s : State) : Result :=
  match s.ni[iface.toNat]? with
  | none => .refused .noSuchInterface
  | some ni =>
    .next ((s.setIf iface.toNat { ni with outQueue := ni.outQueue.tail }).respond
      (Response.optBytes .niMaybeSend (ni.outQueue.head?.map serializeFrame)))

end Sys2Proof.Machine
end

