-- ==== Sys2Proof/Machine/Router.lean ====
section
/-! DEFINITION. The Router: longest-prefix match and forwarding (spec/46_router.md). -/

namespace Sys2Proof.Machine

/-- `mask(len) = (0xFFFFFFFF << (32 − len)) mod 2^32` (R313), for `1 ≤ len ≤ 32`. -/
def prefixMask (len : Nat) : U32 := 0xFFFFFFFF#32 <<< (32 - len)

/-- `matches(r, dst)` (R313): a zero-length prefix matches everything; otherwise the masked destination must equal
the prefix as stored. -/
def routeMatches (r : RouteInfo) (dst : U32) : Bool :=
  r.prefixLen.val == 0 || (dst &&& prefixMask r.prefixLen.val) == r.pfx

/-- `r` inserted after the last entry whose `prefix_len` is at least its own, at the front when there is none
(R310). -/
def insertRoute (r : RouteInfo) : List RouteInfo → List RouteInfo
  | [] => [r]
  | x :: xs =>
    if (x :: xs).any (fun y => decide (r.prefixLen ≤ y.prefixLen)) then x :: insertRoute r xs
    else r :: x :: xs

/-- The first entry of the route list that matches, in list order (R312). -/
def lookupRoute (routes : List RouteInfo) (dst : U32) : Option RouteInfo :=
  routes.find? (fun r => routeMatches r dst)

/-- The datagram as forwarded: ttl one less and the checksum over the header with the new ttl (R312). -/
def forwarded (c : Config.Codec) (d : Datagram) : Datagram :=
  { d with ttl := d.ttl - 1#8, cksum := computeChecksum c { d with ttl := d.ttl - 1#8 } }

/-- `NiSend` on interface `i` of a list of interfaces (R271); an index outside the list, which no route of a reachable
state has, changes nothing. -/
def niSend (c : Config.Codec) (ni : List NetIf) (i : Nat) (dbytes : List Byte) (ip : U32) : List NetIf :=
  ni.modify i (fun n => n.send c dbytes ip)

/-- One drained datagram (R312): dropped when no route matches or its ttl is at most 1, else sent by the chosen
interface to the route's next hop or to its own destination. -/
def routeOne (c : Config.Codec) (routes : List RouteInfo) (ni : List NetIf) (d : Datagram) : List NetIf :=
  match lookupRoute routes d.dst with
  | none => drop .rtNoRoute ni
  | some r =>
    if d.ttl.toNat ≤ 1 then drop .rtTtl ni
    else niSend c ni r.ifaceIdx (serializeIpv4 c (forwarded c d)) (r.nextHop.getD d.dst)

/-- Drain the `rx_queue` of interface `i`, in arrival order (R312). Sending adds nothing to any `rx_queue`, so the
queue can be emptied first. -/
def drainIface (c : Config.Codec) (routes : List RouteInfo) (ni : List NetIf) (i : Nat) : List NetIf :=
  match ni[i]? with
  | none => ni
  | some n => n.rxQueue.foldl (routeOne c routes) (ni.set i { n with rxQueue := [] })

/-- Drain every interface in ascending index (R312, D28). -/
def drainAll (c : Config.Codec) (routes : List RouteInfo) (ni : List NetIf) : List NetIf :=
  (List.range ni.length).foldl (drainIface c routes) ni

/-- `RT.ADD_ROUTE prefix, prefix_len, next_hop, iface_idx` (R310). -/
def execRtAddRoute (pfx : U32) (prefixLen : Fin 33) (nextHop : Option U32) (ifaceIdx : U32) (s : State) :
    Result :=
  if ifaceIdx.toNat < s.ni.length then
    .next ((s.setRoutes (insertRoute
      { pfx := pfx, prefixLen := prefixLen, nextHop := nextHop, ifaceIdx := ifaceIdx.toNat }
      s.rt.routes)).respond (Response.bare .rtAddRoute))
  else .refused .noSuchInterface

/-- `RT.ROUTE` (R312). -/
def execRtRoute (s : State) : Result :=
  .next ((s.setNi (drainAll s.params.codec s.rt.routes s.ni)).respond (Response.bare .rtRoute))

end Sys2Proof.Machine
end

