-- ==== Sys2Proof/Machine/Sender.lean ====
section
/-! DEFINITION. The TCPSender, the retransmission state machine (spec/44_tcp_sender.md). Its byte source is the
Reader view of OBS. -/

namespace Sys2Proof.Machine

/-- `seqlen(seg)`: the sequence space a segment occupies (R11, R123). -/
def seqlen (g : Segment) : Nat :=
  (if g.syn then 1 else 0) + g.payload.length + (if g.fin then 1 else 0)

/-- `inflight`: the sum of `seqlen` over `outstanding` (R230). -/
def inflight (t : Sender) : Nat := (t.outstanding.map (fun e => seqlen e.seg)).sum

/-- The sequence number of the next unit the sender creates: `wrap(cursor, isn)` (R45, R230). -/
def nextSeqno (t : Sender) : U32 := wrap t.cursor t.isn

/-- The effective window of TX.PUSH: a zero window counts as one; what is in flight is taken off, down to 0 (R231). -/
def effWindow (t : Sender) : Nat := (if t.win = 0#16 then 1 else t.win.toNat) - inflight t

/-- The window units left for payload once a SYN that is due has taken its own (R231). -/
def roomForPayload (s : State) (eff : Nat) : Nat := if s.tx.synSent then eff else eff - 1

/-- How many bytes the next segment pulls from OBS (R231). -/
def pullCount (s : State) (eff : Nat) : Nat :=
  min (roomForPayload s eff) (min Config.maxPayloadSize s.obs.buffer.length)

/-- The segment one round of the TX.PUSH loop builds with `eff` units of window left (R231): SYN if it has not been
sent, as many bytes as fit, and FIN when the reader is finished after the pop and a unit is left. -/
def nextSegment (s : State) (eff : Nat) : Segment :=
  let n := pullCount s eff
  { seqno := nextSeqno s.tx
    syn := !s.tx.synSent
    payload := s.obs.buffer.take n
    fin := (s.obs.pop n).finished && decide (1 ≤ roomForPayload s eff - n) }

/-- The state once a round's segment has been built and queued (R231). -/
def commitSegment (s : State) (g : Segment) : State :=
  (s.setObs (s.obs.pop g.payload.length)).setTx
    { s.tx with
      synSent := s.tx.synSent || g.syn
      finSent := s.tx.finSent || g.fin
      ready := s.tx.ready ++ [g]
      outstanding := s.tx.outstanding ++ [{ abs := s.tx.cursor, seg := g }]
      cursor := s.tx.cursor + seqlen g }

/-- The TX.PUSH loop (R231) with `eff` units of window left. Every round that does not stop uses at least one unit,
so `eff` is fuel enough. -/
def pushLoop : Nat → Nat → State → State
  | 0, _, s => s
  | fuel + 1, eff, s =>
    if eff = 0 || s.tx.finSent then s
    else if seqlen (nextSegment s eff) = 0 then s
    else pushLoop fuel (eff - seqlen (nextSegment s eff)) (commitSegment s (nextSegment s eff))

/-- The state TX.PUSH reaches, before its response (R231). -/
def txPushState (s : State) : State := pushLoop (effWindow s.tx) (effWindow s.tx) s

/-- `TX.PUSH` (R231). Refused when the cursor would reach 2^64 (R157, D11). -/
def execTxPush (s : State) : Result :=
  if (txPushState s).tx.cursor < two64 then .next ((txPushState s).respond (Response.bare .txPush))
  else .refused .counterOverflow

/-- `TX.MAYBE_SEND` (R232). -/
def execTxMaybeSend (s : State) : Result :=
  .next ((s.setTx { s.tx with ready := s.tx.ready.tail }).respond
    (Response.segment .txMaybeSend s.tx.ready.head?))

/-- The acknowledgement `a` covers the whole segment (R233). -/
def covered (a : Nat) (e : InFlight) : Bool := decide (e.abs + seqlen e.seg ≤ a)

/-- Retire the segments the acknowledgement covers, oldest first, and restart the timer if any was retired (R233). -/
def retire (t : Sender) (a : Nat) : Sender :=
  let kept := t.outstanding.dropWhile (covered a)
  if kept.length < t.outstanding.length then
    { t with outstanding := kept, rtoCur := t.rto0, t := 0#64, retx := 0#64 }
  else t

/-- The sender after an AckMsg (R233): the window is stored before the acknowledgement is examined. -/
def ackSender (t : Sender) (m : AckMsg) : Sender :=
  let t1 := { t with win := m.windowSize }
  match m.ackno with
  | none => drop .txAckAbsent t1
  | some raw =>
    if t1.cursor < unwrap raw t1.isn t1.cursor then drop .txAckBeyond t1
    else retire t1 (unwrap raw t1.isn t1.cursor)

/-- `TX.RECEIVE ackno, window, has_ack` (R233). -/
def execTxReceive (ackno : Option U32) (window : U16) (s : State) : Result :=
  .next ((s.setTx (ackSender s.tx { ackno := ackno, windowSize := window })).respond
    (Response.bare .txReceive))

/-- The retransmission alarm (R234, R346): the oldest segment goes to the head of `ready`; under a non-zero stored
window the sender backs off; the timer restarts. -/
def alarm (t : Sender) (oldest : InFlight) : Sender :=
  let t1 := { t with ready := oldest.seg :: t.ready, t := 0#64 }
  if t.win = 0#16 then t1
  else { t1 with retx := sat64 (t.retx.toNat + 1), rtoCur := sat64 (2 * t.rtoCur.toNat) }

/-- The sender after `Δ` milliseconds (R234). -/
def tickSender (t : Sender) (delta : U64) : Sender :=
  let t1 := { t with t := addTime t.t delta }
  match t1.outstanding with
  | [] => t1
  | oldest :: _ => if t1.rtoCur.toNat ≤ t1.t.toNat then alarm t1 oldest else t1

/-- `TX.TICK Δ` (R234). -/
def execTxTick (delta : U64) (s : State) : Result :=
  .next ((s.setTx (tickSender s.tx delta)).respond (Response.bare .txTick))

/-- The zero-length segment of TX.SEND_EMPTY (R235). -/
def emptySegment (t : Sender) : Segment :=
  { seqno := nextSeqno t, syn := false, payload := [], fin := false }

/-- `TX.SEND_EMPTY` (R235). -/
def execTxSendEmpty (s : State) : Result :=
  .next (s.respond (Response.segment .txSendEmpty (some (emptySegment s.tx))))

/-- `TX.IN_FLIGHT` (R236). -/
def execTxInFlight (s : State) : Result :=
  .next (s.respond (Response.nat64 .txInFlight (inflight s.tx)))

/-- `TX.RETX` (R237). -/
def execTxRetx (s : State) : Result :=
  .next (s.respond (Response.nat64 .txRetx s.tx.retx.toNat))

end Sys2Proof.Machine
end

