-- ==== Sys2Proof/Machine/System.lean ====
section
/-! DEFINITION. The system unit (spec/47_system.md). -/

namespace Sys2Proof.Machine

/-- `SYS.RESET` (R330): `S <- ResetState(params, isn_draw)`. The parameters stay; the ports are not part of `S`. -/
def execSysReset (s : State) : Result :=
  .next (State.respond
    { State.resetWith s.params s.draws with cmds := s.cmds, resps := s.resps }
    (Response.bare .sysReset))

end Sys2Proof.Machine
end

