-- ==== Sys2Proof/Machine/Dispatch.lean ====
section
/-! DEFINITION. One arm per command, each a direct call of its meaning (spec/30_encoding.md R118). -/

namespace Sys2Proof.Machine

def exec (i : Instr) (s : State) : Host.Outcome State Fault Refusal :=
  match i with
  | .sysReset => Sys2Proof.Machine.execSysReset s
  | .w32Add raw k => Sys2Proof.Machine.execW32Add raw k s
  | .w32Wrap n zero => Sys2Proof.Machine.execW32Wrap n zero s
  | .w32Unwrap raw zero checkpoint => Sys2Proof.Machine.execW32Unwrap raw zero checkpoint s
  | .bsPush data => Sys2Proof.Machine.execBsPush data s
  | .bsClose => Sys2Proof.Machine.execBsClose s
  | .bsSetError sel => Sys2Proof.Machine.execBsSetError sel s
  | .bsPeek => Sys2Proof.Machine.execBsPeek s
  | .bsPop n => Sys2Proof.Machine.execBsPop n s
  | .bsAvail sel => Sys2Proof.Machine.execBsAvail sel s
  | .bsPushed sel => Sys2Proof.Machine.execBsPushed sel s
  | .bsPopped sel => Sys2Proof.Machine.execBsPopped sel s
  | .bsBuffered sel => Sys2Proof.Machine.execBsBuffered sel s
  | .bsIsClosed sel => Sys2Proof.Machine.execBsIsClosed sel s
  | .bsIsFinished sel => Sys2Proof.Machine.execBsIsFinished sel s
  | .bsHasError sel => Sys2Proof.Machine.execBsHasError sel s
  | .raInsert firstIndex data isLast => Sys2Proof.Machine.execRaInsert firstIndex data isLast s
  | .raPending => Sys2Proof.Machine.execRaPending s
  | .rxReceive seqno payload syn fin => Sys2Proof.Machine.execRxReceive seqno payload syn fin s
  | .rxSend => Sys2Proof.Machine.execRxSend s
  | .txPush => Sys2Proof.Machine.execTxPush s
  | .txMaybeSend => Sys2Proof.Machine.execTxMaybeSend s
  | .txReceive ackno window => Sys2Proof.Machine.execTxReceive ackno window s
  | .txTick delta => Sys2Proof.Machine.execTxTick delta s
  | .txSendEmpty => Sys2Proof.Machine.execTxSendEmpty s
  | .txInFlight => Sys2Proof.Machine.execTxInFlight s
  | .txRetx => Sys2Proof.Machine.execTxRetx s
  | .niSendDgram iface nextHop dgram => Sys2Proof.Machine.execNiSendDgram iface nextHop dgram s
  | .niRecvFrame iface frame toRouter => Sys2Proof.Machine.execNiRecvFrame iface frame toRouter s
  | .niTick iface delta => Sys2Proof.Machine.execNiTick iface delta s
  | .niMaybeSend iface => Sys2Proof.Machine.execNiMaybeSend iface s
  | .rtAddRoute pfx prefixLen nextHop ifaceIdx => Sys2Proof.Machine.execRtAddRoute pfx prefixLen nextHop ifaceIdx s
  | .rtRoute => Sys2Proof.Machine.execRtRoute s

end Sys2Proof.Machine
end

