-- ==== Sys2Proof/Machine/Step.lean ====
section
/-! DEFINITION. One step of the machine: one command (spec/00_scope.md R19). -/

namespace Sys2Proof.Machine

/-- Take the next descriptor, decode it, execute it (R19, R110). A descriptor that spells no command has no step
(R119). While the host presents nothing the block is idle and holds its state (R355; notes/assumptions/7.md). -/
def step (s : State) : Host.Outcome State Fault Refusal :=
  match fetch s with
  | none => .next s
  | some (d, s') =>
    match decode s.params.nIf d with
    | .error why => .refused (.badDescriptor why)
    | .ok i => exec i s'

/-- The state with the instruction whose bits are `w` presented next at the command port, where `step` fetches. -/
def State.withFetchWord (s : State) (nbits w : Nat) : State := present s nbits w

end Sys2Proof.Machine
end

