-- ==== Sys2Proof/Safety.lean ====
section
/-! DEFINITION. What a safe run keeps: the invariants spec/10_state.md gives each unit (R24, R31, R46, R49, R61,
R66), the ones its command rules imply, and the constants of R5. -/

namespace Sys2Proof.Safety

open Sys2Proof.Machine

/-- R24: `0 ≤ buffer_size = bytes_pushed − bytes_popped ≤ C`, with `bytes_pushed` below 2^64 (R81). -/
def StreamOk (b : ByteStream) : Prop :=
  b.pushed = b.popped + b.buffer.length ∧ b.buffer.length ≤ b.cap.toNat ∧ b.pushed < two64

/-- R31 (a) and (b): `pending` counts the store, the store is canonical, and every stored index lies strictly inside
the acceptance window `(U, E)` and below 2^64. -/
def StoreOk (s : State) : Prop :=
  Memory.wf s.ra.store = true ∧ s.ra.pending = s.ra.store.length ∧
    ∀ c ∈ s.ra.store, s.windowStart < c.1 ∧ c.1 < s.windowEnd ∧ c.1 < two64

/-- The entries of `outstanding` tile the sequence space without gap or overlap up to `cursor` (R46). -/
def Tiles : List InFlight → Nat → Prop
  | [], _ => True
  | e :: rest, cursor =>
    e.abs + seqlen e.seg = (match rest with | [] => cursor | e' :: _ => e'.abs) ∧ Tiles rest cursor

/-- What holds of one outstanding segment (R46, R49, R238): it occupies sequence space, carries the sequence number of
its first unit, is the SYN exactly when it starts at 0, and carries a FIN only at the end of what was sent. -/
def InFlightOk (t : Sender) (e : InFlight) : Prop :=
  0 < seqlen e.seg ∧ e.seg.payload.length ≤ Config.maxPayloadSize ∧
    e.seg.seqno = wrap e.abs t.isn ∧ (e.seg.syn = true ↔ e.abs = 0) ∧
    (e.seg.fin = true → t.finSent = true ∧ e.abs + seqlen e.seg = t.cursor)

/-- The sender's invariants (R45, R46, R49, R238). -/
def SenderOk (t : Sender) : Prop :=
  Tiles t.outstanding t.cursor ∧ (∀ e ∈ t.outstanding, InFlightOk t e) ∧ t.cursor < two64 ∧
    (t.synSent = true ↔ 0 < t.cursor) ∧ (t.finSent = true → t.synSent = true)

/-- `RTO_cur = RTO0 · 2^R`, saturated (R238, R157). -/
def RtoLaw (t : Sender) : Prop := t.rtoCur = sat64 (t.rto0.toNat * 2 ^ t.retx.toNat)

/-- The interface's invariants: tables canonical and keyed by 32-bit addresses (R84), no frame parked under a cached
address (R61), no empty queue stored (R58), no entry older than its time to live (R273). -/
def NetIfOk (n : NetIf) : Prop :=
  Table.wf n.arpCache = true ∧ Table.wf n.arpInflight = true ∧ Table.wf n.pending = true ∧
    (∀ c ∈ n.arpCache, c.1 < two32 ∧ c.2.age.toNat ≤ Config.arpCacheTtl) ∧
    (∀ c ∈ n.arpInflight, c.1 < two32 ∧ c.2.toNat ≤ Config.arpRequestTtl) ∧
    (∀ c ∈ n.pending, c.1 < two32 ∧ c.2 ≠ [] ∧ Table.has n.arpCache c.1 = false)

/-- The route list's invariants: `prefix_len` descending (R66), every interface index below `N_IF` (R128). -/
def RoutesOk (s : State) : Prop :=
  s.rt.routes.Pairwise (fun x y => y.prefixLen ≤ x.prefixLen) ∧ ∀ r ∈ s.rt.routes, r.ifaceIdx < s.ni.length

/-- The constants of a run are the parameters sampled at reset (R5, R23, R40, R55). -/
def ConstantsOk (s : State) : Prop :=
  s.ibs.cap = s.params.cIn ∧ s.obs.cap = s.params.cOut ∧ s.tx.rto0 = s.params.rto0 ∧
    (∀ v, s.params.isnFixed = some v → s.tx.isn = v) ∧
    s.ni.map (fun n => (n.eth, n.ip)) = s.params.ifaces

/-- The inbound side: stream and store together (R24, R31). -/
def InboundOk (s : State) : Prop := StreamOk s.ibs ∧ StoreOk s

/-- The outbound side: stream, sender and timer law together (R24, R46, R49, R238). -/
def OutboundOk (s : State) : Prop := StreamOk s.obs ∧ SenderOk s.tx ∧ RtoLaw s.tx

/-- The link side: every interface, and the route list (R61, R66). -/
def LinkOk (s : State) : Prop := (∀ n ∈ s.ni, NetIfOk n) ∧ RoutesOk s

/-- Everything that holds between commands in a reachable state. -/
def Inv (s : State) : Prop := InboundOk s ∧ OutboundOk s ∧ LinkOk s ∧ ConstantsOk s

/-! What the statements are written in. -/

/-- `s` with one more response given and nothing else changed. -/
def answered (s : State) (response : List Byte) : State := { s with resps := s.resps ++ [response] }

/-- `J`, the number of result words of a command (R116). -/
def resultWords : Op → Nat
  | .w32Add | .w32Wrap | .txMaybeSend | .txSendEmpty => 1
  | .w32Unwrap | .bsAvail | .bsPushed | .bsPopped | .bsBuffered | .raPending | .txInFlight | .txRetx
  | .rxSend => 2
  | .sysReset | .bsPush | .bsClose | .bsSetError | .bsPeek | .bsPop | .bsIsClosed | .bsIsFinished
  | .bsHasError | .raInsert | .rxReceive | .txPush | .txReceive | .txTick | .niSendDgram | .niRecvFrame
  | .niTick | .niMaybeSend | .rtAddRoute | .rtRoute => 0

/-- The RFLAGS bits a command defines (R116). -/
def resultFlags : Op → Byte
  | .bsIsClosed | .bsIsFinished | .bsHasError | .rxSend | .niRecvFrame | .niMaybeSend => 1#8
  | .txMaybeSend | .txSendEmpty => 7#8
  | .sysReset | .w32Add | .w32Wrap | .w32Unwrap | .bsPush | .bsClose | .bsSetError | .bsPeek | .bsPop
  | .bsAvail | .bsPushed | .bsPopped | .bsBuffered | .raInsert | .raPending | .rxReceive | .txPush
  | .txReceive | .txTick | .txInFlight | .txRetx | .niSendDgram | .niTick | .rtAddRoute | .rtRoute => 0#8

/-- What R112 and R114 ask of the operand words `w` of a command with FLAGS `f`. -/
def OperandsOk (nIf : Nat) (o : Op) (f : Byte) (w : Nat → U32) : Prop :=
  match o with
  | .txReceive => (w 1).toNat < 65536 ∧ (f.getLsbD 0 = false → w 0 = 0#32)
  | .rtAddRoute => (w 1).toNat ≤ 32 ∧ (f.getLsbD 0 = false → w 2 = 0#32) ∧ (w 3).toNat < nIf
  | .niSendDgram | .niRecvFrame | .niTick | .niMaybeSend => (w 0).toNat < nIf
  | _ => True

/-- The FLAGS bits a command defines (R118), the stream select S of the BS commands included (R117). -/
def definedFlags : Op → Byte
  | .bsPush | .bsClose | .bsSetError | .bsPeek | .bsPop | .bsAvail | .bsPushed | .bsPopped | .bsBuffered
  | .bsIsClosed | .bsIsFinished | .bsHasError | .raInsert | .txReceive | .niRecvFrame | .rtAddRoute => 1#8
  | .rxReceive => 3#8
  | .sysReset | .w32Add | .w32Wrap | .w32Unwrap | .raPending | .rxSend | .txPush | .txMaybeSend | .txTick
  | .txSendEmpty | .txInFlight | .txRetx | .niSendDgram | .niTick | .niMaybeSend | .rtRoute => 0#8

/-- The stream select names a stream the command exists for (R119, R350): BS.PUSH and BS.CLOSE have OBS only, BS.PEEK
and BS.POP have IBS only. -/
def StreamRight (o : Op) (flags : Byte) : Prop :=
  (o ∈ [Op.bsPush, .bsClose] → flags.getLsbD 0 = true) ∧ (o ∈ [Op.bsPeek, .bsPop] → flags.getLsbD 0 = false)

/-- A header whose FLAGS and LEN the command allows (R111, R118, R119). -/
def HeaderRight (o : Op) (flags : Byte) (len : Nat) : Prop :=
  StreamRight o flags ∧ flags &&& ~~~ definedFlags o = 0#8 ∧
    (o ∉ [Op.bsPush, .raInsert, .rxReceive, .niSendDgram, .niRecvFrame] → len = 0)

/-- A well-formed descriptor (R114): a header that selects a row, exactly `K` operand words and `LEN` payload bytes,
and operands as R112 and R114 ask. -/
def WellFormedDescriptor (nIf : Nat) (d : List Byte) : Prop :=
  ∃ (b0 b1 b2 b3 : Byte) (rest : List Byte) (o : Op),
    d = b0 :: b1 :: b2 :: b3 :: rest ∧
    word32 b0 b1 b2 b3 &&& o.row.mask = o.row.word ∧
    d.length = 4 + 4 * o.row.operandWords + (word16 b2 b3).toNat ∧
    OperandsOk nIf o b1 (fun k => (wordsOf o.row.operandWords rest).getD k 0#32)

/-- The sequence units TX.PUSH still has to send: the SYN until it is sent, the bytes OBS buffers, and the FIN once OBS is
closed (R231). -/
def unitsDue (s : State) : Nat :=
  (if s.tx.synSent then 0 else 1) + s.obs.buffer.length + (if s.obs.closed then 1 else 0)

/-- Room in every 64-bit counter for whatever one command can add (R81, R157). -/
def CounterRoom (s : State) : Prop :=
  s.ibs.popped + s.ibs.cap.toNat < two64 ∧ s.obs.pushed + 65535 < two64 ∧ s.tx.cursor + 65535 < two64

/-- The bytes of `data` are those of the stream `x` from index `i` on. -/
def CarriesAt (x : Nat → Byte) (i : Nat) (data : List Byte) : Prop := ∀ k (h : k < data.length), data[k] = x (i + k)

/-- Every byte the inbound side holds is the byte the stream `x` has at its index (R31 (d), R198). -/
def HoldsStream (x : Nat → Byte) (s : State) : Prop :=
  CarriesAt x s.ibs.popped s.ibs.buffer ∧ ∀ i b, Memory.read s.ra.store i = some b → b = x i

/-- A fragment or segment that `i` would insert in state `s` agrees with the stream `x` (R198). -/
def InsertsStream (x : Nat → Byte) (s : State) : Instr → Prop
  | .raInsert firstIndex data _ => CarriesAt x firstIndex.toNat data
  | .rxReceive seqno payload syn _ =>
    ∀ idx, rxIndex (rxMark s seqno syn) seqno syn = some idx → CarriesAt x idx payload
  | _ => True

/-- Segment `g`, numbered from absolute `a`, carries the stream `x`: absolute 0 is the SYN and absolute `k + 1` is byte
`k` (R238). -/
def SegmentCarries (x : Nat → Byte) (isn : U32) (a : Nat) (g : Segment) : Prop :=
  g.seqno = wrap a isn ∧ (g.syn = true ↔ a = 0) ∧ CarriesAt x (if g.syn then 0 else a - 1) g.payload

/-- The outbound side carries the stream `x` (R238): what OBS holds, what is outstanding and what is queued to be sent,
with the cursor counting SYN, popped bytes and FIN. -/
def SendsStream (x : Nat → Byte) (s : State) : Prop :=
  CarriesAt x s.obs.popped s.obs.buffer ∧
    s.tx.cursor = (if s.tx.synSent then 1 else 0) + s.obs.popped + (if s.tx.finSent then 1 else 0) ∧
    (∀ e ∈ s.tx.outstanding, SegmentCarries x s.tx.isn e.abs e.seg) ∧
    ∀ g ∈ s.tx.ready, ∃ a, SegmentCarries x s.tx.isn a g

end Sys2Proof.Safety
end

