-- ==== Sys2Proof/Certificates/Slice0/Obligations.lean ====
section
/-! DEFINITION. The statements about the block, for the provers. Each formalises rules of spec/, named in its
docstring; where a clause rests on a choice of the model, the docstring names the log entry. -/

section

open Sys2Proof Sys2Proof.Machine Sys2Proof.Safety

/-! Reset and the invariants of a reachable state -/

/-- R75, R380: what reset leaves, for any parameters and any draw. `last_index` and `zero` are unspecified and not
mentioned. -/
def Obligations.ResetValues : Prop :=
  ∀ (p : Config.Params) (draws : Nat),
    let s := State.resetWith p draws
    s.ibs = { cap := p.cIn, buffer := [], pushed := 0, popped := 0, closed := false, error := false } ∧
    s.obs = { cap := p.cOut, buffer := [], pushed := 0, popped := 0, closed := false, error := false } ∧
    s.ra.store = [] ∧ s.ra.pending = 0 ∧ s.ra.lastSeen = false ∧ s.rx.isnReceived = false ∧
    s.tx = { isn := (match p.isnFixed with
                     | some v => v
                     | none => Config.isnDraw draws)
             rto0 := p.rto0, rtoCur := p.rto0, t := 0#64, retx := 0#64, synSent := false, finSent := false,
             cursor := 0, outstanding := [], win := 1#16, ready := [] } ∧
    s.ni = p.ifaces.map (fun a =>
      { eth := a.1, ip := a.2, arpCache := [], arpInflight := [], pending := [], outQueue := [], rxQueue := [] }) ∧
    s.rt.routes = []

/-- R330: SYS.RESET puts every field of the state at its reset value, keeps the parameters and answers the bare header.
The ports are not part of the state (notes/assumptions/7.md, 8.md). -/
def Obligations.SysResetResult : Prop :=
  ∀ s : State,
    exec .sysReset s =
      .next { State.resetWith s.params s.draws with
                cmds := s.cmds
                resps := s.resps ++ [[0x00#8, 0x00#8, 0x00#8, 0x00#8]] }

/-- The invariants hold after reset, for any parameters and any draw. -/
def Obligations.ResetMeetsInvariants : Prop :=
  Inv State.reset ∧ ∀ (p : Config.Params) (draws : Nat), Inv (State.resetWith p draws)

/-- R24, R31: every step keeps the inbound stream's and the fragment store's invariants. -/
def Obligations.StepKeepsInbound : Prop :=
  ∀ s t : State, InboundOk s → step s = .next t → InboundOk t

/-- R24, R45, R46, R49, R238: every step keeps the outbound stream's and the sender's invariants and the law
`RTO_cur = RTO0 · 2^R`. -/
def Obligations.StepKeepsOutbound : Prop :=
  ∀ s t : State, OutboundOk s → step s = .next t → OutboundOk t

/-- R58, R61, R66, R84, R273: every step keeps the invariants of the ARP tables and of the route list. -/
def Obligations.StepKeepsLink : Prop :=
  ∀ s t : State, LinkOk s → step s = .next t → LinkOk t

/-- R5, R71: every step keeps the constants of a run equal to the parameters sampled at reset. -/
def Obligations.StepKeepsConstants : Prop :=
  ∀ s t : State, ConstantsOk s → step s = .next t → ConstantsOk t ∧ t.params = s.params

/-- R14, R342 and the last line of spec/93 part 1: in a state that meets the invariants, with room in the counters (the
premise is D11: beyond it is outside the spec), every well-formed command has a next state, which meets the invariants
again. -/
def Obligations.EveryCommandCompletes : Prop :=
  ∀ (s : State) (i : Instr), Inv s → CounterRoom s → i.wellFormed s.params.nIf = true →
    ∃ t, exec i s = .next t ∧ Inv t

/-! Fetching and decoding -/

/-- R19, R110, R119, R355: a step takes the descriptor presented next whole and runs the command it spells; one that spells
no command is refused; with nothing presented the block holds its state (the idle step is the model's,
notes/assumptions/7.md). -/
def Obligations.StepRunsDecoded : Prop :=
  (∀ (s : State) (d : List Byte) (rest : List (List Byte)) (i : Instr),
    s.cmds = d :: rest → decode s.params.nIf d = .ok i → step s = exec i { s with cmds := rest }) ∧
  (∀ (s : State) (d : List Byte) (rest : List (List Byte)) (why : IllFormed),
    s.cmds = d :: rest → decode s.params.nIf d = .error why → step s = .refused (.badDescriptor why)) ∧
  ∀ s : State, s.cmds = [] → step s = .next s

/-- R110 to R114, R118: decoding the descriptor of a well-formed command gives the command back, with every operand at
every value its encoding admits. -/
def Obligations.DecodeEncode : Prop :=
  ∀ (nIf : Nat) (i : Instr), i.wellFormed nIf = true → decode nIf (encode i) = .ok i

/-- R110 to R114, R118, R119: whatever decodes is the descriptor of a well-formed command, bit for bit. -/
def Obligations.EncodeDecode : Prop :=
  ∀ (nIf : Nat) (d : List Byte) (i : Instr), decode nIf d = .ok i → i.wellFormed nIf = true ∧ encode i = d

/-- R114: exactly the well-formed descriptors are commands. -/
def Obligations.DecodesExactlyWellFormed : Prop :=
  ∀ (nIf : Nat) (d : List Byte), WellFormedDescriptor nIf d ↔ ∃ i, decode nIf d = .ok i

/-- R119 says which descriptors spell no command, and no more than that the decoder answers "invalid". The names, and which of
several reasons is the one named, are the model's (notes/assumptions/9.md): the first that applies of a truncated header, a
reserved UNIT, a FUNC its unit does not define, a stream the command does not exist for, an undefined FLAGS bit, a payload on
a command without one, a length that is not `4 + 4·K + LEN`, and then what is wrong with an operand word. -/
def Obligations.ReservedRefusedByName : Prop :=
  ∀ (nIf : Nat) (b0 b1 b2 b3 : Byte) (rest : List Byte),
    let answer := decode nIf (b0 :: b1 :: b2 :: b3 :: rest)
    let len := b2.toNat * 256 + b3.toNat
    (∀ d : List Byte, d.length < 4 → decode nIf d = .error .truncatedHeader) ∧
    (0x80 ≤ b0.toNat → answer = .error .reservedUnit) ∧
    (b0.toNat < 0x80 → [1, 3, 12, 2, 2, 7, 4, 2].getD (b0.toNat / 16) 0 ≤ b0.toNat % 16 →
      answer = .error .reservedFunc) ∧
    ∀ o : Op, b0 = o.code →
      (¬ StreamRight o b1 → answer = .error .wrongStream) ∧
      (StreamRight o b1 → b1 &&& ~~~ definedFlags o ≠ 0#8 → answer = .error .reservedFlags) ∧
      (StreamRight o b1 → b1 &&& ~~~ definedFlags o = 0#8 →
        o ∉ [Op.bsPush, .raInsert, .rxReceive, .niSendDgram, .niRecvFrame] → len ≠ 0 → answer = .error .nonzeroLen) ∧
      (HeaderRight o b1 len → rest.length ≠ 4 * o.row.operandWords + len → answer = .error .wrongLength) ∧
      (HeaderRight o b1 len → rest.length = 4 * o.row.operandWords + len →
        let w := fun (k : Nat) => (wordsOf o.row.operandWords rest).getD k 0#32
        let absent := b1.getLsbD 0 = false
        (o = .txReceive → absent → w 0 ≠ 0#32 → answer = .error .absentOperand) ∧
        (o = .txReceive → (absent → w 0 = 0#32) → 65536 ≤ (w 1).toNat → answer = .error .windowHighBits) ∧
        (o = .rtAddRoute → 32 < (w 1).toNat → answer = .error .prefixLenRange) ∧
        (o = .rtAddRoute → (w 1).toNat ≤ 32 → absent → w 2 ≠ 0#32 → answer = .error .absentOperand) ∧
        (o = .rtAddRoute → (w 1).toNat ≤ 32 → (absent → w 2 = 0#32) → nIf ≤ (w 3).toNat →
          answer = .error .noSuchInterface) ∧
        (o ∈ [Op.niSendDgram, .niRecvFrame, .niTick, .niMaybeSend] → nIf ≤ (w 0).toNat →
          answer = .error .noSuchInterface))

/-- R118, R122: descriptors written out byte by byte from the table decode to the commands they stand for. -/
def Obligations.WrittenOutDescriptorsDecode : Prop :=
  decode 2 [0x30#8, 0x01#8, 0x00#8, 0x02#8, 0#8, 0#8, 0#8, 0#8, 0#8, 0#8, 0#8, 2#8, 0x63#8, 0x64#8] =
    .ok (.raInsert 2#64 [0x63#8, 0x64#8] true) ∧
  decode 2 [0x20#8, 0x01#8, 0x00#8, 0x01#8, 0x7A#8] = .ok (.bsPush [0x7A#8]) ∧
  decode 2 [0x52#8, 0x01#8, 0x00#8, 0x00#8, 0#8, 0#8, 0#8, 7#8, 0#8, 0#8, 0x01#8, 0x00#8] =
    .ok (.txReceive (some 7#32) 256#16) ∧
  decode 2 [0x40#8, 0x03#8, 0x00#8, 0x01#8, 0xDE#8, 0xAD#8, 0xBE#8, 0xEF#8, 0x11#8] =
    .ok (.rxReceive 0xDEADBEEF#32 [0x11#8] true true) ∧
  decode 2 [0x70#8, 0x00#8, 0x00#8, 0x00#8, 10#8, 0#8, 0#8, 0#8, 0#8, 0#8, 0#8, 8#8, 0#8, 0#8, 0#8, 0#8, 0#8, 0#8, 0#8,
    1#8] = .ok (.rtAddRoute 0x0A000000#32 8 none 1#32)

/-! Responses -/

/-- R115, R116: every command that completes gives exactly one response, after those given before; its header repeats UNIT
and FUNC, its undefined RFLAGS bits are 0, it has the command's `J` result words, and RLEN counts the payload bytes that
follow, whenever 16 bits can (notes/assumptions/5.md says what happens beyond). -/
def Obligations.OneResponsePerCommand : Prop :=
  ∀ (i : Instr) (s t : State), exec i s = .next t →
    ∃ (flags : Byte) (rlen : U16) (words : List U32) (payload : List Byte),
      t.resps = s.resps ++ [[i.op.code, flags, rlen.extractLsb' 8 8, rlen.extractLsb' 0 8] ++ words.flatMap bytes32 ++ payload] ∧
      flags &&& ~~~ resultFlags i.op = 0#8 ∧
      words.length = resultWords i.op ∧
      (payload.length < 65536 → rlen.toNat = payload.length)

/-! Wrap32 -/

/-- R154: `(raw + k) mod 2^32` is the result, and nothing else changes. -/
def Obligations.W32AddResult : Prop :=
  ∀ (raw k : U32) (s : State),
    exec (.w32Add raw k) s =
      .next (answered s ([0x10#8, 0#8, 0#8, 0#8] ++ bytes32 (BitVec.ofNat 32 ((raw.toNat + k.toNat) % 2 ^ 32))))

/-- R155: `(zero + n) mod 2^32` is the result, and nothing else changes. -/
def Obligations.W32WrapResult : Prop :=
  ∀ (n : U64) (zero : U32) (s : State),
    exec (.w32Wrap n zero) s =
      .next (answered s ([0x11#8, 0#8, 0#8, 0#8] ++ bytes32 (BitVec.ofNat 32 ((zero.toNat + n.toNat) % 2 ^ 32))))

/-- R153, R156: the result is the number below 2^64, congruent to `raw − zero` modulo 2^32, that is nearest to the
checkpoint, the lower of two at the same distance; nothing else changes. -/
def Obligations.W32UnwrapNearest : Prop :=
  ∀ (raw zero : U32) (checkpoint : U64) (s : State),
    ∃ v : U64,
      exec (.w32Unwrap raw zero checkpoint) s =
        .next (answered s ([0x12#8, 0#8, 0#8, 0#8] ++ bytes32 (v.extractLsb' 32 32) ++ bytes32 (v.extractLsb' 0 32))) ∧
      v.toNat % 2 ^ 32 = (raw - zero).toNat ∧
      ∀ u : Nat, u < 2 ^ 64 → u % 2 ^ 32 = (raw - zero).toNat →
        absDiff v.toNat checkpoint.toNat < absDiff u checkpoint.toNat ∨
        absDiff v.toNat checkpoint.toNat = absDiff u checkpoint.toNat ∧ v.toNat ≤ u

/-- R153, the consequences it states: unwrapping what was wrapped gives the number back within 2^31 of the checkpoint; at
2^31 below it as well; at 2^31 above it the result is 2^32 lower when there is such a number. -/
def Obligations.UnwrapInvertsWrap : Prop :=
  ∀ (n checkpoint : Nat) (zero : U32), n < two64 → checkpoint < two64 →
    (absDiff n checkpoint < 2 ^ 31 → unwrap (wrap n zero) zero checkpoint = n) ∧
    (n + 2 ^ 31 = checkpoint → unwrap (wrap n zero) zero checkpoint = n) ∧
    (n = checkpoint + 2 ^ 31 → unwrap (wrap n zero) zero checkpoint = if two32 ≤ n then n - two32 else n)

/-! ByteStreams -/

/-- R161: BS.PUSH appends from the front the bytes that fit, none when OBS is closed or in error, counts them, and changes
nothing else. Where `bytes_pushed` would reach 2^64 it is refused (D11, notes/assumptions/6.md). -/
def Obligations.BsPushResult : Prop :=
  ∀ (data : List Byte) (s : State),
    let n := if s.obs.closed || s.obs.error then 0 else min (s.obs.cap.toNat - s.obs.buffer.length) data.length
    (s.obs.pushed + n < 2 ^ 64 →
      exec (.bsPush data) s =
        .next (answered
          { s with obs := { s.obs with buffer := s.obs.buffer ++ data.take n, pushed := s.obs.pushed + n } }
          [0x20#8, 0#8, 0#8, 0#8])) ∧
    (2 ^ 64 ≤ s.obs.pushed + n → exec (.bsPush data) s = .refused .counterOverflow)

/-- R162: BS.CLOSE sets `closed` of OBS, whatever the other flag says, and changes nothing else. -/
def Obligations.BsCloseResult : Prop :=
  ∀ s : State,
    exec .bsClose s = .next (answered { s with obs := { s.obs with closed := true } } [0x21#8, 0#8, 0#8, 0#8])

/-- R163: BS.SET_ERROR sets `error` of the selected stream and changes nothing else. -/
def Obligations.BsSetErrorResult : Prop :=
  ∀ s : State,
    exec (.bsSetError .ibs) s =
      .next (answered { s with ibs := { s.ibs with error := true } } [0x22#8, 0#8, 0#8, 0#8]) ∧
    exec (.bsSetError .obs) s =
      .next (answered { s with obs := { s.obs with error := true } } [0x22#8, 0#8, 0#8, 0#8])

/-- R164: BS.PEEK shows the first `min(|buffer|, 65535)` bytes of IBS, counted in RLEN, and changes nothing. -/
def Obligations.BsPeekResult : Prop :=
  ∀ s : State,
    let n := min s.ibs.buffer.length 65535
    exec .bsPeek s =
      .next (answered s ([0x23#8, 0#8, BitVec.ofNat 8 (n / 256), BitVec.ofNat 8 n] ++ s.ibs.buffer.take n))

/-- R165: BS.POP removes `min(n, |buffer|)` bytes from the front of IBS, counts them, and changes nothing else. -/
def Obligations.BsPopResult : Prop :=
  ∀ (n : U64) (s : State),
    let m := min n.toNat s.ibs.buffer.length
    exec (.bsPop n) s =
      .next (answered { s with ibs := { s.ibs with buffer := s.ibs.buffer.drop m, popped := s.ibs.popped + m } }
        [0x24#8, 0#8, 0#8, 0#8])

/-- R166 to R172: what each of the seven observers answers, for either stream; none changes anything. -/
def Obligations.BsObserverResults : Prop :=
  ∀ (sel : Stream) (s : State),
    let b := match sel with
      | .ibs => s.ibs
      | .obs => s.obs
    let long := fun (v : Nat) =>
      bytes32 ((BitVec.ofNat 64 v).extractLsb' 32 32) ++ bytes32 ((BitVec.ofNat 64 v).extractLsb' 0 32)
    let bit := fun (c : Bool) => if c then 1#8 else 0#8
    exec (.bsAvail sel) s =
      .next (answered s ([0x25#8, 0#8, 0#8, 0#8] ++ long (b.cap.toNat - b.buffer.length))) ∧
    exec (.bsPushed sel) s = .next (answered s ([0x26#8, 0#8, 0#8, 0#8] ++ long b.pushed)) ∧
    exec (.bsPopped sel) s = .next (answered s ([0x27#8, 0#8, 0#8, 0#8] ++ long b.popped)) ∧
    exec (.bsBuffered sel) s = .next (answered s ([0x28#8, 0#8, 0#8, 0#8] ++ long b.buffer.length)) ∧
    exec (.bsIsClosed sel) s = .next (answered s [0x29#8, bit b.closed, 0#8, 0#8]) ∧
    exec (.bsIsFinished sel) s = .next (answered s [0x2A#8, bit (b.closed && b.buffer.length == 0), 0#8, 0#8]) ∧
    exec (.bsHasError sel) s = .next (answered s [0x2B#8, bit b.error, 0#8, 0#8])

/-- R173, R85: both streams are FIFOs under every command but SYS.RESET: bytes are only appended at the tail and removed at
the head, and the counters count exactly them. -/
def Obligations.StreamsAreFifo : Prop :=
  ∀ (i : Instr) (s t : State), i ≠ .sysReset → exec i s = .next t →
    (∃ (added : List Byte) (n : Nat), n ≤ (s.ibs.buffer ++ added).length ∧
      t.ibs.buffer = (s.ibs.buffer ++ added).drop n ∧ t.ibs.pushed = s.ibs.pushed + added.length ∧
      t.ibs.popped = s.ibs.popped + n ∧ t.ibs.cap = s.ibs.cap) ∧
    ∃ (added : List Byte) (n : Nat), n ≤ (s.obs.buffer ++ added).length ∧
      t.obs.buffer = (s.obs.buffer ++ added).drop n ∧ t.obs.pushed = s.obs.pushed + added.length ∧
      t.obs.popped = s.obs.popped + n ∧ t.obs.cap = s.obs.cap

/-! Reassembler -/

/-- R190, R191, R192, R194: the whole effect of RA.INSERT. `filled` is the store after step 4 (bytes inside `[U, E)` placed in
unfilled slots only); `run` is the longest run of filled slots from `U`; it leaves the store and goes to IBS, or is lost
when IBS is closed or in error; then the close condition is evaluated. Nothing else changes. The premise on `E` is D11. -/
def Obligations.RaInsertResult : Prop :=
  ∀ (s : State) (first : U64) (data : List Byte) (isLast : Bool),
    InboundOk s → s.ibs.popped + s.ibs.cap.toNat < 2 ^ 64 →
    let u := s.ibs.pushed
    let e := s.ibs.popped + s.ibs.cap.toNat
    let filled : Nat → Option Byte := fun i =>
      match Memory.read s.ra.store i with
      | some b => some b
      | none => if first.toNat ≤ i ∧ u ≤ i ∧ i < e then data[i - first.toNat]? else none
    ∃ (run : List Byte) (store : Memory),
      (∀ j, j < run.length → run[j]? = filled (u + j)) ∧ filled (u + run.length) = none ∧
      Memory.wf store = true ∧
      (∀ i, Memory.read store i = if u ≤ i ∧ i < u + run.length then none else filled i) ∧
      let accepted := if s.ibs.closed || s.ibs.error then [] else run
      let seen := s.ra.lastSeen || isLast
      let last := if isLast then first.toNat + data.length else s.ra.lastIndex
      exec (.raInsert first data isLast) s =
        .next (answered
          { s with
            ibs := { s.ibs with
                       buffer := s.ibs.buffer ++ accepted
                       pushed := u + accepted.length
                       closed := s.ibs.closed || (seen && store.isEmpty && decide (u + accepted.length = last)) }
            ra := { store := store, pending := store.length, lastSeen := seen, lastIndex := last } }
          [0x30#8, 0#8, 0#8, 0#8])

/-- R193: the first write wins, in the store and in what has been pushed, and inserting a fragment twice leaves what
inserting it once leaves. The premise on `E` is D11. -/
def Obligations.RaDuplicateIdempotent : Prop :=
  ∀ (s t : State) (first : U64) (data : List Byte) (isLast : Bool),
    InboundOk s → s.ibs.popped + s.ibs.cap.toNat < 2 ^ 64 → exec (.raInsert first data isLast) s = .next t →
    exec (.raInsert first data isLast) t = .next (answered t [0x30#8, 0#8, 0#8, 0#8]) ∧
    s.ibs.buffer <+: t.ibs.buffer ∧
    (s.ibs.closed = false → s.ibs.error = false →
      ∀ i b, Memory.read s.ra.store i = some b →
        Memory.read t.ra.store i = some b ∨
        s.ibs.pushed ≤ i ∧ i < t.ibs.pushed ∧ t.ibs.buffer[i - s.ibs.popped]? = some b)

/-- R113: a fragment given in two adjacent inserts, the terminator on the second, leaves what one insert leaves, on an
open stream whose terminator is not known yet (the premises keep out R192's close between the two). -/
def Obligations.RaInsertSplits : Prop :=
  ∀ (s t1 t2 t : State) (first : U64) (a b : List Byte) (isLast : Bool),
    InboundOk s → s.ibs.popped + s.ibs.cap.toNat < 2 ^ 64 → first.toNat + a.length < 2 ^ 64 →
    s.ibs.closed = false → s.ibs.error = false → s.ra.lastSeen = false →
    exec (.raInsert first a false) s = .next t1 →
    exec (.raInsert (first + BitVec.ofNat 64 a.length) b isLast) t1 = .next t2 →
    exec (.raInsert first (a ++ b) isLast) s = .next t →
    t2.ibs = t.ibs ∧ t2.ra = t.ra

/-- R197: RA.PENDING answers `pending` and changes nothing. R195, which the spec derives: under the invariants what is stored
and what is buffered never exceed the capacity together. -/
def Obligations.RaPendingResult : Prop :=
  ∀ s : State,
    exec .raPending s =
      .next (answered s ([0x31#8, 0#8, 0#8, 0#8] ++ bytes32 ((BitVec.ofNat 64 s.ra.pending).extractLsb' 32 32) ++
        bytes32 ((BitVec.ofNat 64 s.ra.pending).extractLsb' 0 32))) ∧
    (InboundOk s → s.ra.pending + s.ibs.buffer.length ≤ s.ibs.cap.toNat)

/-- R93, R195: the acceptance window ends at `bytes_popped + C_IN`, neither edge ever moves left except by reset, and `U ≤ E`. -/
def Obligations.WindowNeverMovesBack : Prop :=
  ∀ (i : Instr) (s t : State), InboundOk s → i ≠ .sysReset → exec i s = .next t →
    s.windowStart ≤ t.windowStart ∧ s.windowEnd ≤ t.windowEnd ∧
    t.windowEnd = t.ibs.popped + t.ibs.cap.toNat ∧ t.windowStart ≤ t.windowEnd

/-- R31 (d), R198: if every fragment inserted agrees with a stream `x`, then whatever IBS and the store hold is `x` at its
index; every command but SYS.RESET keeps that, and reset starts from it. -/
def Obligations.InboundCarriesTheStream : Prop :=
  (∀ (x : Nat → Byte) (p : Config.Params) (draws : Nat), HoldsStream x (State.resetWith p draws)) ∧
  ∀ (x : Nat → Byte) (i : Instr) (s t : State), InboundOk s → HoldsStream x s → InsertsStream x s i → i ≠ .sysReset →
    exec i s = .next t → HoldsStream x t

/-! TCPReceiver -/

/-- R220, R221: RX.RECEIVE takes a SYN, drops a segment that comes before any SYN or that claims the SYN's own number
without being one, and hands every other to the Reassembler at its stream index. What the insert does is
`RaInsertResult`; a refused insert is refused here too (D11, notes/assumptions/6.md). -/
def Obligations.RxReceiveResult : Prop :=
  ∀ (s : State) (seqno : U32) (payload : List Byte) (syn fin : Bool),
    let s1 : State := if syn then { s with rx := { isnReceived := true, zero := seqno } } else s
    let a := unwrap seqno s1.rx.zero (s.ibs.pushed + 1)
    let idx := BitVec.ofNat 64 (if syn then a else a - 1)
    (s1.rx.isnReceived = false →
      exec (.rxReceive seqno payload syn fin) s = .next (answered s [0x40#8, 0#8, 0#8, 0#8])) ∧
    (s1.rx.isnReceived = true → syn = false → a = 0 →
      exec (.rxReceive seqno payload syn fin) s = .next (answered s [0x40#8, 0#8, 0#8, 0#8])) ∧
    (s1.rx.isnReceived = true → (syn = true ∨ a ≠ 0) → InboundOk s → s.ibs.popped + s.ibs.cap.toNat < 2 ^ 64 →
      ∃ t, exec (.raInsert idx payload fin) s1 = .next t ∧
        exec (.rxReceive seqno payload syn fin) s =
          .next { t with resps := s.resps ++ [[0x40#8, 0#8, 0#8, 0#8]] }) ∧
    (s1.rx.isnReceived = true → (syn = true ∨ a ≠ 0) → StreamOk s.ibs →
      ∀ r, exec (.raInsert idx payload fin) s1 = .refused r → exec (.rxReceive seqno payload syn fin) s = .refused r)

/-- R220, R222: the next segment in order, on an open stream with room and nothing out of order stored, is delivered whole,
and the acknowledgement then covers it. -/
def Obligations.RxDeliversInOrder : Prop :=
  ∀ (s : State) (payload : List Byte), InboundOk s → s.rx.isnReceived = true → s.ibs.closed = false →
    s.ibs.error = false → s.ra.store = [] → s.ra.lastSeen = false →
    payload.length ≤ s.ibs.cap.toNat - s.ibs.buffer.length → s.ibs.popped + s.ibs.cap.toNat < 2 ^ 64 →
    ∃ t, exec (.rxReceive (wrap (s.ibs.pushed + 1) s.rx.zero) payload false false) s = .next t ∧
      t.ibs = { s.ibs with buffer := s.ibs.buffer ++ payload, pushed := s.ibs.pushed + payload.length } ∧
      (rxAck t).ackno = some (wrap (s.ibs.pushed + payload.length + 1) s.rx.zero) ∧
      (rxAck t).windowSize.toNat = min (s.ibs.cap.toNat - s.ibs.buffer.length - payload.length) 65535

/-- R222: RX.SEND answers the acknowledgement number once a SYN has been received, and the window, always; it changes
nothing. -/
def Obligations.RxSendResult : Prop :=
  ∀ s : State,
    let window := bytes32 (BitVec.ofNat 32 (min (s.ibs.cap.toNat - s.ibs.buffer.length) 65535))
    let ackno := BitVec.ofNat 32 (s.rx.zero.toNat + (1 + s.ibs.pushed + if s.ibs.closed then 1 else 0))
    exec .rxSend s =
      .next (answered s
        (if s.rx.isnReceived then [0x41#8, 1#8, 0#8, 0#8] ++ bytes32 ackno ++ window
         else [0x41#8, 0#8, 0#8, 0#8] ++ bytes32 0#32 ++ window))

/-! TCPSender -/

/-- R230, R231: TX.PUSH as its loop is written. `eff` is the effective window. With no window, after FIN, or when the round
builds nothing, only the response is given. Otherwise the round's segment is queued and recorded as outstanding, and
TX.PUSH goes on from there. -/
def Obligations.TxPushRound : Prop :=
  ∀ s : State,
    let inFlight := (s.tx.outstanding.map (fun e => seqlen e.seg)).sum
    let eff := (if s.tx.win = 0#16 then 1 else s.tx.win.toNat) - inFlight
    let room := if s.tx.synSent then eff else eff - 1
    let n := min room (min 1452 s.obs.buffer.length)
    let seg : Segment :=
      { seqno := BitVec.ofNat 32 (s.tx.isn.toNat + s.tx.cursor)
        syn := !s.tx.synSent
        payload := s.obs.buffer.take n
        fin := s.obs.closed && (s.obs.buffer.drop n).isEmpty && decide (1 ≤ room - n) }
    (s.tx.cursor < 2 ^ 64 → (eff = 0 ∨ s.tx.finSent = true ∨ seqlen seg = 0) →
      exec .txPush s = .next (answered s [0x50#8, 0#8, 0#8, 0#8])) ∧
    (0 < eff → s.tx.finSent = false → 0 < seqlen seg →
      exec .txPush s =
        exec .txPush
          { s with
            obs := { s.obs with buffer := s.obs.buffer.drop n, popped := s.obs.popped + n }
            tx := { s.tx with
                      synSent := true
                      finSent := seg.fin
                      ready := s.tx.ready ++ [seg]
                      outstanding := s.tx.outstanding ++ [{ abs := s.tx.cursor, seg := seg }]
                      cursor := s.tx.cursor + seqlen seg } })

/-- R231: TX.PUSH completes with room in the cursor. It moves a front part of OBS, in order, into segments that it appends
to `ready` and to `outstanding`, uses no more than the effective window, and changes nothing else. -/
def Obligations.TxPushFrame : Prop :=
  ∀ s : State, s.tx.cursor + 65535 < 2 ^ 64 →
    ∃ (sent : List InFlight) (k : Nat) (synSent finSent : Bool),
      k ≤ s.obs.buffer.length ∧
      (sent.map (fun e => e.seg.payload)).flatten = s.obs.buffer.take k ∧
      (sent.map (fun e => seqlen e.seg)).sum ≤ effWindow s.tx ∧
      (s.tx.synSent = true → synSent = true) ∧ (s.tx.finSent = true → sent = [] ∧ finSent = true) ∧
      exec .txPush s =
        .next (answered
          { s with
            obs := { s.obs with buffer := s.obs.buffer.drop k, popped := s.obs.popped + k }
            tx := { s.tx with
                      synSent := synSent
                      finSent := finSent
                      ready := s.tx.ready ++ sent.map (fun e => e.seg)
                      outstanding := s.tx.outstanding ++ sent
                      cursor := s.tx.cursor + (sent.map (fun e => seqlen e.seg)).sum } }
          [0x50#8, 0#8, 0#8, 0#8])

/-- R231 corners (c), (f), (g): when TX.PUSH is done there is nothing left that it could send: the effective window is used
up, FIN has been sent, or SYN has been sent and OBS is empty and open. -/
def Obligations.TxPushSendsAllItCan : Prop :=
  ∀ s t : State, exec .txPush s = .next t →
    effWindow t.tx = 0 ∨ t.tx.finSent = true ∨
    t.tx.synSent = true ∧ t.obs.buffer = [] ∧ t.obs.closed = false

/-- R231 corner (a): a sender that has sent nothing and whose window is 1 builds the SYN alone, whatever OBS holds. -/
def Obligations.TxFirstPushIsSynAlone : Prop :=
  ∀ s : State, s.tx.win = 1#16 → s.tx.synSent = false → s.tx.finSent = false → s.tx.cursor = 0 →
    s.tx.outstanding = [] →
    let syn : Segment := { seqno := s.tx.isn, syn := true, payload := [], fin := false }
    exec .txPush s =
      .next (answered
        { s with tx := { s.tx with
                           synSent := true
                           ready := s.tx.ready ++ [syn]
                           outstanding := [{ abs := 0, seg := syn }]
                           cursor := 1 } }
        [0x50#8, 0#8, 0#8, 0#8])

/-- R232, R116: TX.MAYBE_SEND gives the head of `ready` and removes it, or says that there is none; nothing else changes. The
response has VALID, SYN and FIN, RLEN, the sequence number and the payload. (A segment in `ready` has at most 1452 payload
bytes in a reachable state; for one longer than 65535 only the last clause speaks, whose RLEN is free,
notes/assumptions/5.md.) -/
def Obligations.TxMaybeSendResult : Prop :=
  ∀ s : State,
    (s.tx.ready = [] →
      exec .txMaybeSend s = .next (answered s [0x51#8, 0#8, 0#8, 0#8, 0#8, 0#8, 0#8, 0#8])) ∧
    ∀ (g : Segment) (rest : List Segment), s.tx.ready = g :: rest →
      let flags := 1#8 ||| (if g.syn then 2#8 else 0#8) ||| (if g.fin then 4#8 else 0#8)
      let n := g.payload.length
      (n < 65536 →
        exec .txMaybeSend s =
          .next (answered { s with tx := { s.tx with ready := rest } }
            ([0x51#8, flags, BitVec.ofNat 8 (n / 256), BitVec.ofNat 8 n] ++ bytes32 g.seqno ++ g.payload))) ∧
      exec .txMaybeSend s =
        .next (State.respond { s with tx := { s.tx with ready := rest } }
          { op := .txMaybeSend, flags := flags, words := [g.seqno], payload := g.payload })

/-- R233: TX.RECEIVE stores the window whatever the acknowledgement says; an absent one, or one beyond the cursor, does
nothing more; any other pops the covered segments from the front of `outstanding`, and if it popped one it restarts the
timer. Nothing else changes. -/
def Obligations.TxReceiveResult : Prop :=
  ∀ (s : State) (window : U16),
    exec (.txReceive none window) s =
      .next (answered { s with tx := { s.tx with win := window } } [0x52#8, 0#8, 0#8, 0#8]) ∧
    ∀ ackno : U32,
      let a := unwrap ackno s.tx.isn s.tx.cursor
      let kept := s.tx.outstanding.dropWhile (fun e => decide (e.abs + seqlen e.seg ≤ a))
      (s.tx.cursor < a →
        exec (.txReceive (some ackno) window) s =
          .next (answered { s with tx := { s.tx with win := window } } [0x52#8, 0#8, 0#8, 0#8])) ∧
      (a ≤ s.tx.cursor → kept = s.tx.outstanding →
        exec (.txReceive (some ackno) window) s =
          .next (answered { s with tx := { s.tx with win := window } } [0x52#8, 0#8, 0#8, 0#8])) ∧
      (a ≤ s.tx.cursor → kept ≠ s.tx.outstanding →
        exec (.txReceive (some ackno) window) s =
          .next (answered
            { s with tx := { s.tx with
                               win := window, outstanding := kept, rtoCur := s.tx.rto0, t := 0#64, retx := 0#64 } }
            [0x52#8, 0#8, 0#8, 0#8]))

/-- R46, R233 corners (b), (c), (d): under the sender's invariants an acknowledgement retires exactly the segments that lie
wholly below it, and the acknowledgement of everything sent retires everything and resets the back-off. -/
def Obligations.TxAckRetiresCovered : Prop :=
  ∀ (s : State) (window : U16), SenderOk s.tx →
    (∀ ackno : U32, unwrap ackno s.tx.isn s.tx.cursor ≤ s.tx.cursor →
      ∃ t, exec (.txReceive (some ackno) window) s = .next t ∧
        t.tx.outstanding =
          s.tx.outstanding.filter (fun e => decide (unwrap ackno s.tx.isn s.tx.cursor < e.abs + seqlen e.seg))) ∧
    ∃ t, exec (.txReceive (some (wrap s.tx.cursor s.tx.isn)) window) s = .next t ∧
      t.tx.outstanding = [] ∧ inflight t.tx = 0 ∧
      (s.tx.outstanding ≠ [] → t.tx.rtoCur = s.tx.rto0 ∧ t.tx.retx = 0#64 ∧ t.tx.t = 0#64)

/-- R234, R346: TX.TICK adds Δ, saturating; when the time has reached the timeout with a segment outstanding, the oldest goes
to the head of `ready` and the time restarts, and only under a non-zero stored window the count rises and the timeout
doubles, both saturating. Nothing else changes. -/
def Obligations.TxTickResult : Prop :=
  ∀ (delta : U64) (s : State),
    let now := min (s.tx.t.toNat + delta.toNat) (2 ^ 64 - 1)
    (s.tx.outstanding = [] ∨ now < s.tx.rtoCur.toNat →
      exec (.txTick delta) s =
        .next (answered { s with tx := { s.tx with t := BitVec.ofNat 64 now } } [0x53#8, 0#8, 0#8, 0#8])) ∧
    ∀ (oldest : InFlight) (rest : List InFlight), s.tx.outstanding = oldest :: rest → s.tx.rtoCur.toNat ≤ now →
      (s.tx.win = 0#16 →
        exec (.txTick delta) s =
          .next (answered { s with tx := { s.tx with ready := oldest.seg :: s.tx.ready, t := 0#64 } }
            [0x53#8, 0#8, 0#8, 0#8])) ∧
      (s.tx.win ≠ 0#16 →
        exec (.txTick delta) s =
          .next (answered
            { s with tx := { s.tx with
                               ready := oldest.seg :: s.tx.ready
                               t := 0#64
                               retx := BitVec.ofNat 64 (min (s.tx.retx.toNat + 1) (2 ^ 64 - 1))
                               rtoCur := BitVec.ofNat 64 (min (2 * s.tx.rtoCur.toNat) (2 ^ 64 - 1)) } }
            [0x53#8, 0#8, 0#8, 0#8]))

/-- R235, R236, R237: what TX.SEND_EMPTY, TX.IN_FLIGHT and TX.RETX answer; none changes anything. -/
def Obligations.TxObserverResults : Prop :=
  ∀ s : State,
    let long := fun (v : U64) => bytes32 (v.extractLsb' 32 32) ++ bytes32 (v.extractLsb' 0 32)
    exec .txSendEmpty s =
      .next (answered s
        ([0x54#8, 1#8, 0#8, 0#8] ++ bytes32 (BitVec.ofNat 32 (s.tx.isn.toNat + s.tx.cursor)))) ∧
    exec .txInFlight s =
      .next (answered s
        ([0x55#8, 0#8, 0#8, 0#8] ++ long (BitVec.ofNat 64 (s.tx.outstanding.map (fun e => seqlen e.seg)).sum))) ∧
    exec .txRetx s = .next (answered s ([0x56#8, 0#8, 0#8, 0#8] ++ long s.tx.retx))

/-- R49: under the sender's invariants, what is in flight reaches from the oldest outstanding segment to the cursor. -/
def Obligations.InFlightIsCursorMinusOldest : Prop :=
  ∀ t : Sender, SenderOk t →
    inflight t = (match t.outstanding with
                  | [] => 0
                  | e :: _ => t.cursor - e.abs) ∧
    inflight t ≤ t.cursor ∧
    (t.outstanding.filter (fun e => e.seg.syn)).length ≤ 1 ∧ (t.outstanding.filter (fun e => e.seg.fin)).length ≤ 1

/-- R238: absolute 0 is the SYN, absolute `k + 1` is byte `k` of what the host pushed to OBS, the FIN comes last: whatever is
buffered, outstanding or queued to be sent is `x` at its place, if what BS.PUSH appends is. Every command but SYS.RESET
keeps that, and reset starts from it. -/
def Obligations.OutboundCarriesTheStream : Prop :=
  (∀ (x : Nat → Byte) (p : Config.Params) (draws : Nat), SendsStream x (State.resetWith p draws)) ∧
  ∀ (x : Nat → Byte) (i : Instr) (s t : State), OutboundOk s → SendsStream x s →
    (∀ data, i = .bsPush data → CarriesAt x s.obs.pushed (data.take (s.obs.accepts data))) → i ≠ .sysReset →
    exec i s = .next t → SendsStream x t

/-! NetworkInterface -/

/-- R271, R275: NI.SEND_DGRAM frames the datagram at once when the next hop is cached, whatever the entry's age; else it
parks it, and asks for the address unless a request for it is still in its cool-down. Nothing else changes. -/
def Obligations.NiSendDgramResult : Prop :=
  ∀ (s : State) (i ip : U32) (dgram : List Byte) (n : NetIf), s.ni[i.toNat]? = some n →
    let put := fun (n' : NetIf) => answered { s with ni := s.ni.set i.toNat n' } [0x60#8, 0#8, 0#8, 0#8]
    let parked := Table.write n.pending ip.toNat
      ((Table.read n.pending ip.toNat).getD [] ++ [{ src := n.eth, etype := 0x0800#16, payload := dgram }])
    let request : Frame :=
      { dst := 0xFFFFFFFFFFFF#48, src := n.eth, etype := 0x0806#16
        payload := serializeArp s.params.codec
          { opcode := 1#16, senderEth := n.eth, senderIp := n.ip, targetEth := 0#48, targetIp := ip } }
    (∀ e, Table.read n.arpCache ip.toNat = some e →
      exec (.niSendDgram i ip dgram) s =
        .next (put { n with
          outQueue := n.outQueue ++ [{ dst := e.eth, src := n.eth, etype := 0x0800#16, payload := dgram }] })) ∧
    (Table.read n.arpCache ip.toNat = none → Table.has n.arpInflight ip.toNat = true →
      exec (.niSendDgram i ip dgram) s = .next (put { n with pending := parked })) ∧
    (Table.read n.arpCache ip.toNat = none → Table.has n.arpInflight ip.toNat = false →
      exec (.niSendDgram i ip dgram) s =
        .next (put { n with
          pending := parked
          outQueue := n.outQueue ++ [request]
          arpInflight := Table.write n.arpInflight ip.toNat 0#64 }))

/-- R272, R276: NI.RECV_FRAME. A frame that does not parse, is not for this interface, has another ethertype or an unparsable
payload changes nothing. An IPv4 datagram goes to the host or, with Q, to `rx_queue`. An ARP message is learned from,
releases what was parked for its sender, oldest first, and is then answered if it asks for this interface's address. A
datagram that serializes to more than 65535 bytes is given whole with a free RLEN: the model's choice
(notes/assumptions/5.md). -/
def Obligations.NiRecvFrameResult : Prop :=
  ∀ (s : State) (i : U32) (bytes : List Byte) (q : Bool) (n : NetIf), s.ni[i.toNat]? = some n →
    let c := s.params.codec
    let ignored := exec (.niRecvFrame i bytes q) s = .next (answered s [0x61#8, 0#8, 0#8, 0#8])
    let put := fun (n' : NetIf) => answered { s with ni := s.ni.set i.toNat n' } [0x61#8, 0#8, 0#8, 0#8]
    (parseFrame bytes = none → ignored) ∧
    ∀ f, parseFrame bytes = some f →
      (f.dst ≠ n.eth → f.dst ≠ 0xFFFFFFFFFFFF#48 → ignored) ∧
      (f.dst = n.eth ∨ f.dst = 0xFFFFFFFFFFFF#48 →
        (f.etype ≠ 0x0800#16 → f.etype ≠ 0x0806#16 → ignored) ∧
        (f.etype = 0x0800#16 → parseIpv4 c f.payload = none → ignored) ∧
        (f.etype = 0x0806#16 → parseArp c f.payload = none → ignored) ∧
        (f.etype = 0x0800#16 → ∀ d, parseIpv4 c f.payload = some d →
          (q = false →
            let out := serializeIpv4 c d
            (out.length < 65536 →
              exec (.niRecvFrame i bytes q) s =
                .next (answered s
                  ([0x61#8, 1#8, BitVec.ofNat 8 (out.length / 256), BitVec.ofNat 8 out.length] ++ out))) ∧
            exec (.niRecvFrame i bytes q) s =
              .next (s.respond { op := .niRecvFrame, flags := 1#8, words := [], payload := out })) ∧
          (q = true → exec (.niRecvFrame i bytes q) s = .next (put { n with rxQueue := n.rxQueue ++ [d] }))) ∧
        (f.etype = 0x0806#16 → ∀ m, parseArp c f.payload = some m →
          let released := ((Table.read n.pending m.senderIp.toNat).getD []).map (fun p =>
            ({ dst := m.senderEth, src := p.src, etype := p.etype, payload := p.payload } : Frame))
          let reply : Frame :=
            { dst := m.senderEth, src := n.eth, etype := 0x0806#16
              payload := serializeArp c
                { opcode := 2#16, senderEth := n.eth, senderIp := n.ip, targetEth := m.senderEth,
                  targetIp := m.senderIp } }
          exec (.niRecvFrame i bytes q) s =
            .next (put { n with
              arpCache := Table.write n.arpCache m.senderIp.toNat { eth := m.senderEth, age := 0#64 }
              pending := Table.remove n.pending m.senderIp.toNat
              outQueue := n.outQueue ++ released ++
                (if m.opcode = 1#16 ∧ m.targetIp = n.ip then [reply] else []) })))

/-- R277, R61: after a learned mapping a datagram for that address is framed at once, with the learned address and no ARP
traffic, behind whatever the queue held, and nothing is parked for the address. -/
def Obligations.NiLearnedAddressIsUsed : Prop :=
  ∀ (n : NetIf) (c : Config.Codec) (m : ArpMessage) (dgram : List Byte),
    ((n.learn m).answer c m).send c dgram m.senderIp =
      { (n.learn m).answer c m with
        outQueue := ((n.learn m).answer c m).outQueue ++
          [{ dst := m.senderEth, src := n.eth, etype := 0x0800#16, payload := dgram }] } ∧
    Table.read ((n.learn m).answer c m).pending m.senderIp.toNat = none ∧
    (∀ k, k ≠ m.senderIp.toNat →
      Table.read ((n.learn m).answer c m).pending k = Table.read n.pending k ∧
      Table.read ((n.learn m).answer c m).arpCache k = Table.read n.arpCache k)

/-- R273: NI.TICK, entry by entry: ages grow by Δ, saturating; a cache entry older than 30000 ms leaves with what is parked for
it; a cool-down entry older than 5000 ms leaves. Nothing else changes. -/
def Obligations.NiTickResult : Prop :=
  ∀ (s : State) (i : U32) (delta : U64) (n : NetIf), s.ni[i.toNat]? = some n → NetIfOk n →
    let grown := fun (age : U64) => min (age.toNat + delta.toNat) (2 ^ 64 - 1)
    ∃ n' : NetIf,
      exec (.niTick i delta) s = .next (answered { s with ni := s.ni.set i.toNat n' } [0x62#8, 0#8, 0#8, 0#8]) ∧
      NetIfOk n' ∧ n'.eth = n.eth ∧ n'.ip = n.ip ∧ n'.outQueue = n.outQueue ∧ n'.rxQueue = n.rxQueue ∧
      ∀ k,
        (Table.read n.arpCache k = none →
          Table.read n'.arpCache k = none ∧ Table.read n'.pending k = Table.read n.pending k) ∧
        (∀ e, Table.read n.arpCache k = some e →
          (grown e.age ≤ 30000 →
            Table.read n'.arpCache k = some { eth := e.eth, age := BitVec.ofNat 64 (grown e.age) } ∧
            Table.read n'.pending k = Table.read n.pending k) ∧
          (30000 < grown e.age → Table.read n'.arpCache k = none ∧ Table.read n'.pending k = none)) ∧
        (Table.read n.arpInflight k = none → Table.read n'.arpInflight k = none) ∧
        ∀ age, Table.read n.arpInflight k = some age →
          Table.read n'.arpInflight k =
            if grown age ≤ 5000 then some (BitVec.ofNat 64 (grown age)) else none

/-- R274, R116, R125: NI.MAYBE_SEND gives the head of `out_queue` and removes it, or says that there is none; nothing else
changes. A frame of more than 65535 bytes is given whole with a free RLEN: the model's choice (notes/assumptions/5.md). -/
def Obligations.NiMaybeSendResult : Prop :=
  ∀ (s : State) (i : U32) (n : NetIf), s.ni[i.toNat]? = some n →
    (n.outQueue = [] → exec (.niMaybeSend i) s = .next (answered s [0x63#8, 0#8, 0#8, 0#8])) ∧
    ∀ (f : Frame) (rest : List Frame), n.outQueue = f :: rest →
      let out := bytes48 f.dst ++ bytes48 f.src ++ bytes16 f.etype ++ f.payload
      (14 + f.payload.length < 65536 →
        exec (.niMaybeSend i) s =
          .next (answered { s with ni := s.ni.set i.toNat { n with outQueue := rest } }
            ([0x63#8, 1#8, BitVec.ofNat 8 ((14 + f.payload.length) / 256), BitVec.ofNat 8 (14 + f.payload.length)] ++
              out))) ∧
      exec (.niMaybeSend i) s =
        .next (State.respond { s with ni := s.ni.set i.toNat { n with outQueue := rest } }
          { op := .niMaybeSend, flags := 1#8, words := [], payload := out })

/-- R125: `parse_frame` is none below 14 bytes and otherwise the inverse of `serialize_frame`. -/
def Obligations.FrameRoundTrip : Prop :=
  (∀ f : Frame, parseFrame (serializeFrame f) = some f) ∧
  (∀ (x : List Byte) (f : Frame), parseFrame x = some f → serializeFrame f = x) ∧
  ∀ x : List Byte, parseFrame x = none ↔ x.length < 14

/-! Router -/

/-- R310, R311: RT.ADD_ROUTE puts the route behind the last one whose prefix is at least as long, at the front when there is none,
and changes nothing else. -/
def Obligations.RtAddRouteResult : Prop :=
  ∀ (s : State) (pfx : U32) (len : Fin 33) (hop : Option U32) (i : U32), i.toNat < s.ni.length →
    ∃ front back : List RouteInfo,
      s.rt.routes = front ++ back ∧
      (front = [] ∨ ∃ front' x, front = front' ++ [x] ∧ len ≤ x.prefixLen) ∧
      (∀ y ∈ back, y.prefixLen < len) ∧
      exec (.rtAddRoute pfx len hop i) s =
        .next (answered
          { s with rt := { routes :=
              front ++ { pfx := pfx, prefixLen := len, nextHop := hop, ifaceIdx := i.toNat } :: back } }
          [0x70#8, 0#8, 0#8, 0#8])

/-- R313: the match predicate, in numbers: the route's prefix is the destination with the bits below its length cleared; length 0
matches everything. -/
def Obligations.RouteMatchPredicate : Prop :=
  ∀ (r : RouteInfo) (dst : U32),
    routeMatches r dst = true ↔
      r.prefixLen.val = 0 ∨
      dst.toNat / 2 ^ (32 - r.prefixLen.val) * 2 ^ (32 - r.prefixLen.val) = r.pfx.toNat

/-- R314, R311: in a sorted route list the route chosen for a destination is a longest match, and among longest matches the
one that stands first; there is none only when nothing matches. -/
def Obligations.LongestPrefixChosen : Prop :=
  ∀ (s : State) (dst : U32), RoutesOk s →
    (lookupRoute s.rt.routes dst = none ↔ ∀ r ∈ s.rt.routes, routeMatches r dst = false) ∧
    ∀ r, lookupRoute s.rt.routes dst = some r →
      routeMatches r dst = true ∧
      ∃ front back, s.rt.routes = front ++ r :: back ∧ (∀ x ∈ front, routeMatches x dst = false) ∧
        ∀ x ∈ back, routeMatches x dst = true → x.prefixLen ≤ r.prefixLen

/-- R312: RT.ROUTE as its loops are written. When every `rx_queue` is empty only the response is given. Otherwise the first
datagram of the first interface that has one is taken off and dropped (no route, or ttl at most 1) or sent, with ttl one
less and a new checksum, by the chosen interface; and RT.ROUTE goes on from there. -/
def Obligations.RtRouteRound : Prop :=
  ∀ s : State,
    ((∀ n ∈ s.ni, n.rxQueue = []) → exec .rtRoute s = .next (answered s [0x71#8, 0#8, 0#8, 0#8])) ∧
    ∀ (i : Nat) (n : NetIf) (d : Datagram) (rest : List Datagram), s.ni[i]? = some n → n.rxQueue = d :: rest →
      (∀ (j : Nat) (n' : NetIf), j < i → s.ni[j]? = some n' → n'.rxQueue = []) →
      let c := s.params.codec
      let taken : State := { s with ni := s.ni.set i { n with rxQueue := rest } }
      (s.rt.routes.find? (fun r => routeMatches r d.dst) = none → exec .rtRoute s = exec .rtRoute taken) ∧
      ∀ r, s.rt.routes.find? (fun r => routeMatches r d.dst) = some r →
        (d.ttl.toNat ≤ 1 → exec .rtRoute s = exec .rtRoute taken) ∧
        (2 ≤ d.ttl.toNat → ∀ out, taken.ni[r.ifaceIdx]? = some out →
          let less := { d with ttl := BitVec.ofNat 8 (d.ttl.toNat - 1) }
          let sent := { less with cksum := computeChecksum c less }
          exec .rtRoute s =
            exec .rtRoute { taken with
              ni := taken.ni.set r.ifaceIdx (out.send c (serializeIpv4 c sent) (r.nextHop.getD d.dst)) })

/-- R312 corner (d): RT.ROUTE always completes, leaves every `rx_queue` empty, and changes nothing outside the interfaces. -/
def Obligations.RtRouteEmptiesEveryQueue : Prop :=
  ∀ s : State, ∃ ni : List NetIf,
    exec .rtRoute s = .next (answered { s with ni := ni } [0x71#8, 0#8, 0#8, 0#8]) ∧
    ni.map (fun n => (n.eth, n.ip, n.arpCache, n.rxQueue)) =
      s.ni.map (fun n => (n.eth, n.ip, n.arpCache, ([] : List Datagram)))

/-! The whole block -/

/-- The only stops of a command (R119, D11; notes/assumptions/6.md, 9.md): an interface that does not exist, and a counter or
index that would reach 2^64, which only BS.PUSH, RA.INSERT, RX.RECEIVE and TX.PUSH can meet. RA.INSERT meets it when it would
store a byte at index 2^64 or above, and when the run it flushes would bring `bytes_pushed` to 2^64; TX.PUSH when the
sequence units that are due and fit the window would bring the cursor there. (BS.PUSH: BsPushResult; RX.RECEIVE:
RxReceiveResult.) Nothing ever faults (R344). -/
def Obligations.RefusalsByName : Prop :=
  (∀ (s : State) (i : Instr) (r : Refusal), exec i s = .refused r →
    (r = .noSuchInterface ∧ ∃ k : U32, i.iface = some k ∧ s.ni.length ≤ k.toNat) ∨
    (r = .counterOverflow ∧ i.op ∈ [Op.bsPush, .raInsert, .rxReceive, .txPush])) ∧
  (∀ (s : State) (i : Instr) (k : U32), i.iface = some k → s.ni.length ≤ k.toNat → exec i s = .refused .noSuchInterface) ∧
  (∀ (s : State) (first : U64) (data : List Byte) (isLast : Bool),
    max first.toNat s.windowStart < min (first.toNat + data.length) s.windowEnd →
    2 ^ 64 < min (first.toNat + data.length) s.windowEnd →
    exec (.raInsert first data isLast) s = .refused .counterOverflow) ∧
  (∀ (s : State) (first : U64) (data : List Byte) (isLast : Bool),
    InboundOk s → s.ibs.closed = false → s.ibs.error = false → s.windowEnd = 2 ^ 64 →
    (∀ k, s.windowStart ≤ k → k < 2 ^ 64 →
      (∃ b, Memory.read s.ra.store k = some b) ∨ first.toNat ≤ k ∧ k < first.toNat + data.length) →
    exec (.raInsert first data isLast) s = .refused .counterOverflow) ∧
  (∀ s : State, exec .txPush s = .refused .counterOverflow ↔
    2 ^ 64 ≤ s.tx.cursor + (if s.tx.finSent then 0 else min (effWindow s.tx) (unitsDue s))) ∧
  ∀ (s : State) (f : Fault), step s ≠ .fault f

/-- R24, R25, R71 and the "written by" lines of R23 to R66: but for SYS.RESET, a field changes only by the commands listed for
it (what NI.SEND_DGRAM writes RT.ROUTE writes too, because it sends through NiSend, R271, R312), the constants never change, a
flag once set stays set, and a counter never falls. -/
def Obligations.FieldsWrittenOnlyAsListed : Prop :=
  ∀ (i : Instr) (s t : State), exec i s = .next t → i ≠ .sysReset →
    (t.params = s.params ∧ t.cmds = s.cmds ∧ t.ibs.cap = s.ibs.cap ∧ t.obs.cap = s.obs.cap ∧ t.tx.isn = s.tx.isn ∧
      t.tx.rto0 = s.tx.rto0 ∧ t.ni.map (fun n => (n.eth, n.ip)) = s.ni.map (fun n => (n.eth, n.ip))) ∧
    (i.op ∉ [Op.raInsert, .rxReceive] → t.ibs.pushed = s.ibs.pushed ∧ t.ibs.closed = s.ibs.closed ∧ t.ra = s.ra) ∧
    (i.op ∉ [Op.raInsert, .rxReceive, .bsPop] → t.ibs.buffer = s.ibs.buffer) ∧
    (i.op ≠ .bsPop → t.ibs.popped = s.ibs.popped) ∧
    (i ≠ .bsSetError .ibs → t.ibs.error = s.ibs.error) ∧
    (i.op ≠ .rxReceive → t.rx = s.rx) ∧
    (i.op ≠ .bsPush → t.obs.pushed = s.obs.pushed) ∧
    (i.op ∉ [Op.bsPush, .txPush] → t.obs.buffer = s.obs.buffer) ∧
    (i.op ≠ .bsClose → t.obs.closed = s.obs.closed) ∧
    (i ≠ .bsSetError .obs → t.obs.error = s.obs.error) ∧
    (i.op ≠ .txPush →
      t.obs.popped = s.obs.popped ∧ t.tx.cursor = s.tx.cursor ∧ t.tx.synSent = s.tx.synSent ∧ t.tx.finSent = s.tx.finSent) ∧
    (i.op ∉ [Op.txPush, .txReceive] → t.tx.outstanding = s.tx.outstanding) ∧
    (i.op ∉ [Op.txPush, .txMaybeSend, .txTick] → t.tx.ready = s.tx.ready) ∧
    (i.op ≠ .txReceive → t.tx.win = s.tx.win) ∧
    (i.op ∉ [Op.txReceive, .txTick] → t.tx.rtoCur = s.tx.rtoCur ∧ t.tx.t = s.tx.t ∧ t.tx.retx = s.tx.retx) ∧
    (i.op ∉ [Op.niSendDgram, .niRecvFrame, .niTick, .niMaybeSend, .rtRoute] → t.ni = s.ni) ∧
    (i.op ∉ [Op.niRecvFrame, .niTick] → t.ni.map (fun n => n.arpCache) = s.ni.map (fun n => n.arpCache)) ∧
    (i.op ∉ [Op.niSendDgram, .niTick, .rtRoute] →
      t.ni.map (fun n => n.arpInflight) = s.ni.map (fun n => n.arpInflight)) ∧
    (i.op ∉ [Op.niSendDgram, .niRecvFrame, .niTick, .rtRoute] →
      t.ni.map (fun n => n.pending) = s.ni.map (fun n => n.pending)) ∧
    (i.op ∉ [Op.niSendDgram, .niRecvFrame, .niMaybeSend, .rtRoute] →
      t.ni.map (fun n => n.outQueue) = s.ni.map (fun n => n.outQueue)) ∧
    (i.op ∉ [Op.niRecvFrame, .rtRoute] → t.ni.map (fun n => n.rxQueue) = s.ni.map (fun n => n.rxQueue)) ∧
    (i.op ≠ .rtRoute → ∀ k : Nat, (∀ w, i.iface = some w → w.toNat ≠ k) → t.ni[k]? = s.ni[k]?) ∧
    (i.op ≠ .rtAddRoute → t.rt = s.rt) ∧
    (s.ibs.closed = true → t.ibs.closed = true) ∧ (s.obs.closed = true → t.obs.closed = true) ∧
    (s.ibs.error = true → t.ibs.error = true) ∧ (s.obs.error = true → t.obs.error = true) ∧
    (s.ra.lastSeen = true → t.ra.lastSeen = true) ∧ (s.rx.isnReceived = true → t.rx.isnReceived = true) ∧
    (s.tx.synSent = true → t.tx.synSent = true) ∧ (s.tx.finSent = true → t.tx.finSent = true) ∧
    s.ibs.pushed ≤ t.ibs.pushed ∧ s.ibs.popped ≤ t.ibs.popped ∧ s.obs.pushed ≤ t.obs.pushed ∧
    s.obs.popped ≤ t.obs.popped ∧ s.tx.cursor ≤ t.tx.cursor

/-- R92: the sixteen commands that only observe always complete, change nothing but the list of responses, and give the same
response when issued again. -/
def Obligations.ObserversChangeNothing : Prop :=
  ∀ (i : Instr) (s : State),
    i.op ∈ [Op.bsPeek, .bsAvail, .bsPushed, .bsPopped, .bsBuffered, .bsIsClosed, .bsIsFinished, .bsHasError,
      .raPending, .rxSend, .txSendEmpty, .txInFlight, .txRetx, .w32Add, .w32Wrap, .w32Unwrap] →
    ∃ r : List Byte, exec i s = .next (answered s r) ∧
      exec i (answered s r) = .next (answered (answered s r) r)

end
end

