-- ==== Sys2Proof/Laws/Words.lean ====
section
/-! SUPPORT. Byte order, both ways: the bytes of a word and the word of its bytes (spec/30_encoding.md R110, R112). -/

namespace Sys2Proof.Laws

open Sys2Proof.Machine

theorem word16_bytes (w : U16) : word16 (w.extractLsb' 8 8) (w.extractLsb' 0 8) = w := by
  apply BitVec.eq_of_getLsbD_eq
  intro i hi
  simp only [word16, BitVec.getLsbD_append, BitVec.getLsbD_extractLsb']
  by_cases h : i < 8
  · simp [h]
  · have h1 : i - 8 < 8 := by omega
    have h2 : 8 + (i - 8) = i := by omega
    simp [h, h1, h2]

/-- The bytes of a header: UNIT and FUNC, FLAGS, and the 16-bit length (R111, R115). -/
theorem bytes32_header (a b : Byte) (w : U16) :
    bytes32 (a ++ b ++ w) = [a, b, w.extractLsb' 8 8, w.extractLsb' 0 8] := by
  have h0 : (a ++ b ++ w).extractLsb' 24 8 = a := by
    apply BitVec.eq_of_getLsbD_eq
    intro i hi
    simp only [BitVec.getLsbD_append, BitVec.getLsbD_extractLsb']
    have h1 : ¬ 24 + i < 16 := by omega
    have h2 : ¬ 24 + i - 16 < 8 := by omega
    have h3 : 24 + i - 16 - 8 = i := by omega
    simp [hi, h1, h2, h3]
  have h1 : (a ++ b ++ w).extractLsb' 16 8 = b := by
    apply BitVec.eq_of_getLsbD_eq
    intro i hi
    simp only [BitVec.getLsbD_append, BitVec.getLsbD_extractLsb']
    have h1 : ¬ 16 + i < 16 := by omega
    have h2 : 16 + i - 16 = i := by omega
    simp [hi, h1, h2]
  have h2 : (a ++ b ++ w).extractLsb' 8 8 = w.extractLsb' 8 8 := by
    apply BitVec.eq_of_getLsbD_eq
    intro i hi
    simp only [BitVec.getLsbD_append, BitVec.getLsbD_extractLsb']
    have h1 : 8 + i < 16 := by omega
    simp [hi, h1]
  have h3 : (a ++ b ++ w).extractLsb' 0 8 = w.extractLsb' 0 8 := by
    apply BitVec.eq_of_getLsbD_eq
    intro i hi
    simp only [BitVec.getLsbD_append, BitVec.getLsbD_extractLsb']
    have h1 : i < 16 := by omega
    simp [hi, h1]
  simp only [bytes32, h0, h1, h2, h3]

theorem word32_eq_header (a b c d : Byte) : word32 a b c d = a ++ b ++ word16 c d := by
  apply BitVec.eq_of_getLsbD_eq
  intro i hi
  simp only [word32, word16, BitVec.getLsbD_append]
  by_cases h1 : i < 8
  · simp [h1, show i < 8 + 8 by omega]
  · by_cases h2 : i - 8 < 8
    · simp [h1, h2, show i < 16 by omega]
    · by_cases h3 : i - 8 - 8 < 8
      · simp [h1, h2, show ¬ i < 16 by omega, show i - 16 < 8 by omega, show i - 8 - 8 = i - 16 by omega]
      · simp [h1, h2, h3, show ¬ i < 16 by omega, show ¬ i - 16 < 8 by omega,
          show i - 8 - 8 - 8 = i - 16 - 8 by omega]

theorem word16_hi (a b : Byte) : (word16 a b).extractLsb' 8 8 = a := by
  apply BitVec.eq_of_getLsbD_eq
  intro i hi
  simp only [word16, BitVec.getLsbD_append, BitVec.getLsbD_extractLsb']
  simp [hi]

theorem word16_lo (a b : Byte) : (word16 a b).extractLsb' 0 8 = b := by
  apply BitVec.eq_of_getLsbD_eq
  intro i hi
  simp only [word16, BitVec.getLsbD_append, BitVec.getLsbD_extractLsb']
  simp [hi]

@[simp] theorem bytes32_word32 (a b c d : Byte) : bytes32 (word32 a b c d) = [a, b, c, d] := by
  rw [word32_eq_header, bytes32_header, word16_hi, word16_lo]

theorem word32_bytes (w : U32) :
    word32 (w.extractLsb' 24 8) (w.extractLsb' 16 8) (w.extractLsb' 8 8) (w.extractLsb' 0 8) = w := by
  apply BitVec.eq_of_getLsbD_eq
  intro i hi
  simp only [word32, BitVec.getLsbD_append, BitVec.getLsbD_extractLsb']
  by_cases h1 : i < 8
  · simp [h1]
  · by_cases h2 : i - 8 < 8
    · simp [h1, h2, show 8 + (i - 8) = i by omega]
    · by_cases h3 : i - 8 - 8 < 8
      · simp [h1, h2, h3, show 16 + (i - 8 - 8) = i by omega]
      · simp [h1, h2, h3, show i - 8 - 8 - 8 < 8 by omega, show 24 + (i - 8 - 8 - 8) = i by omega]

@[simp] theorem bytes32_length (w : U32) : (bytes32 w).length = 4 := rfl

@[simp] theorem words64_length (v : U64) : (words64 v).length = 2 := rfl

theorem pair64_words64 (v : U64) : pair64 (v.extractLsb' 32 32) (v.extractLsb' 0 32) = v := by
  apply BitVec.eq_of_getLsbD_eq
  intro i hi
  simp only [pair64, BitVec.getLsbD_append, BitVec.getLsbD_extractLsb']
  by_cases h : i < 32
  · simp [h]
  · simp [h, show i - 32 < 32 by omega, show 32 + (i - 32) = i by omega]

theorem words64_pair64 (hi lo : U32) : words64 (pair64 hi lo) = [hi, lo] := by
  have h1 : (pair64 hi lo).extractLsb' 32 32 = hi := by
    apply BitVec.eq_of_getLsbD_eq
    intro i h
    simp only [pair64, BitVec.getLsbD_append, BitVec.getLsbD_extractLsb']
    simp [h]
  have h2 : (pair64 hi lo).extractLsb' 0 32 = lo := by
    apply BitVec.eq_of_getLsbD_eq
    intro i h
    simp only [pair64, BitVec.getLsbD_append, BitVec.getLsbD_extractLsb']
    simp [h]
  rw [words64, h1, h2]

@[simp] theorem bytesOfWords_nil : bytesOfWords [] = [] := rfl

@[simp] theorem bytesOfWords_cons (w : U32) (ws : List U32) : bytesOfWords (w :: ws) = bytes32 w ++ bytesOfWords ws := rfl

theorem bytesOfWords_length (ws : List U32) : (bytesOfWords ws).length = 4 * ws.length := by
  induction ws with
  | nil => rfl
  | cons w ws ih =>
    rw [bytesOfWords_cons, List.length_append, ih, bytes32_length, List.length_cons]
    omega

/-- Reading back the words that were laid out. -/
theorem wordsOf_bytesOfWords (ws : List U32) (rest : List Byte) :
    wordsOf ws.length (bytesOfWords ws ++ rest) = ws := by
  induction ws with
  | nil => simp [wordsOf]
  | cons w ws ih =>
    rw [bytesOfWords_cons]
    simp only [bytes32, List.length_cons, List.cons_append, List.nil_append, wordsOf, word32_bytes, ih]

/-- Laying out the words that were read, with what follows them. -/
theorem bytesOfWords_wordsOf (k : Nat) (bs : List Byte) (h : 4 * k ≤ bs.length) :
    bytesOfWords (wordsOf k bs) ++ bs.drop (4 * k) = bs := by
  induction k generalizing bs with
  | zero => simp [wordsOf]
  | succ k ih =>
    match bs, h with
    | a :: b :: c :: d :: rest, h =>
      have hk : 4 * k ≤ rest.length := by
        simp only [List.length_cons] at h
        omega
      have hd : 4 * (k + 1) = 4 * k + 4 := by omega
      simp only [wordsOf, bytesOfWords_cons, bytes32_word32, hd, List.drop_succ_cons, List.cons_append,
        List.nil_append, ih rest hk]
    | [], h => simp at h
    | [_], h => simp only [List.length_cons, List.length_nil] at h; omega
    | [_, _], h => simp only [List.length_cons, List.length_nil] at h; omega
    | [_, _, _], h => simp only [List.length_cons, List.length_nil] at h; omega

theorem wordsOf_length (k : Nat) (bs : List Byte) (h : 4 * k ≤ bs.length) : (wordsOf k bs).length = k := by
  have h1 := congrArg List.length (bytesOfWords_wordsOf k bs h)
  rw [List.length_append, bytesOfWords_length, List.length_drop] at h1
  omega

/-! Flag bits -/

theorem flagBits_bit0 (a b c : Bool) : (flagBits a b c).getLsbD 0 = a := by
  revert a b c; decide

theorem flagBits_bit1 (a b c : Bool) : (flagBits a b c).getLsbD 1 = b := by
  revert a b c; decide

theorem flagBits_bit2 (a b c : Bool) : (flagBits a b c).getLsbD 2 = c := by
  revert a b c; decide

/-- A FLAGS byte with no bit above bit 2 is the one its three bits make. -/
theorem flagBits_of_byte (f : Byte) (h : f &&& 0xF8#8 = 0#8) :
    flagBits (f.getLsbD 0) (f.getLsbD 1) (f.getLsbD 2) = f := by
  revert f; decide

end Sys2Proof.Laws
end

