-- ==== Sys2Proof/Laws/PerInstr.lean ====
section
/-! SUPPORT. Laws of the command set, proved command by command: every command's header selects its own row of the opcode
map (spec/30_encoding.md R118), and every descriptor is as long as R110 says. -/

namespace Sys2Proof.Laws

open Sys2Proof.Machine

/-- A row's mask and match word, field by field: UNIT and FUNC are always compared, FLAGS by the row's own mask, LEN only when
the command has no payload. -/
theorem row_fields (o : Op) :
    o.row.mask = 0xFF#8 ++ o.row.mask.extractLsb' 16 8 ++ (if o.row.hasPayload then 0#16 else 0xFFFF#16) ∧
      o.row.word = o.code ++ o.row.word.extractLsb' 16 8 ++ 0#16 := by
  cases o <;> decide

/-- A header selects a row when its FLAGS pass the row's mask and it has no LEN where there is no payload. -/
theorem header_selects (o : Op) (flags : Byte) (len : U16)
    (hf : flags &&& o.row.mask.extractLsb' 16 8 = o.row.word.extractLsb' 16 8)
    (hl : o.row.hasPayload = false → len = 0#16) : (o.code ++ flags ++ len) &&& o.row.mask = o.row.word := by
  obtain ⟨hm, hw⟩ := row_fields o
  rw [hm, hw, BitVec.and_append, BitVec.and_append, hf]
  congr 1
  · congr 1
    exact BitVec.and_allOnes
  · cases hp : o.row.hasPayload
    · rw [hl hp]
      rfl
    · exact BitVec.and_zero

/-! The header of a command selects its row. -/

/-- R118: `(H & mask) = match` for the command's own row. -/
def HeaderSelectsRow.Statement (i : Instr) : Prop := i.header &&& i.op.row.mask = i.op.row.word

theorem HeaderSelectsRow.sysReset :
    HeaderSelectsRow.Statement (.sysReset) :=
  header_selects .sysReset 0#8 _ (by decide) (fun _ => rfl)

theorem HeaderSelectsRow.w32Add (raw k : U32) :
    HeaderSelectsRow.Statement (.w32Add raw k) :=
  header_selects .w32Add 0#8 _ (by decide) (fun _ => rfl)

theorem HeaderSelectsRow.w32Wrap (n : U64) (zero : U32) :
    HeaderSelectsRow.Statement (.w32Wrap n zero) :=
  header_selects .w32Wrap 0#8 _ (by decide) (fun _ => rfl)

theorem HeaderSelectsRow.w32Unwrap (raw zero : U32) (checkpoint : U64) :
    HeaderSelectsRow.Statement (.w32Unwrap raw zero checkpoint) :=
  header_selects .w32Unwrap 0#8 _ (by decide) (fun _ => rfl)

theorem HeaderSelectsRow.bsPush (data : List Byte) :
    HeaderSelectsRow.Statement (.bsPush data) :=
  header_selects .bsPush (flagBits true false false) _ (by decide) (by intro h; exact absurd h (by decide))

theorem HeaderSelectsRow.bsClose :
    HeaderSelectsRow.Statement (.bsClose) :=
  header_selects .bsClose (flagBits true false false) _ (by decide) (fun _ => rfl)

theorem HeaderSelectsRow.bsSetError (sel : Stream) :
    HeaderSelectsRow.Statement (.bsSetError sel) :=
  header_selects .bsSetError (flagBits (streamBit sel) false false) _ (by cases sel <;> decide) (fun _ => rfl)

theorem HeaderSelectsRow.bsPeek :
    HeaderSelectsRow.Statement (.bsPeek) :=
  header_selects .bsPeek 0#8 _ (by decide) (fun _ => rfl)

theorem HeaderSelectsRow.bsPop (n : U64) :
    HeaderSelectsRow.Statement (.bsPop n) :=
  header_selects .bsPop 0#8 _ (by decide) (fun _ => rfl)

theorem HeaderSelectsRow.bsAvail (sel : Stream) :
    HeaderSelectsRow.Statement (.bsAvail sel) :=
  header_selects .bsAvail (flagBits (streamBit sel) false false) _ (by cases sel <;> decide) (fun _ => rfl)

theorem HeaderSelectsRow.bsPushed (sel : Stream) :
    HeaderSelectsRow.Statement (.bsPushed sel) :=
  header_selects .bsPushed (flagBits (streamBit sel) false false) _ (by cases sel <;> decide) (fun _ => rfl)

theorem HeaderSelectsRow.bsPopped (sel : Stream) :
    HeaderSelectsRow.Statement (.bsPopped sel) :=
  header_selects .bsPopped (flagBits (streamBit sel) false false) _ (by cases sel <;> decide) (fun _ => rfl)

theorem HeaderSelectsRow.bsBuffered (sel : Stream) :
    HeaderSelectsRow.Statement (.bsBuffered sel) :=
  header_selects .bsBuffered (flagBits (streamBit sel) false false) _ (by cases sel <;> decide) (fun _ => rfl)

theorem HeaderSelectsRow.bsIsClosed (sel : Stream) :
    HeaderSelectsRow.Statement (.bsIsClosed sel) :=
  header_selects .bsIsClosed (flagBits (streamBit sel) false false) _ (by cases sel <;> decide) (fun _ => rfl)

theorem HeaderSelectsRow.bsIsFinished (sel : Stream) :
    HeaderSelectsRow.Statement (.bsIsFinished sel) :=
  header_selects .bsIsFinished (flagBits (streamBit sel) false false) _ (by cases sel <;> decide) (fun _ => rfl)

theorem HeaderSelectsRow.bsHasError (sel : Stream) :
    HeaderSelectsRow.Statement (.bsHasError sel) :=
  header_selects .bsHasError (flagBits (streamBit sel) false false) _ (by cases sel <;> decide) (fun _ => rfl)

theorem HeaderSelectsRow.raInsert (firstIndex : U64) (data : List Byte) (isLast : Bool) :
    HeaderSelectsRow.Statement (.raInsert firstIndex data isLast) :=
  header_selects .raInsert (flagBits isLast false false) _ (by cases isLast <;> decide) (by intro h; exact absurd h (by decide))

theorem HeaderSelectsRow.raPending :
    HeaderSelectsRow.Statement (.raPending) :=
  header_selects .raPending 0#8 _ (by decide) (fun _ => rfl)

theorem HeaderSelectsRow.rxReceive (seqno : U32) (payload : List Byte) (syn fin : Bool) :
    HeaderSelectsRow.Statement (.rxReceive seqno payload syn fin) :=
  header_selects .rxReceive (flagBits syn fin false) _ (by cases syn <;> cases fin <;> decide) (by intro h; exact absurd h (by decide))

theorem HeaderSelectsRow.rxSend :
    HeaderSelectsRow.Statement (.rxSend) :=
  header_selects .rxSend 0#8 _ (by decide) (fun _ => rfl)

theorem HeaderSelectsRow.txPush :
    HeaderSelectsRow.Statement (.txPush) :=
  header_selects .txPush 0#8 _ (by decide) (fun _ => rfl)

theorem HeaderSelectsRow.txMaybeSend :
    HeaderSelectsRow.Statement (.txMaybeSend) :=
  header_selects .txMaybeSend 0#8 _ (by decide) (fun _ => rfl)

theorem HeaderSelectsRow.txReceive (ackno : Option U32) (window : U16) :
    HeaderSelectsRow.Statement (.txReceive ackno window) :=
  header_selects .txReceive (flagBits ackno.isSome false false) _ (by cases ackno.isSome <;> decide) (fun _ => rfl)

theorem HeaderSelectsRow.txTick (delta : U64) :
    HeaderSelectsRow.Statement (.txTick delta) :=
  header_selects .txTick 0#8 _ (by decide) (fun _ => rfl)

theorem HeaderSelectsRow.txSendEmpty :
    HeaderSelectsRow.Statement (.txSendEmpty) :=
  header_selects .txSendEmpty 0#8 _ (by decide) (fun _ => rfl)

theorem HeaderSelectsRow.txInFlight :
    HeaderSelectsRow.Statement (.txInFlight) :=
  header_selects .txInFlight 0#8 _ (by decide) (fun _ => rfl)

theorem HeaderSelectsRow.txRetx :
    HeaderSelectsRow.Statement (.txRetx) :=
  header_selects .txRetx 0#8 _ (by decide) (fun _ => rfl)

theorem HeaderSelectsRow.niSendDgram (iface nextHop : U32) (dgram : List Byte) :
    HeaderSelectsRow.Statement (.niSendDgram iface nextHop dgram) :=
  header_selects .niSendDgram 0#8 _ (by decide) (by intro h; exact absurd h (by decide))

theorem HeaderSelectsRow.niRecvFrame (iface : U32) (frame : List Byte) (toRouter : Bool) :
    HeaderSelectsRow.Statement (.niRecvFrame iface frame toRouter) :=
  header_selects .niRecvFrame (flagBits toRouter false false) _ (by cases toRouter <;> decide) (by intro h; exact absurd h (by decide))

theorem HeaderSelectsRow.niTick (iface : U32) (delta : U64) :
    HeaderSelectsRow.Statement (.niTick iface delta) :=
  header_selects .niTick 0#8 _ (by decide) (fun _ => rfl)

theorem HeaderSelectsRow.niMaybeSend (iface : U32) :
    HeaderSelectsRow.Statement (.niMaybeSend iface) :=
  header_selects .niMaybeSend 0#8 _ (by decide) (fun _ => rfl)

theorem HeaderSelectsRow.rtAddRoute (pfx : U32) (prefixLen : Fin 33) (nextHop : Option U32) (ifaceIdx : U32) :
    HeaderSelectsRow.Statement (.rtAddRoute pfx prefixLen nextHop ifaceIdx) :=
  header_selects .rtAddRoute (flagBits nextHop.isSome false false) _ (by cases nextHop.isSome <;> decide) (fun _ => rfl)

theorem HeaderSelectsRow.rtRoute :
    HeaderSelectsRow.Statement (.rtRoute) :=
  header_selects .rtRoute 0#8 _ (by decide) (fun _ => rfl)

/-! The length of a descriptor. -/

/-- R110: `4 + 4·K + LEN` bytes. -/
def DescriptorLength.Statement (i : Instr) : Prop :=
  (encode i).length = 4 + 4 * i.op.row.operandWords + i.payload.length

theorem encode_length (i : Instr) (h : i.operandWords.length = i.op.row.operandWords) :
    DescriptorLength.Statement i := by
  simp only [DescriptorLength.Statement, encode, List.length_append, bytes32_length, bytesOfWords_length, h]

theorem DescriptorLength.sysReset :
    DescriptorLength.Statement (.sysReset) :=
  encode_length _ rfl

theorem DescriptorLength.w32Add (raw k : U32) :
    DescriptorLength.Statement (.w32Add raw k) :=
  encode_length _ rfl

theorem DescriptorLength.w32Wrap (n : U64) (zero : U32) :
    DescriptorLength.Statement (.w32Wrap n zero) :=
  encode_length _ rfl

theorem DescriptorLength.w32Unwrap (raw zero : U32) (checkpoint : U64) :
    DescriptorLength.Statement (.w32Unwrap raw zero checkpoint) :=
  encode_length _ rfl

theorem DescriptorLength.bsPush (data : List Byte) :
    DescriptorLength.Statement (.bsPush data) :=
  encode_length _ rfl

theorem DescriptorLength.bsClose :
    DescriptorLength.Statement (.bsClose) :=
  encode_length _ rfl

theorem DescriptorLength.bsSetError (sel : Stream) :
    DescriptorLength.Statement (.bsSetError sel) :=
  encode_length _ rfl

theorem DescriptorLength.bsPeek :
    DescriptorLength.Statement (.bsPeek) :=
  encode_length _ rfl

theorem DescriptorLength.bsPop (n : U64) :
    DescriptorLength.Statement (.bsPop n) :=
  encode_length _ rfl

theorem DescriptorLength.bsAvail (sel : Stream) :
    DescriptorLength.Statement (.bsAvail sel) :=
  encode_length _ rfl

theorem DescriptorLength.bsPushed (sel : Stream) :
    DescriptorLength.Statement (.bsPushed sel) :=
  encode_length _ rfl

theorem DescriptorLength.bsPopped (sel : Stream) :
    DescriptorLength.Statement (.bsPopped sel) :=
  encode_length _ rfl

theorem DescriptorLength.bsBuffered (sel : Stream) :
    DescriptorLength.Statement (.bsBuffered sel) :=
  encode_length _ rfl

theorem DescriptorLength.bsIsClosed (sel : Stream) :
    DescriptorLength.Statement (.bsIsClosed sel) :=
  encode_length _ rfl

theorem DescriptorLength.bsIsFinished (sel : Stream) :
    DescriptorLength.Statement (.bsIsFinished sel) :=
  encode_length _ rfl

theorem DescriptorLength.bsHasError (sel : Stream) :
    DescriptorLength.Statement (.bsHasError sel) :=
  encode_length _ rfl

theorem DescriptorLength.raInsert (firstIndex : U64) (data : List Byte) (isLast : Bool) :
    DescriptorLength.Statement (.raInsert firstIndex data isLast) :=
  encode_length _ rfl

theorem DescriptorLength.raPending :
    DescriptorLength.Statement (.raPending) :=
  encode_length _ rfl

theorem DescriptorLength.rxReceive (seqno : U32) (payload : List Byte) (syn fin : Bool) :
    DescriptorLength.Statement (.rxReceive seqno payload syn fin) :=
  encode_length _ rfl

theorem DescriptorLength.rxSend :
    DescriptorLength.Statement (.rxSend) :=
  encode_length _ rfl

theorem DescriptorLength.txPush :
    DescriptorLength.Statement (.txPush) :=
  encode_length _ rfl

theorem DescriptorLength.txMaybeSend :
    DescriptorLength.Statement (.txMaybeSend) :=
  encode_length _ rfl

theorem DescriptorLength.txReceive (ackno : Option U32) (window : U16) :
    DescriptorLength.Statement (.txReceive ackno window) :=
  encode_length _ rfl

theorem DescriptorLength.txTick (delta : U64) :
    DescriptorLength.Statement (.txTick delta) :=
  encode_length _ rfl

theorem DescriptorLength.txSendEmpty :
    DescriptorLength.Statement (.txSendEmpty) :=
  encode_length _ rfl

theorem DescriptorLength.txInFlight :
    DescriptorLength.Statement (.txInFlight) :=
  encode_length _ rfl

theorem DescriptorLength.txRetx :
    DescriptorLength.Statement (.txRetx) :=
  encode_length _ rfl

theorem DescriptorLength.niSendDgram (iface nextHop : U32) (dgram : List Byte) :
    DescriptorLength.Statement (.niSendDgram iface nextHop dgram) :=
  encode_length _ rfl

theorem DescriptorLength.niRecvFrame (iface : U32) (frame : List Byte) (toRouter : Bool) :
    DescriptorLength.Statement (.niRecvFrame iface frame toRouter) :=
  encode_length _ rfl

theorem DescriptorLength.niTick (iface : U32) (delta : U64) :
    DescriptorLength.Statement (.niTick iface delta) :=
  encode_length _ rfl

theorem DescriptorLength.niMaybeSend (iface : U32) :
    DescriptorLength.Statement (.niMaybeSend iface) :=
  encode_length _ rfl

theorem DescriptorLength.rtAddRoute (pfx : U32) (prefixLen : Fin 33) (nextHop : Option U32) (ifaceIdx : U32) :
    DescriptorLength.Statement (.rtAddRoute pfx prefixLen nextHop ifaceIdx) :=
  encode_length _ rfl

theorem DescriptorLength.rtRoute :
    DescriptorLength.Statement (.rtRoute) :=
  encode_length _ rfl

end Sys2Proof.Laws
end

