-- ==== Sys2Proof/Laws/Decode.lean ====
section
/-! SUPPORT. How the decoder takes a descriptor apart (spec/30_encoding.md R110, R111, R114, R118), and what each operand check
accepts. -/

namespace Sys2Proof.Laws

open Sys2Proof.Machine

/-! Header fields -/

theorem header_code (a b : Byte) (w : U16) : (a ++ b ++ w).extractLsb' 24 8 = a := by
  have := congrArg (fun l => l.getD 0 0#8) (bytes32_header a b w)
  simpa [bytes32] using this

theorem headerFlags_header (a b : Byte) (w : U16) : headerFlags (a ++ b ++ w) = b := by
  have := congrArg (fun l => l.getD 1 0#8) (bytes32_header a b w)
  simpa [bytes32, headerFlags] using this

theorem headerLen_header (a b : Byte) (w : U16) : headerLen (a ++ b ++ w) = w := by
  apply BitVec.eq_of_getLsbD_eq
  intro i hi
  simp only [headerLen, BitVec.getLsbD_append, BitVec.getLsbD_extractLsb']
  simp [hi]

/-! Selecting the row -/

theorem ofCode_code (o : Op) : Op.ofCode o.code = some o := by
  cases o <;> decide

theorem code_of_ofCode {c : Byte} {o : Op} (h : Op.ofCode c = some o) : o.code = c := by
  have := List.find?_some h
  simpa using this

/-- The top byte of every mask is all ones, so a header that selects a row carries the row's code. -/
theorem code_of_selects {h : U32} {o : Op} (hs : h &&& o.row.mask = o.row.word) : h.extractLsb' 24 8 = o.code := by
  have hm : o.row.mask.extractLsb' 24 8 = 0xFF#8 := by cases o <;> decide
  have h1 : (h &&& o.row.mask).extractLsb' 24 8 = h.extractLsb' 24 8 &&& o.row.mask.extractLsb' 24 8 := by
    apply BitVec.eq_of_getLsbD_eq
    intro i hi
    simp [hi]
  rw [hs, hm] at h1
  rw [Op.code, h1]
  exact BitVec.and_allOnes.symm

/-- R114, R118: the decoder picks exactly the row the header matches. -/
theorem selectRow_iff (h : U32) (o : Op) : selectRow h = .ok o ↔ h &&& o.row.mask = o.row.word := by
  unfold selectRow
  constructor
  · intro hs
    cases hc : Op.ofCode (h.extractLsb' 24 8) with
    | none => simp [hc] at hs
    | some o' =>
      rw [hc] at hs
      simp only at hs
      split at hs
      · rename_i hm
        simp only [Except.ok.injEq] at hs
        subst hs
        exact hm
      · simp at hs
  · intro hm
    rw [code_of_selects hm, ofCode_code]
    simp [hm]

/-- Rows are disjoint: one header never selects two of them. -/
theorem rows_disjoint {h : U32} {o o' : Op} (ho : h &&& o.row.mask = o.row.word)
    (ho' : h &&& o'.row.mask = o'.row.word) : o = o' := by
  have h1 := (selectRow_iff h o).2 ho
  have h2 := (selectRow_iff h o').2 ho'
  rw [h1] at h2
  simpa using h2

/-- What the decoder does with a descriptor whose header selects row `o`. -/
theorem decode_of_selects (nIf : Nat) (b0 b1 b2 b3 : Byte) (rest : List Byte) (o : Op)
    (ho : word32 b0 b1 b2 b3 &&& o.row.mask = o.row.word) :
    decode nIf (b0 :: b1 :: b2 :: b3 :: rest) =
      if rest.length = 4 * o.row.operandWords + (word16 b2 b3).toNat then
        assemble nIf o b1 (wordsOf o.row.operandWords rest) (rest.drop (4 * o.row.operandWords))
      else .error .wrongLength := by
  have hf : headerFlags (word32 b0 b1 b2 b3) = b1 := by rw [word32_eq_header, headerFlags_header]
  have hl : headerLen (word32 b0 b1 b2 b3) = word16 b2 b3 := by rw [word32_eq_header, headerLen_header]
  unfold decode
  simp only [(selectRow_iff _ o).2 ho, descriptorLength, hf, hl]
  exact if_congr (by omega) rfl rfl

/-- What the decoder does with a descriptor whose header selects no row. -/
theorem decode_of_selects_none (nIf : Nat) (b0 b1 b2 b3 : Byte) (rest : List Byte) (why : IllFormed)
    (h : selectRow (word32 b0 b1 b2 b3) = .error why) :
    decode nIf (b0 :: b1 :: b2 :: b3 :: rest) = .error why := by
  simp only [decode, h]

/-- Whatever decodes has a header, selects one row, is as long as that row says, and assembles. -/
theorem decode_ok {nIf : Nat} {d : List Byte} {i : Instr} (h : decode nIf d = .ok i) :
    ∃ (b0 b1 b2 b3 : Byte) (rest : List Byte) (o : Op),
      d = b0 :: b1 :: b2 :: b3 :: rest ∧ word32 b0 b1 b2 b3 &&& o.row.mask = o.row.word ∧
        rest.length = 4 * o.row.operandWords + (word16 b2 b3).toNat ∧
        assemble nIf o b1 (wordsOf o.row.operandWords rest) (rest.drop (4 * o.row.operandWords)) = .ok i := by
  rcases d with _ | ⟨b0, _ | ⟨b1, _ | ⟨b2, _ | ⟨b3, rest⟩⟩⟩⟩
  · cases h
  · cases h
  · cases h
  · cases h
  · cases hs : selectRow (word32 b0 b1 b2 b3) with
    | error why =>
      rw [decode_of_selects_none nIf b0 b1 b2 b3 rest why hs] at h
      cases h
    | ok o =>
      have ho := (selectRow_iff _ o).1 hs
      rw [decode_of_selects nIf b0 b1 b2 b3 rest o ho] at h
      by_cases hl : rest.length = 4 * o.row.operandWords + (word16 b2 b3).toNat
      · rw [if_pos hl] at h
        exact ⟨b0, b1, b2, b3, rest, o, rfl, ho, hl, h⟩
      · rw [if_neg hl] at h
        cases h

/-- Every command's header selects its own row. -/
theorem header_selects_row (i : Instr) : i.header &&& i.op.row.mask = i.op.row.word := by
  cases i with
  | sysReset => exact (HeaderSelectsRow.sysReset)
  | w32Add a b => exact (HeaderSelectsRow.w32Add a b)
  | w32Wrap a b => exact (HeaderSelectsRow.w32Wrap a b)
  | w32Unwrap a b c => exact (HeaderSelectsRow.w32Unwrap a b c)
  | bsPush a => exact (HeaderSelectsRow.bsPush a)
  | bsClose => exact (HeaderSelectsRow.bsClose)
  | bsSetError a => exact (HeaderSelectsRow.bsSetError a)
  | bsPeek => exact (HeaderSelectsRow.bsPeek)
  | bsPop a => exact (HeaderSelectsRow.bsPop a)
  | bsAvail a => exact (HeaderSelectsRow.bsAvail a)
  | bsPushed a => exact (HeaderSelectsRow.bsPushed a)
  | bsPopped a => exact (HeaderSelectsRow.bsPopped a)
  | bsBuffered a => exact (HeaderSelectsRow.bsBuffered a)
  | bsIsClosed a => exact (HeaderSelectsRow.bsIsClosed a)
  | bsIsFinished a => exact (HeaderSelectsRow.bsIsFinished a)
  | bsHasError a => exact (HeaderSelectsRow.bsHasError a)
  | raInsert a b c => exact (HeaderSelectsRow.raInsert a b c)
  | raPending => exact (HeaderSelectsRow.raPending)
  | rxReceive a b c d => exact (HeaderSelectsRow.rxReceive a b c d)
  | rxSend => exact (HeaderSelectsRow.rxSend)
  | txPush => exact (HeaderSelectsRow.txPush)
  | txMaybeSend => exact (HeaderSelectsRow.txMaybeSend)
  | txReceive a b => exact (HeaderSelectsRow.txReceive a b)
  | txTick a => exact (HeaderSelectsRow.txTick a)
  | txSendEmpty => exact (HeaderSelectsRow.txSendEmpty)
  | txInFlight => exact (HeaderSelectsRow.txInFlight)
  | txRetx => exact (HeaderSelectsRow.txRetx)
  | niSendDgram a b c => exact (HeaderSelectsRow.niSendDgram a b c)
  | niRecvFrame a b c => exact (HeaderSelectsRow.niRecvFrame a b c)
  | niTick a b => exact (HeaderSelectsRow.niTick a b)
  | niMaybeSend a => exact (HeaderSelectsRow.niMaybeSend a)
  | rtAddRoute a b c d => exact (HeaderSelectsRow.rtAddRoute a b c d)
  | rtRoute => exact (HeaderSelectsRow.rtRoute)

/-- Every command lays out exactly its row's operand words. -/
theorem operandWords_length (i : Instr) : i.operandWords.length = i.op.row.operandWords := by
  cases i <;> rfl

/-- A descriptor whose header selects row `o` has FLAGS that pass the row's mask, and no LEN where there is no payload. -/
theorem fields_of_selects {o : Op} {b0 b1 b2 b3 : Byte} (h : word32 b0 b1 b2 b3 &&& o.row.mask = o.row.word) :
    b0 = o.code ∧ b1 &&& o.row.mask.extractLsb' 16 8 = o.row.word.extractLsb' 16 8 ∧
      (o.row.hasPayload = false → word16 b2 b3 = 0#16) := by
  have h0 := code_of_selects h
  obtain ⟨hm, hw⟩ := row_fields o
  rw [hm, hw, word32_eq_header, BitVec.and_append, BitVec.and_append] at h
  have h1 := congrArg headerFlags h
  rw [headerFlags_header, headerFlags_header] at h1
  have h2 := congrArg headerLen h
  rw [headerLen_header, headerLen_header] at h2
  rw [word32_eq_header, header_code] at h0
  refine ⟨h0, h1, ?_⟩
  intro hp
  rw [hp, if_neg (by simp)] at h2
  rw [← h2]
  exact BitVec.and_allOnes.symm

/-! Operand checks -/

theorem ifaceOperand_ok {nIf : Nat} {w : U32} {k : U32 → Instr} {i : Instr} :
    ifaceOperand nIf w k = .ok i ↔ w.toNat < nIf ∧ k w = i := by
  unfold ifaceOperand
  split <;> simp_all

theorem windowOperand_ok {w : U32} {k : U16 → Instr} {i : Instr} :
    windowOperand w k = .ok i ↔ w.toNat < 65536 ∧ k (w.extractLsb' 0 16) = i := by
  have hw : w.extractLsb' 16 16 = 0#16 ↔ w.toNat < 65536 := by
    have hlt := w.isLt
    rw [← BitVec.toNat_inj]
    simp only [BitVec.extractLsb'_toNat, BitVec.toNat_ofNat, Nat.shiftRight_eq_div_pow]
    omega
  unfold windowOperand
  by_cases h : w.extractLsb' 16 16 = 0#16
  · simp [h, hw.1 h]
  · simp [h, mt hw.2 h]

theorem prefixLenOperand_ok {w : U32} {k : Fin 33 → Except IllFormed Instr} {i : Instr} :
    prefixLenOperand w k = .ok i ↔ ∃ h : w.toNat < 33, k ⟨w.toNat, h⟩ = .ok i := by
  unfold prefixLenOperand
  split
  · rename_i h
    simp [h]
  · rename_i h
    simp [h]

theorem optOperand_ok {present : Bool} {w : U32} {k : Option U32 → Except IllFormed Instr} {i : Instr} :
    optOperand present w k = .ok i ↔
      (present = false → w = 0#32) ∧ k (if present then some w else none) = .ok i := by
  unfold optOperand
  cases present
  · by_cases h : w = 0#32 <;> simp [h]
  · simp

end Sys2Proof.Laws
end

