-- ==== Sys2Proof/Laws/State.lean ====
section
/-! SUPPORT. One lemma per field per update of the state and of its units, each true by unfolding, so that no
later proof unfolds a record update. -/

namespace Sys2Proof.Laws

open Sys2Proof.Machine

/-! `setIbs` -/

@[simp] theorem setIbs_params (s : State) (b : ByteStream) : (s.setIbs b).params = s.params := rfl

@[simp] theorem setIbs_draws (s : State) (b : ByteStream) : (s.setIbs b).draws = s.draws := rfl

@[simp] theorem setIbs_cmds (s : State) (b : ByteStream) : (s.setIbs b).cmds = s.cmds := rfl

@[simp] theorem setIbs_resps (s : State) (b : ByteStream) : (s.setIbs b).resps = s.resps := rfl

@[simp] theorem setIbs_ibs (s : State) (b : ByteStream) : (s.setIbs b).ibs = b := rfl

@[simp] theorem setIbs_obs (s : State) (b : ByteStream) : (s.setIbs b).obs = s.obs := rfl

@[simp] theorem setIbs_ra (s : State) (b : ByteStream) : (s.setIbs b).ra = s.ra := rfl

@[simp] theorem setIbs_rx (s : State) (b : ByteStream) : (s.setIbs b).rx = s.rx := rfl

@[simp] theorem setIbs_tx (s : State) (b : ByteStream) : (s.setIbs b).tx = s.tx := rfl

@[simp] theorem setIbs_ni (s : State) (b : ByteStream) : (s.setIbs b).ni = s.ni := rfl

@[simp] theorem setIbs_rt (s : State) (b : ByteStream) : (s.setIbs b).rt = s.rt := rfl

/-! `setObs` -/

@[simp] theorem setObs_params (s : State) (b : ByteStream) : (s.setObs b).params = s.params := rfl

@[simp] theorem setObs_draws (s : State) (b : ByteStream) : (s.setObs b).draws = s.draws := rfl

@[simp] theorem setObs_cmds (s : State) (b : ByteStream) : (s.setObs b).cmds = s.cmds := rfl

@[simp] theorem setObs_resps (s : State) (b : ByteStream) : (s.setObs b).resps = s.resps := rfl

@[simp] theorem setObs_ibs (s : State) (b : ByteStream) : (s.setObs b).ibs = s.ibs := rfl

@[simp] theorem setObs_obs (s : State) (b : ByteStream) : (s.setObs b).obs = b := rfl

@[simp] theorem setObs_ra (s : State) (b : ByteStream) : (s.setObs b).ra = s.ra := rfl

@[simp] theorem setObs_rx (s : State) (b : ByteStream) : (s.setObs b).rx = s.rx := rfl

@[simp] theorem setObs_tx (s : State) (b : ByteStream) : (s.setObs b).tx = s.tx := rfl

@[simp] theorem setObs_ni (s : State) (b : ByteStream) : (s.setObs b).ni = s.ni := rfl

@[simp] theorem setObs_rt (s : State) (b : ByteStream) : (s.setObs b).rt = s.rt := rfl

/-! `setRa` -/

@[simp] theorem setRa_params (s : State) (r : Reassembler) : (s.setRa r).params = s.params := rfl

@[simp] theorem setRa_draws (s : State) (r : Reassembler) : (s.setRa r).draws = s.draws := rfl

@[simp] theorem setRa_cmds (s : State) (r : Reassembler) : (s.setRa r).cmds = s.cmds := rfl

@[simp] theorem setRa_resps (s : State) (r : Reassembler) : (s.setRa r).resps = s.resps := rfl

@[simp] theorem setRa_ibs (s : State) (r : Reassembler) : (s.setRa r).ibs = s.ibs := rfl

@[simp] theorem setRa_obs (s : State) (r : Reassembler) : (s.setRa r).obs = s.obs := rfl

@[simp] theorem setRa_ra (s : State) (r : Reassembler) : (s.setRa r).ra = r := rfl

@[simp] theorem setRa_rx (s : State) (r : Reassembler) : (s.setRa r).rx = s.rx := rfl

@[simp] theorem setRa_tx (s : State) (r : Reassembler) : (s.setRa r).tx = s.tx := rfl

@[simp] theorem setRa_ni (s : State) (r : Reassembler) : (s.setRa r).ni = s.ni := rfl

@[simp] theorem setRa_rt (s : State) (r : Reassembler) : (s.setRa r).rt = s.rt := rfl

/-! `setRx` -/

@[simp] theorem setRx_params (s : State) (r : Receiver) : (s.setRx r).params = s.params := rfl

@[simp] theorem setRx_draws (s : State) (r : Receiver) : (s.setRx r).draws = s.draws := rfl

@[simp] theorem setRx_cmds (s : State) (r : Receiver) : (s.setRx r).cmds = s.cmds := rfl

@[simp] theorem setRx_resps (s : State) (r : Receiver) : (s.setRx r).resps = s.resps := rfl

@[simp] theorem setRx_ibs (s : State) (r : Receiver) : (s.setRx r).ibs = s.ibs := rfl

@[simp] theorem setRx_obs (s : State) (r : Receiver) : (s.setRx r).obs = s.obs := rfl

@[simp] theorem setRx_ra (s : State) (r : Receiver) : (s.setRx r).ra = s.ra := rfl

@[simp] theorem setRx_rx (s : State) (r : Receiver) : (s.setRx r).rx = r := rfl

@[simp] theorem setRx_tx (s : State) (r : Receiver) : (s.setRx r).tx = s.tx := rfl

@[simp] theorem setRx_ni (s : State) (r : Receiver) : (s.setRx r).ni = s.ni := rfl

@[simp] theorem setRx_rt (s : State) (r : Receiver) : (s.setRx r).rt = s.rt := rfl

/-! `setTx` -/

@[simp] theorem setTx_params (s : State) (t : Sender) : (s.setTx t).params = s.params := rfl

@[simp] theorem setTx_draws (s : State) (t : Sender) : (s.setTx t).draws = s.draws := rfl

@[simp] theorem setTx_cmds (s : State) (t : Sender) : (s.setTx t).cmds = s.cmds := rfl

@[simp] theorem setTx_resps (s : State) (t : Sender) : (s.setTx t).resps = s.resps := rfl

@[simp] theorem setTx_ibs (s : State) (t : Sender) : (s.setTx t).ibs = s.ibs := rfl

@[simp] theorem setTx_obs (s : State) (t : Sender) : (s.setTx t).obs = s.obs := rfl

@[simp] theorem setTx_ra (s : State) (t : Sender) : (s.setTx t).ra = s.ra := rfl

@[simp] theorem setTx_rx (s : State) (t : Sender) : (s.setTx t).rx = s.rx := rfl

@[simp] theorem setTx_tx (s : State) (t : Sender) : (s.setTx t).tx = t := rfl

@[simp] theorem setTx_ni (s : State) (t : Sender) : (s.setTx t).ni = s.ni := rfl

@[simp] theorem setTx_rt (s : State) (t : Sender) : (s.setTx t).rt = s.rt := rfl

/-! `setNi` -/

@[simp] theorem setNi_params (s : State) (ni : List NetIf) : (s.setNi ni).params = s.params := rfl

@[simp] theorem setNi_draws (s : State) (ni : List NetIf) : (s.setNi ni).draws = s.draws := rfl

@[simp] theorem setNi_cmds (s : State) (ni : List NetIf) : (s.setNi ni).cmds = s.cmds := rfl

@[simp] theorem setNi_resps (s : State) (ni : List NetIf) : (s.setNi ni).resps = s.resps := rfl

@[simp] theorem setNi_ibs (s : State) (ni : List NetIf) : (s.setNi ni).ibs = s.ibs := rfl

@[simp] theorem setNi_obs (s : State) (ni : List NetIf) : (s.setNi ni).obs = s.obs := rfl

@[simp] theorem setNi_ra (s : State) (ni : List NetIf) : (s.setNi ni).ra = s.ra := rfl

@[simp] theorem setNi_rx (s : State) (ni : List NetIf) : (s.setNi ni).rx = s.rx := rfl

@[simp] theorem setNi_tx (s : State) (ni : List NetIf) : (s.setNi ni).tx = s.tx := rfl

@[simp] theorem setNi_ni (s : State) (ni : List NetIf) : (s.setNi ni).ni = ni := rfl

@[simp] theorem setNi_rt (s : State) (ni : List NetIf) : (s.setNi ni).rt = s.rt := rfl

/-! `setIf` -/

@[simp] theorem setIf_params (s : State) (i : Nat) (n : NetIf) : (s.setIf i n).params = s.params := rfl

@[simp] theorem setIf_draws (s : State) (i : Nat) (n : NetIf) : (s.setIf i n).draws = s.draws := rfl

@[simp] theorem setIf_cmds (s : State) (i : Nat) (n : NetIf) : (s.setIf i n).cmds = s.cmds := rfl

@[simp] theorem setIf_resps (s : State) (i : Nat) (n : NetIf) : (s.setIf i n).resps = s.resps := rfl

@[simp] theorem setIf_ibs (s : State) (i : Nat) (n : NetIf) : (s.setIf i n).ibs = s.ibs := rfl

@[simp] theorem setIf_obs (s : State) (i : Nat) (n : NetIf) : (s.setIf i n).obs = s.obs := rfl

@[simp] theorem setIf_ra (s : State) (i : Nat) (n : NetIf) : (s.setIf i n).ra = s.ra := rfl

@[simp] theorem setIf_rx (s : State) (i : Nat) (n : NetIf) : (s.setIf i n).rx = s.rx := rfl

@[simp] theorem setIf_tx (s : State) (i : Nat) (n : NetIf) : (s.setIf i n).tx = s.tx := rfl

@[simp] theorem setIf_ni (s : State) (i : Nat) (n : NetIf) : (s.setIf i n).ni = s.ni.set i n := rfl

@[simp] theorem setIf_rt (s : State) (i : Nat) (n : NetIf) : (s.setIf i n).rt = s.rt := rfl

/-! `setRoutes` -/

@[simp] theorem setRoutes_params (s : State) (rs : List RouteInfo) : (s.setRoutes rs).params = s.params := rfl

@[simp] theorem setRoutes_draws (s : State) (rs : List RouteInfo) : (s.setRoutes rs).draws = s.draws := rfl

@[simp] theorem setRoutes_cmds (s : State) (rs : List RouteInfo) : (s.setRoutes rs).cmds = s.cmds := rfl

@[simp] theorem setRoutes_resps (s : State) (rs : List RouteInfo) : (s.setRoutes rs).resps = s.resps := rfl

@[simp] theorem setRoutes_ibs (s : State) (rs : List RouteInfo) : (s.setRoutes rs).ibs = s.ibs := rfl

@[simp] theorem setRoutes_obs (s : State) (rs : List RouteInfo) : (s.setRoutes rs).obs = s.obs := rfl

@[simp] theorem setRoutes_ra (s : State) (rs : List RouteInfo) : (s.setRoutes rs).ra = s.ra := rfl

@[simp] theorem setRoutes_rx (s : State) (rs : List RouteInfo) : (s.setRoutes rs).rx = s.rx := rfl

@[simp] theorem setRoutes_tx (s : State) (rs : List RouteInfo) : (s.setRoutes rs).tx = s.tx := rfl

@[simp] theorem setRoutes_ni (s : State) (rs : List RouteInfo) : (s.setRoutes rs).ni = s.ni := rfl

@[simp] theorem setRoutes_rt (s : State) (rs : List RouteInfo) : (s.setRoutes rs).rt = { routes := rs } := rfl

/-! `respond` -/

@[simp] theorem respond_params (s : State) (r : Response) : (s.respond r).params = s.params := rfl

@[simp] theorem respond_draws (s : State) (r : Response) : (s.respond r).draws = r.drawsAfter s.draws := rfl

@[simp] theorem respond_cmds (s : State) (r : Response) : (s.respond r).cmds = s.cmds := rfl

@[simp] theorem respond_resps (s : State) (r : Response) : (s.respond r).resps = s.resps ++ [r.bytes (r.rlen s.draws)] := rfl

@[simp] theorem respond_ibs (s : State) (r : Response) : (s.respond r).ibs = s.ibs := rfl

@[simp] theorem respond_obs (s : State) (r : Response) : (s.respond r).obs = s.obs := rfl

@[simp] theorem respond_ra (s : State) (r : Response) : (s.respond r).ra = s.ra := rfl

@[simp] theorem respond_rx (s : State) (r : Response) : (s.respond r).rx = s.rx := rfl

@[simp] theorem respond_tx (s : State) (r : Response) : (s.respond r).tx = s.tx := rfl

@[simp] theorem respond_ni (s : State) (r : Response) : (s.respond r).ni = s.ni := rfl

@[simp] theorem respond_rt (s : State) (r : Response) : (s.respond r).rt = s.rt := rfl

/-! `setStream`, `stream` -/

@[simp] theorem setStream_params (s : State) (sel : Stream) (b : ByteStream) :
    (s.setStream sel b).params = s.params := by cases sel <;> rfl

@[simp] theorem setStream_draws (s : State) (sel : Stream) (b : ByteStream) :
    (s.setStream sel b).draws = s.draws := by cases sel <;> rfl

@[simp] theorem setStream_cmds (s : State) (sel : Stream) (b : ByteStream) :
    (s.setStream sel b).cmds = s.cmds := by cases sel <;> rfl

@[simp] theorem setStream_resps (s : State) (sel : Stream) (b : ByteStream) :
    (s.setStream sel b).resps = s.resps := by cases sel <;> rfl

@[simp] theorem setStream_ra (s : State) (sel : Stream) (b : ByteStream) :
    (s.setStream sel b).ra = s.ra := by cases sel <;> rfl

@[simp] theorem setStream_rx (s : State) (sel : Stream) (b : ByteStream) :
    (s.setStream sel b).rx = s.rx := by cases sel <;> rfl

@[simp] theorem setStream_tx (s : State) (sel : Stream) (b : ByteStream) :
    (s.setStream sel b).tx = s.tx := by cases sel <;> rfl

@[simp] theorem setStream_ni (s : State) (sel : Stream) (b : ByteStream) :
    (s.setStream sel b).ni = s.ni := by cases sel <;> rfl

@[simp] theorem setStream_rt (s : State) (sel : Stream) (b : ByteStream) :
    (s.setStream sel b).rt = s.rt := by cases sel <;> rfl

@[simp] theorem stream_setStream (s : State) (sel sel' : Stream) (b : ByteStream) :
    (s.setStream sel b).stream sel' = if sel' = sel then b else s.stream sel' := by
  cases sel <;> cases sel' <;> rfl

@[simp] theorem stream_ibs (s : State) : s.stream .ibs = s.ibs := rfl

@[simp] theorem stream_obs (s : State) : s.stream .obs = s.obs := rfl

@[simp] theorem setStream_ibs (s : State) (b : ByteStream) : s.setStream .ibs b = s.setIbs b := rfl

@[simp] theorem setStream_obs (s : State) (b : ByteStream) : s.setStream .obs b = s.setObs b := rfl

/-! `ByteStream` -/

@[simp] theorem push_cap (b : ByteStream) (data : List Byte) : (b.push data).cap = b.cap := rfl

@[simp] theorem push_buffer (b : ByteStream) (data : List Byte) :
    (b.push data).buffer = b.buffer ++ data.take (b.accepts data) := rfl

@[simp] theorem push_pushed (b : ByteStream) (data : List Byte) :
    (b.push data).pushed = b.pushed + b.accepts data := rfl

@[simp] theorem push_popped (b : ByteStream) (data : List Byte) : (b.push data).popped = b.popped := rfl

@[simp] theorem push_closed (b : ByteStream) (data : List Byte) : (b.push data).closed = b.closed := rfl

@[simp] theorem push_error (b : ByteStream) (data : List Byte) : (b.push data).error = b.error := rfl

@[simp] theorem pop_cap (b : ByteStream) (n : Nat) : (b.pop n).cap = b.cap := rfl

@[simp] theorem pop_buffer (b : ByteStream) (n : Nat) :
    (b.pop n).buffer = b.buffer.drop (min n b.buffer.length) := rfl

@[simp] theorem pop_pushed (b : ByteStream) (n : Nat) : (b.pop n).pushed = b.pushed := rfl

@[simp] theorem pop_popped (b : ByteStream) (n : Nat) : (b.pop n).popped = b.popped + min n b.buffer.length := rfl

@[simp] theorem pop_closed (b : ByteStream) (n : Nat) : (b.pop n).closed = b.closed := rfl

@[simp] theorem pop_error (b : ByteStream) (n : Nat) : (b.pop n).error = b.error := rfl

@[simp] theorem close_cap (b : ByteStream) : (b.close).cap = b.cap := rfl

@[simp] theorem close_buffer (b : ByteStream) : (b.close).buffer = b.buffer := rfl

@[simp] theorem close_pushed (b : ByteStream) : (b.close).pushed = b.pushed := rfl

@[simp] theorem close_popped (b : ByteStream) : (b.close).popped = b.popped := rfl

@[simp] theorem close_closed (b : ByteStream) : (b.close).closed = true := rfl

@[simp] theorem close_error (b : ByteStream) : (b.close).error = b.error := rfl

@[simp] theorem setError_cap (b : ByteStream) : (b.setError).cap = b.cap := rfl

@[simp] theorem setError_buffer (b : ByteStream) : (b.setError).buffer = b.buffer := rfl

@[simp] theorem setError_pushed (b : ByteStream) : (b.setError).pushed = b.pushed := rfl

@[simp] theorem setError_popped (b : ByteStream) : (b.setError).popped = b.popped := rfl

@[simp] theorem setError_closed (b : ByteStream) : (b.setError).closed = b.closed := rfl

@[simp] theorem setError_error (b : ByteStream) : (b.setError).error = true := rfl

/-! `Reassembler`, `Receiver` -/

@[simp] theorem markLast_store (r : Reassembler) (n : Nat) : (r.markLast n).store = r.store := rfl

@[simp] theorem markLast_pending (r : Reassembler) (n : Nat) : (r.markLast n).pending = r.pending := rfl

@[simp] theorem markLast_lastSeen (r : Reassembler) (n : Nat) : (r.markLast n).lastSeen = true := rfl

@[simp] theorem markLast_lastIndex (r : Reassembler) (n : Nat) : (r.markLast n).lastIndex = n := rfl

@[simp] theorem takeSyn_isnReceived (r : Receiver) (q : U32) : (r.takeSyn q).isnReceived = true := rfl

@[simp] theorem takeSyn_zero (r : Receiver) (q : U32) : (r.takeSyn q).zero = q := rfl

end Sys2Proof.Laws
end

