-- ==== Sys2Proof/Laws/Table.lean ====
section
/-! SUPPORT. What the operations on tables and on the fragment store do: one lemma says what each reads as
afterwards, one that it keeps the canonical form. -/

namespace Sys2Proof.Laws

open Sys2Proof.Machine

variable {α β : Type}

theorem table_wf_iff_pairwise (m : Table α) : Table.wf m = true ↔ m.Pairwise (fun a b => a.1 < b.1) := by
  induction m with
  | nil => simp [Table.wf]
  | cons c m ih =>
    cases m with
    | nil => simp [Table.wf]
    | cons d m =>
      simp only [Table.wf, Bool.and_eq_true, decide_eq_true_eq, ih, List.pairwise_cons]
      constructor
      · rintro ⟨hlt, hd, hm⟩
        refine ⟨?_, hd, hm⟩
        intro x hx
        rcases List.mem_cons.1 hx with rfl | hx
        · exact hlt
        · exact hlt.trans (hd x hx)
      · rintro ⟨hc, hd, hm⟩
        exact ⟨hc d (by simp), hd, hm⟩

@[simp] theorem table_wf_nil : Table.wf ([] : Table α) = true := rfl

@[simp] theorem table_read_nil (k : Nat) : Table.read ([] : Table α) k = none := rfl

theorem table_read_cons (c : Nat × α) (m : Table α) (k : Nat) :
    Table.read (c :: m) k = if c.1 = k then some c.2 else Table.read m k := rfl

theorem table_has_eq (m : Table α) (k : Nat) : Table.has m k = (Table.read m k).isSome := rfl

theorem table_has_iff (m : Table α) (k : Nat) : Table.has m k = true ↔ ∃ c ∈ m, c.1 = k := by
  induction m with
  | nil => simp [Table.has]
  | cons c m ih =>
    simp only [Table.has, table_read_cons] at *
    by_cases h : c.1 = k
    · simp [h]
    · simp [h, ih]

theorem table_has_false_iff (m : Table α) (k : Nat) : Table.has m k = false ↔ ∀ c ∈ m, c.1 ≠ k := by
  rw [← Bool.not_eq_true, table_has_iff]
  constructor
  · exact fun h c hc hk => h ⟨c, hc, hk⟩
  · rintro h ⟨c, hc, hk⟩
    exact h c hc hk

theorem table_read_none_iff (m : Table α) (k : Nat) : Table.read m k = none ↔ ∀ c ∈ m, c.1 ≠ k := by
  rw [← table_has_false_iff, table_has_eq]
  cases Table.read m k <;> simp

theorem table_mem_of_read {m : Table α} {k : Nat} {v : α} (h : Table.read m k = some v) : (k, v) ∈ m := by
  induction m with
  | nil => simp at h
  | cons c m ih =>
    rw [table_read_cons] at h
    by_cases hk : c.1 = k
    · subst hk
      simp only [if_true, Option.some.injEq] at h
      subst h
      simp
    · simp only [hk, if_false] at h
      exact List.mem_cons_of_mem _ (ih h)

/-- In a canonical table the entries are exactly what reads back. -/
theorem table_mem_iff_read {m : Table α} (hm : Table.wf m = true) (k : Nat) (v : α) :
    (k, v) ∈ m ↔ Table.read m k = some v := by
  refine ⟨?_, table_mem_of_read⟩
  rw [table_wf_iff_pairwise] at hm
  induction m with
  | nil => simp
  | cons c m ih =>
    intro h
    rw [List.pairwise_cons] at hm
    rw [table_read_cons]
    rcases List.mem_cons.1 h with h | h
    · subst h
      simp
    · have hlt := hm.1 _ h
      simp only [Nat.ne_of_lt hlt, if_false]
      exact ih hm.2 h

/-! `write` -/

theorem table_read_write (m : Table α) (k : Nat) (v : α) (i : Nat) :
    Table.read (Table.write m k v) i = if i = k then some v else Table.read m i := by
  induction m with
  | nil =>
    simp only [Table.write, table_read_cons, table_read_nil]
    by_cases h : k = i
    · simp [h]
    · simp [h, Ne.symm h]
  | cons c m ih =>
    obtain ⟨k', v'⟩ := c
    simp only [Table.write]
    by_cases h1 : k < k'
    · simp only [h1, if_true, table_read_cons]
      by_cases h : k = i
      · simp [h]
      · simp [h, Ne.symm h]
    · by_cases h2 : k = k'
      · simp only [h2, lt_irrefl, if_false, if_true, table_read_cons]
        by_cases h : k' = i
        · simp [h]
        · simp [h, Ne.symm h]
      · simp only [h1, h2, if_false, table_read_cons, ih]
        by_cases h3 : k' = i
        · subst h3
          simp [Ne.symm h2]
        · simp [h3]

theorem table_mem_write {m : Table α} {k : Nat} {v : α} {c : Nat × α} (h : c ∈ Table.write m k v) :
    c = (k, v) ∨ c ∈ m := by
  induction m with
  | nil => simpa [Table.write] using h
  | cons d m ih =>
    obtain ⟨k', v'⟩ := d
    simp only [Table.write] at h
    split_ifs at h with h1 h2
    · rcases List.mem_cons.1 h with h | h
      · exact .inl h
      · exact .inr h
    · rcases List.mem_cons.1 h with h | h
      · exact .inl h
      · exact .inr (List.mem_cons_of_mem _ h)
    · rcases List.mem_cons.1 h with h | h
      · exact .inr (by simp [h])
      · rcases ih h with h | h
        · exact .inl h
        · exact .inr (List.mem_cons_of_mem _ h)

theorem table_wf_write {m : Table α} (hm : Table.wf m = true) (k : Nat) (v : α) :
    Table.wf (Table.write m k v) = true := by
  rw [table_wf_iff_pairwise] at *
  induction m with
  | nil => simp [Table.write]
  | cons d m ih =>
    obtain ⟨k', v'⟩ := d
    rw [List.pairwise_cons] at hm
    simp only [Table.write]
    split_ifs with h1 h2
    · rw [List.pairwise_cons]
      refine ⟨?_, List.pairwise_cons.2 hm⟩
      intro x hx
      rcases List.mem_cons.1 hx with rfl | hx
      · exact h1
      · exact h1.trans (hm.1 x hx)
    · subst h2
      exact List.pairwise_cons.2 hm
    · rw [List.pairwise_cons]
      refine ⟨?_, ih hm.2⟩
      intro x hx
      rcases table_mem_write hx with rfl | hx
      · simp only
        omega
      · exact hm.1 x hx

theorem table_length_write (m : Table α) (hm : Table.wf m = true) (k : Nat) (v : α) :
    (Table.write m k v).length = if Table.has m k then m.length else m.length + 1 := by
  rw [table_wf_iff_pairwise] at hm
  induction m with
  | nil => simp [Table.write, Table.has]
  | cons d m ih =>
    obtain ⟨k', v'⟩ := d
    rw [List.pairwise_cons] at hm
    have ih := ih hm.2
    by_cases h1 : k < k'
    · have hn : Table.has ((k', v') :: m) k = false := by
        rw [table_has_false_iff]
        intro c hc
        rcases List.mem_cons.1 hc with rfl | hc
        · simp only
          omega
        · have := hm.1 c hc
          simp only at this
          omega
      simp [Table.write, h1, hn]
    · by_cases h2 : k = k'
      · subst h2
        simp [Table.write, Table.has, table_read_cons]
      · simp only [Table.write, h1, h2, if_false, List.length_cons, ih]
        have : Table.has ((k', v') :: m) k = Table.has m k := by
          simp [Table.has, table_read_cons, Ne.symm h2]
        rw [this]
        split_ifs <;> rfl

/-! `remove` and filters -/

theorem table_wf_filter {m : Table α} (hm : Table.wf m = true) (p : Nat × α → Bool) :
    Table.wf (m.filter p) = true := by
  rw [table_wf_iff_pairwise] at *
  exact hm.filter p

theorem table_wf_remove {m : Table α} (hm : Table.wf m = true) (k : Nat) : Table.wf (Table.remove m k) = true :=
  table_wf_filter hm _

theorem table_read_filter {m : Table α} (hm : Table.wf m = true) (p : Nat × α → Bool) (k : Nat) :
    Table.read (m.filter p) k = (Table.read m k).filter (fun v => p (k, v)) := by
  cases h : Table.read m k with
  | none =>
    rw [table_read_none_iff] at h
    simp only [Option.filter_none]
    rw [table_read_none_iff]
    exact fun c hc => h c (List.mem_of_mem_filter hc)
  | some v =>
    have hmem := table_mem_of_read h
    by_cases hp : p (k, v) = true
    · rw [Option.filter_some, if_pos hp, ← table_mem_iff_read (table_wf_filter hm p)]
      exact List.mem_filter.2 ⟨hmem, hp⟩
    · rw [Option.filter_some, if_neg hp, table_read_none_iff]
      intro c hc hk
      obtain ⟨hc, hpc⟩ := List.mem_filter.1 hc
      obtain ⟨k', v'⟩ := c
      simp only at hk
      subst hk
      rw [table_mem_iff_read hm, h] at hc
      simp only [Option.some.injEq] at hc
      subst hc
      exact hp hpc

theorem table_read_remove (m : Table α) (k i : Nat) :
    Table.read (Table.remove m k) i = if i = k then none else Table.read m i := by
  induction m with
  | nil => simp [Table.remove]
  | cons c m ih =>
    simp only [Table.remove] at ih ⊢
    by_cases h : c.1 = k
    · have : (c.1 != k) = false := by simp [h]
      rw [List.filter_cons, this]
      simp only [Bool.false_eq_true, if_false, ih, table_read_cons]
      by_cases hi : i = k
      · simp [hi]
      · have : c.1 ≠ i := by rw [h]; exact Ne.symm hi
        simp [hi, this]
    · have : (c.1 != k) = true := by simp [h]
      rw [List.filter_cons, this]
      simp only [if_true, table_read_cons, ih]
      by_cases hi : c.1 = i
      · subst hi
        simp [h]
      · simp [hi]

theorem table_wf_mapVal {m : Table α} (hm : Table.wf m = true) (f : α → β) :
    Table.wf (m.map (fun c => (c.1, f c.2))) = true := by
  rw [table_wf_iff_pairwise] at *
  exact List.pairwise_map.2 hm

theorem table_read_mapVal (m : Table α) (f : α → β) (k : Nat) :
    Table.read (m.map (fun c => (c.1, f c.2))) k = (Table.read m k).map f := by
  induction m with
  | nil => rfl
  | cons c m ih =>
    simp only [List.map_cons, table_read_cons, ih]
    split_ifs <;> rfl

/-- Two canonical tables that read the same everywhere are the same list. -/
theorem table_ext {m m' : Table α} (hm : Table.wf m = true) (hm' : Table.wf m' = true)
    (h : ∀ k, Table.read m k = Table.read m' k) : m = m' := by
  have hmem : ∀ c, c ∈ m ↔ c ∈ m' := by
    rintro ⟨k, v⟩
    rw [table_mem_iff_read hm, table_mem_iff_read hm', h]
  rw [table_wf_iff_pairwise] at hm hm'
  have hn : m.Nodup := hm.imp (fun h e => by subst e; exact lt_irrefl _ h)
  have hn' : m'.Nodup := hm'.imp (fun h e => by subst e; exact lt_irrefl _ h)
  exact List.Perm.eq_of_pairwise (fun a b _ _ h1 h2 => absurd (h1.trans h2) (lt_irrefl _)) hm hm'
    ((List.perm_ext_iff_of_nodup hn hn').2 hmem)

/-! The fragment store -/

theorem memory_read_write (m : Memory) (k : Nat) (b : Byte) (i : Nat) :
    Memory.read (Memory.write m k b) i = if i = k then some b else Memory.read m i :=
  table_read_write m k b i

theorem memory_wf_write {m : Memory} (hm : Memory.wf m = true) (k : Nat) (b : Byte) :
    Memory.wf (Memory.write m k b) = true :=
  table_wf_write hm k b

theorem memory_wf_eraseRange {m : Memory} (hm : Memory.wf m = true) (u n : Nat) :
    Memory.wf (Memory.eraseRange m u n) = true :=
  table_wf_filter hm _

theorem memory_read_eraseRange {m : Memory} (hm : Memory.wf m = true) (u n i : Nat) :
    Memory.read (Memory.eraseRange m u n) i = if u ≤ i ∧ i < u + n then none else Memory.read m i := by
  have := table_read_filter (α := Byte) hm (fun c => !(decide (u ≤ c.1) && decide (c.1 < u + n))) i
  rw [Memory.eraseRange, Memory.read, this, Memory.read]
  by_cases h : u ≤ i ∧ i < u + n
  · cases Table.read m i <;> simp [h]
  · have hn : (!(decide (u ≤ i) && decide (i < u + n))) = true := by
      simp only [Bool.not_eq_true', Bool.and_eq_false_iff, decide_eq_false_iff_not]
      omega
    cases Table.read m i <;> simp [h, hn]

theorem memory_ext {m m' : Memory} (hm : Memory.wf m = true) (hm' : Memory.wf m' = true)
    (h : ∀ i, Memory.read m i = Memory.read m' i) : m = m' :=
  table_ext hm hm' h

end Sys2Proof.Laws
end

