-- ==== Sys2Proof/Laws/Ops.lean ====
section
/-! SUPPORT. What the shared operations do: saturating time, the ByteStream primitives, responses, and the store and
flush loops of the Reassembler. -/

namespace Sys2Proof.Laws

open Sys2Proof.Machine Sys2Proof.Safety

@[simp] theorem drop_eq {α : Type} (cause : Anomaly) (x : α) : drop cause x = x := rfl

/-! Saturating time -/

theorem sat64_toNat (x : Nat) : (sat64 x).toNat = min x (two64 - 1) := by
  simp only [sat64, BitVec.toNat_ofNat, two64]
  omega

theorem addTime_toNat (t delta : U64) : (addTime t delta).toNat = min (t.toNat + delta.toNat) (two64 - 1) :=
  sat64_toNat _

/-! ByteStreams -/

theorem accepts_le (b : ByteStream) (data : List Byte) : b.accepts data ≤ data.length := by
  unfold ByteStream.accepts
  split <;> simp

theorem accepts_le_avail (b : ByteStream) (data : List Byte) : b.accepts data ≤ b.avail := by
  unfold ByteStream.accepts
  split <;> simp

theorem accepts_of_shut {b : ByteStream} (h : (b.closed || b.error) = true) (data : List Byte) :
    b.accepts data = 0 := by
  simp [ByteStream.accepts, h]

theorem accepts_of_open {b : ByteStream} (h : (b.closed || b.error) = false) (data : List Byte) :
    b.accepts data = min b.avail data.length := by
  simp [ByteStream.accepts, h]

@[simp] theorem push_nil (b : ByteStream) : b.push [] = b := by
  have : b.accepts [] = 0 := Nat.le_zero.1 (accepts_le b [])
  simp [ByteStream.push, this]

theorem streamOk_fresh (cap : U64) : StreamOk (ByteStream.fresh cap) := by
  simp [StreamOk, ByteStream.fresh, two64]

theorem streamOk_push {b : ByteStream} (hb : StreamOk b) (data : List Byte) (h : (b.push data).pushed < two64) :
    StreamOk (b.push data) := by
  obtain ⟨h1, h2, -⟩ := hb
  have hle := accepts_le b data
  have hav := accepts_le_avail b data
  simp only [ByteStream.avail] at hav
  refine ⟨?_, ?_, h⟩
  · simp only [push_pushed, push_popped, push_buffer, List.length_append, List.length_take]
    omega
  · simp only [push_buffer, push_cap, List.length_append, List.length_take]
    omega

theorem streamOk_pop {b : ByteStream} (hb : StreamOk b) (n : Nat) : StreamOk (b.pop n) := by
  obtain ⟨h1, h2, h3⟩ := hb
  refine ⟨?_, ?_, h3⟩
  · simp only [pop_pushed, pop_popped, pop_buffer, List.length_drop]
    omega
  · simp only [pop_cap, pop_buffer, List.length_drop]
    omega

theorem streamOk_close {b : ByteStream} (hb : StreamOk b) : StreamOk b.close := hb

theorem streamOk_setError {b : ByteStream} (hb : StreamOk b) : StreamOk b.setError := hb

/-- Under the stream's invariant the acceptance window ends at `popped + C` (R93). -/
theorem windowEnd_eq {s : State} (h : StreamOk s.ibs) : s.windowEnd = s.ibs.popped + s.ibs.cap.toNat := by
  obtain ⟨h1, h2, -⟩ := h
  simp only [State.windowEnd, ByteStream.avail]
  omega

/-! Responses -/

theorem respond_eq_of_short (s : State) (r : Response) (h : r.payload.length < 65536) :
    s.respond r = answered s (r.bytes (BitVec.ofNat 16 r.payload.length)) := by
  simp [State.respond, answered, Response.rlen, Response.drawsAfter, h]

/-- The bytes of a response, its header written out (R115). -/
theorem response_bytes (r : Response) (rlen : U16) :
    r.bytes rlen =
      [r.op.code, r.flags, rlen.extractLsb' 8 8, rlen.extractLsb' 0 8] ++ r.words.flatMap bytes32 ++ r.payload := by
  rw [Response.bytes, bytes32_header]
  rfl

/-- The two bytes of an RLEN, in numbers. -/
theorem rlen_bytes (n : Nat) :
    (BitVec.ofNat 16 n).extractLsb' 8 8 = BitVec.ofNat 8 (n / 256) ∧
      (BitVec.ofNat 16 n).extractLsb' 0 8 = BitVec.ofNat 8 n := by
  constructor
  · apply BitVec.eq_of_toNat_eq
    simp only [BitVec.extractLsb'_toNat, BitVec.toNat_ofNat, Nat.shiftRight_eq_div_pow]
    omega
  · apply BitVec.eq_of_toNat_eq
    simp only [BitVec.extractLsb'_toNat, BitVec.toNat_ofNat, Nat.shiftRight_eq_div_pow]
    omega

/-- A response that RLEN can count, every byte of it written out (R115). -/
theorem respond_short (s : State) (r : Response) (h : r.payload.length < 65536) :
    s.respond r =
      answered s ([r.op.code, r.flags, BitVec.ofNat 8 (r.payload.length / 256), BitVec.ofNat 8 r.payload.length] ++
        r.words.flatMap bytes32 ++ r.payload) := by
  rw [respond_eq_of_short _ _ h, response_bytes, (rlen_bytes _).1, (rlen_bytes _).2]

/-- A response without payload has RLEN 0. -/
theorem respond_noPayload (s : State) (op : Op) (flags : Byte) (words : List U32) :
    s.respond ⟨op, flags, words, []⟩ = answered s ([op.code, flags, 0#8, 0#8] ++ words.flatMap bytes32) := by
  have h1 : (BitVec.ofNat 16 0).extractLsb' 8 8 = 0#8 := by decide
  have h2 : (BitVec.ofNat 16 0).extractLsb' 0 8 = 0#8 := by decide
  rw [respond_eq_of_short _ _ (by simp), response_bytes]
  simp only [List.length_nil, h1, h2, List.append_nil]

/-- A command without results answers its bare header (R116). -/
theorem respond_bare (s : State) (op : Op) :
    s.respond (Response.bare op) = answered s [op.code, 0#8, 0#8, 0#8] :=
  respond_noPayload s op _ _

theorem respond_word (s : State) (op : Op) (v : U32) :
    s.respond (Response.word op v) = answered s ([op.code, 0#8, 0#8, 0#8] ++ bytes32 v) :=
  respond_noPayload s op _ _

theorem respond_nat64 (s : State) (op : Op) (v : Nat) :
    s.respond (Response.nat64 op v) =
      answered s ([op.code, 0#8, 0#8, 0#8] ++ bytes32 ((BitVec.ofNat 64 v).extractLsb' 32 32) ++
        bytes32 ((BitVec.ofNat 64 v).extractLsb' 0 32)) :=
  respond_noPayload s op _ _

theorem respond_bool (s : State) (op : Op) (b : Bool) :
    s.respond (Response.bool op b) = answered s [op.code, if b then 1#8 else 0#8, 0#8, 0#8] := by
  cases b <;> exact respond_noPayload s op _ _

/-! The store loop of RaInsert -/

/-- What the store reads as after the store loop: a filled slot keeps its byte, an unfilled one inside the fragment takes the
fragment's. -/
theorem raStore_read (m : Memory) (p i : Nat) (data : List Byte) (k : Nat) :
    Memory.read (raStore m p i data).1 k =
      match Memory.read m k with
      | some b => some b
      | none => if i ≤ k then data[k - i]? else none := by
  induction data generalizing m p i with
  | nil =>
    simp only [raStore]
    cases Memory.read m k <;> simp
  | cons b rest ih =>
    simp only [raStore, drop_eq]
    by_cases hh : Table.has m i = true
    · rw [if_pos hh, ih]
      cases hm : Memory.read m k with
      | some c => rfl
      | none =>
        have hne : k ≠ i := by
          rintro rfl
          simp only [table_has_eq, Memory.read] at hh hm
          simp [hm] at hh
        by_cases hk : i ≤ k
        · have h1 : i + 1 ≤ k := by omega
          have h2 : k - i = (k - (i + 1)) + 1 := by omega
          simp [hk, h1, h2]
        · have h1 : ¬ i + 1 ≤ k := by omega
          simp [hk, h1]
    · rw [if_neg hh, ih, memory_read_write]
      by_cases hk : k = i
      · subst hk
        have hm : Memory.read m k = none := by
          simp only [table_has_eq, Memory.read] at hh ⊢
          simpa using hh
        simp [hm]
      · simp only [hk, if_false]
        cases hm : Memory.read m k with
        | some c => rfl
        | none =>
          by_cases hk' : i ≤ k
          · have h1 : i + 1 ≤ k := by omega
            have h2 : k - i = (k - (i + 1)) + 1 := by omega
            simp [hk', h1, h2]
          · have h1 : ¬ i + 1 ≤ k := by omega
            simp [hk', h1]

theorem raStore_wf {m : Memory} (hm : Memory.wf m = true) (p i : Nat) (data : List Byte) :
    Memory.wf (raStore m p i data).1 = true := by
  induction data generalizing m p i with
  | nil => exact hm
  | cons b rest ih =>
    simp only [raStore, drop_eq]
    split
    · exact ih hm _ _
    · exact ih (memory_wf_write hm _ _) _ _

/-- `pending` goes on counting the store. -/
theorem raStore_pending {m : Memory} (hm : Memory.wf m = true) (i : Nat) (data : List Byte) :
    (raStore m m.length i data).2 = (raStore m m.length i data).1.length := by
  induction data generalizing m i with
  | nil => rfl
  | cons b rest ih =>
    simp only [raStore, drop_eq]
    split
    · exact ih hm _
    · rename_i hh
      have hl : (Memory.write m i b).length = m.length + 1 := by
        rw [Memory.write, table_length_write m hm, if_neg hh]
      rw [← hl]
      exact ih (memory_wf_write hm _ _) _

/-! The flush loop of RaInsert -/

theorem raRun_read (m : Memory) (fuel u j : Nat) (hj : j < (raRun m fuel u).length) :
    Memory.read m (u + j) = (raRun m fuel u)[j]? := by
  induction fuel generalizing u j with
  | zero => simp [raRun] at hj
  | succ fuel ih =>
    cases hm : Memory.read m u with
    | none => simp [raRun, hm] at hj
    | some b =>
      simp only [raRun, hm, List.length_cons] at hj ⊢
      cases j with
      | zero => simp [hm]
      | succ j =>
        have := ih (u + 1) j (by omega)
        rw [List.getElem?_cons_succ, ← this]
        congr 1
        omega

theorem raRun_length_le (m : Memory) (fuel u : Nat) : (raRun m fuel u).length ≤ fuel := by
  induction fuel generalizing u with
  | zero => simp [raRun]
  | succ fuel ih =>
    cases hm : Memory.read m u with
    | none => simp [raRun, hm]
    | some b =>
      have := ih (u + 1)
      simp only [raRun, hm, List.length_cons]
      omega

/-- A run that stops before its fuel stops at an unfilled slot. -/
theorem raRun_stops (m : Memory) (fuel u : Nat) (h : (raRun m fuel u).length < fuel) :
    Memory.read m (u + (raRun m fuel u).length) = none := by
  induction fuel generalizing u with
  | zero => simp at h
  | succ fuel ih =>
    cases hm : Memory.read m u with
    | none => simp [raRun, hm]
    | some b =>
      simp only [raRun, hm, List.length_cons] at h ⊢
      have := ih (u + 1) (by omega)
      rw [← this]
      congr 1
      omega

/-- The number of keys of a canonical table in a range is at most the range's length. -/
theorem table_count_range {α : Type} {m : Table α} (hm : Table.wf m = true) (u n : Nat)
    (h : ∀ c ∈ m, u ≤ c.1 ∧ c.1 < u + n) : m.length ≤ n := by
  rw [table_wf_iff_pairwise] at hm
  have hn : (m.map (·.1)).Nodup := by
    rw [List.nodup_iff_pairwise_ne, List.pairwise_map]
    exact hm.imp (fun h => Nat.ne_of_lt h)
  have hsub : ∀ k ∈ m.map (·.1), k ∈ List.range' u n := by
    intro k hk
    obtain ⟨c, hc, rfl⟩ := List.mem_map.1 hk
    rw [List.mem_range'_1]
    exact h c hc
  have := (hn.subperm hsub).length_le
  simpa using this

/-- The keys of a canonical table that are all filled from `u` on, `n` of them, are `n` entries. -/
theorem table_count_filled {α : Type} {m : Table α} (u n : Nat)
    (h : ∀ j, j < n → (Table.read m (u + j)).isSome = true) : n ≤ m.length := by
  have hsub : ∀ k ∈ List.range' u n, k ∈ m.map (·.1) := by
    intro k hk
    rw [List.mem_range'_1] at hk
    have := h (k - u) (by omega)
    rw [show u + (k - u) = k by omega] at this
    obtain ⟨v, hv⟩ := Option.isSome_iff_exists.1 this
    exact List.mem_map.2 ⟨_, table_mem_of_read hv, rfl⟩
  have hn : (List.range' u n).Nodup := List.nodup_range'
  have := (hn.subperm hsub).length_le
  simpa using this

/-- The run from `u` with the store's size as fuel is the longest one. -/
theorem raRun_maximal (m : Memory) (u : Nat) :
    Memory.read m (u + (raRun m m.length u).length) = none := by
  by_cases h : (raRun m m.length u).length < m.length
  · exact raRun_stops m _ u h
  · have hle := raRun_length_le m m.length u
    by_contra hne
    have hfill : ∀ j, j < (raRun m m.length u).length + 1 → (Table.read m (u + j)).isSome = true := by
      intro j hj
      by_cases hj' : j < (raRun m m.length u).length
      · have := raRun_read m m.length u j hj'
        rw [Memory.read] at this
        rw [this, List.getElem?_eq_getElem hj']
        rfl
      · have hj : j = (raRun m m.length u).length := by omega
        subst hj
        rw [Memory.read] at hne
        exact Option.isSome_iff_ne_none.2 hne
    have := table_count_filled (m := m) u _ hfill
    omega

/-- Erasing the run takes exactly its bytes out of the store. -/
theorem eraseRange_length {m : Memory} (hm : Memory.wf m = true) (u n : Nat)
    (h : ∀ j, j < n → (Memory.read m (u + j)).isSome = true) :
    (Memory.eraseRange m u n).length = m.length - n := by
  have hpart := List.length_eq_length_filter_add (l := m)
    (fun c : Nat × Byte => decide (u ≤ c.1) && decide (c.1 < u + n))
  have hout : (m.filter (fun c => !(decide (u ≤ c.1) && decide (c.1 < u + n)))).length =
      (Memory.eraseRange m u n).length := rfl
  have hin : (m.filter (fun c : Nat × Byte => decide (u ≤ c.1) && decide (c.1 < u + n))).length = n := by
    apply Nat.le_antisymm
    · apply table_count_range (table_wf_filter hm _) u n
      intro c hc
      have := (List.mem_filter.1 hc).2
      simpa using this
    · apply table_count_filled u n
      intro j hj
      rw [table_read_filter hm]
      obtain ⟨v, hv⟩ := Option.isSome_iff_exists.1 (h j hj)
      rw [Memory.read] at hv
      rw [hv]
      have : u + j < u + n := by omega
      simp [this]
  omega

end Sys2Proof.Laws
end

