-- ==== Sys2Proof/Laws/Exec.lean ====
section
/-! SUPPORT. What one command can do, said once: if `exec` answers a next state, that state is the command's effect on the
units followed by its one response. Later lemmas argue about `effect` and never unfold `exec`. -/

namespace Sys2Proof.Laws

open Sys2Proof.Machine Sys2Proof.Safety

/-- The state a command reaches, before its response. -/
def effect (i : Instr) (s : State) : State :=
  match i with
  | .sysReset => { State.resetWith s.params s.draws with cmds := s.cmds, resps := s.resps }
  | .bsPush data => s.setObs (s.obs.push data)
  | .bsClose => s.setObs s.obs.close
  | .bsSetError sel => s.setStream sel (s.stream sel).setError
  | .bsPop n => s.setIbs (s.ibs.pop n.toNat)
  | .raInsert firstIndex data isLast => raInsert s firstIndex.toNat data isLast
  | .rxReceive seqno payload syn fin =>
    match rxIndex (rxMark s seqno syn) seqno syn with
    | none => rxMark s seqno syn
    | some idx => raInsert (rxMark s seqno syn) idx payload fin
  | .txPush => txPushState s
  | .txMaybeSend => s.setTx { s.tx with ready := s.tx.ready.tail }
  | .txReceive ackno window => s.setTx (ackSender s.tx { ackno := ackno, windowSize := window })
  | .txTick delta => s.setTx (tickSender s.tx delta)
  | .niSendDgram iface nextHop dgram =>
    match s.ni[iface.toNat]? with
    | none => s
    | some n => s.setIf iface.toNat (n.send s.params.codec dgram nextHop)
  | .niRecvFrame iface frame toRouter =>
    match s.ni[iface.toNat]? with
    | none => s
    | some n => s.setIf iface.toNat (n.receive s.params.codec frame toRouter).1
  | .niTick iface delta =>
    match s.ni[iface.toNat]? with
    | none => s
    | some n => s.setIf iface.toNat (n.tick delta)
  | .niMaybeSend iface =>
    match s.ni[iface.toNat]? with
    | none => s
    | some n => s.setIf iface.toNat { n with outQueue := n.outQueue.tail }
  | .rtAddRoute pfx prefixLen nextHop ifaceIdx =>
    s.setRoutes (insertRoute
      { pfx := pfx, prefixLen := prefixLen, nextHop := nextHop, ifaceIdx := ifaceIdx.toNat } s.rt.routes)
  | .rtRoute => s.setNi (drainAll s.params.codec s.rt.routes s.ni)
  | .w32Add _ _ | .w32Wrap _ _ | .w32Unwrap _ _ _ | .bsPeek | .bsAvail _ | .bsPushed _ | .bsPopped _
  | .bsBuffered _ | .bsIsClosed _ | .bsIsFinished _ | .bsHasError _ | .raPending | .rxSend | .txSendEmpty
  | .txInFlight | .txRetx => s

/-- The response a command gives in state `s`. -/
def reply (i : Instr) (s : State) : Response :=
  match i with
  | .w32Add raw k => Response.word .w32Add (add32 raw k.toNat)
  | .w32Wrap n zero => Response.word .w32Wrap (wrap n.toNat zero)
  | .w32Unwrap raw zero checkpoint => Response.nat64 .w32Unwrap (unwrap raw zero checkpoint.toNat)
  | .bsPeek => ⟨.bsPeek, 0#8, [], s.ibs.peek⟩
  | .bsAvail sel => Response.nat64 .bsAvail (s.stream sel).avail
  | .bsPushed sel => Response.nat64 .bsPushed (s.stream sel).pushed
  | .bsPopped sel => Response.nat64 .bsPopped (s.stream sel).popped
  | .bsBuffered sel => Response.nat64 .bsBuffered (s.stream sel).buffer.length
  | .bsIsClosed sel => Response.bool .bsIsClosed (s.stream sel).closed
  | .bsIsFinished sel => Response.bool .bsIsFinished (s.stream sel).finished
  | .bsHasError sel => Response.bool .bsHasError (s.stream sel).error
  | .raPending => Response.nat64 .raPending s.ra.pending
  | .rxSend => Response.ackMsg .rxSend (rxAck s)
  | .txMaybeSend => Response.segment .txMaybeSend s.tx.ready.head?
  | .txSendEmpty => Response.segment .txSendEmpty (some (emptySegment s.tx))
  | .txInFlight => Response.nat64 .txInFlight (inflight s.tx)
  | .txRetx => Response.nat64 .txRetx s.tx.retx.toNat
  | .niRecvFrame iface frame toRouter =>
    match s.ni[iface.toNat]? with
    | none => Response.bare .niRecvFrame
    | some n =>
      Response.optBytes .niRecvFrame
        ((n.receive s.params.codec frame toRouter).2.map (serializeIpv4 s.params.codec))
  | .niMaybeSend iface =>
    match s.ni[iface.toNat]? with
    | none => Response.bare .niMaybeSend
    | some n => Response.optBytes .niMaybeSend (n.outQueue.head?.map serializeFrame)
  | .sysReset | .bsPush _ | .bsClose | .bsSetError _ | .bsPop _ | .raInsert _ _ _ | .rxReceive _ _ _ _ | .txPush
  | .txReceive _ _ | .txTick _ | .niSendDgram _ _ _ | .niTick _ _ | .rtAddRoute _ _ _ _ | .rtRoute =>
    Response.bare i.op

/-- What stops a command (R119, R157, D11). -/
def stops (i : Instr) (s : State) : Option Refusal :=
  match i with
  | .bsPush data => if (s.obs.push data).pushed < two64 then none else some .counterOverflow
  | .raInsert firstIndex data isLast =>
    if raOverflows s firstIndex.toNat data isLast then some .counterOverflow else none
  | .rxReceive seqno payload syn fin =>
    match rxIndex (rxMark s seqno syn) seqno syn with
    | none => none
    | some idx => if raOverflows (rxMark s seqno syn) idx payload fin then some .counterOverflow else none
  | .txPush => if (txPushState s).tx.cursor < two64 then none else some .counterOverflow
  | .niSendDgram iface _ _ | .niRecvFrame iface _ _ | .niTick iface _ | .niMaybeSend iface
  | .rtAddRoute _ _ _ iface =>
    if iface.toNat < s.ni.length then none else some .noSuchInterface
  | .sysReset | .w32Add _ _ | .w32Wrap _ _ | .w32Unwrap _ _ _ | .bsClose | .bsSetError _ | .bsPeek | .bsPop _
  | .bsAvail _ | .bsPushed _ | .bsPopped _ | .bsBuffered _ | .bsIsClosed _ | .bsIsFinished _ | .bsHasError _
  | .raPending | .rxSend | .txMaybeSend | .txReceive _ _ | .txTick _ | .txSendEmpty | .txInFlight | .txRetx
  | .rtRoute => none

/-- Every command either stops by name or has its effect and gives its response. -/
theorem exec_eq (i : Instr) (s : State) :
    exec i s =
      match stops i s with
      | some r => .refused r
      | none => .next ((effect i s).respond (reply i s)) := by
  cases i
  case bsPush data =>
    simp only [exec, execBsPush, stops]
    split <;> simp_all [effect, reply, Instr.op]
  case raInsert firstIndex data isLast =>
    simp only [exec, execRaInsert, stops]
    split <;> simp_all [effect, reply, Instr.op]
  case rxReceive seqno payload syn fin =>
    simp only [exec, execRxReceive, stops, effect, reply, Instr.op]
    cases rxIndex (rxMark s seqno syn) seqno syn with
    | none => rfl
    | some idx =>
      simp only
      split <;> simp_all
  case txPush =>
    simp only [exec, execTxPush, stops]
    split <;> simp_all [effect, reply, Instr.op]
  case niSendDgram iface nextHop dgram =>
    simp only [exec, execNiSendDgram, stops, effect, reply, Instr.op]
    by_cases h : iface.toNat < s.ni.length <;> simp [h]
  case niRecvFrame iface frame toRouter =>
    simp only [exec, execNiRecvFrame, stops, effect, reply]
    by_cases h : iface.toNat < s.ni.length <;> simp [h]
  case niTick iface delta =>
    simp only [exec, execNiTick, stops, effect, reply, Instr.op]
    by_cases h : iface.toNat < s.ni.length <;> simp [h]
  case niMaybeSend iface =>
    simp only [exec, execNiMaybeSend, stops, effect, reply]
    by_cases h : iface.toNat < s.ni.length <;> simp [h]
  case rtAddRoute pfx prefixLen nextHop ifaceIdx =>
    simp only [exec, execRtAddRoute, stops]
    split <;> simp_all [effect, reply, Instr.op]
  all_goals rfl

theorem exec_next {i : Instr} {s t : State} (h : exec i s = .next t) :
    stops i s = none ∧ t = (effect i s).respond (reply i s) := by
  rw [exec_eq] at h
  cases hs : stops i s with
  | none =>
    rw [hs] at h
    simp only [Host.Outcome.next.injEq] at h
    exact ⟨rfl, h.symm⟩
  | some r =>
    rw [hs] at h
    simp at h

theorem exec_of_not_stops {i : Instr} {s : State} (h : stops i s = none) :
    exec i s = .next ((effect i s).respond (reply i s)) := by
  rw [exec_eq, h]

theorem reply_op (i : Instr) (s : State) : (reply i s).op = i.op := by
  cases i <;> simp only [reply, Instr.op, Response.bare, Response.word, Response.nat64, Response.bool,
    Response.ackMsg, Response.segment]
  case niRecvFrame iface frame toRouter =>
    cases s.ni[iface.toNat]? with
    | none => rfl
    | some n =>
      simp only
      cases (n.receive s.params.codec frame toRouter).2 <;> rfl
  case niMaybeSend iface =>
    cases s.ni[iface.toNat]? with
    | none => rfl
    | some n =>
      simp only
      cases n.outQueue.head? <;> rfl
  case txMaybeSend =>
    cases s.tx.ready.head? <;> rfl

/-- A step that answers a next state is idle or runs one decoded command. -/
theorem step_next {s t : State} (h : step s = .next t) :
    (s.cmds = [] ∧ t = s) ∨
    ∃ d rest i, s.cmds = d :: rest ∧ decode s.params.nIf d = .ok i ∧ exec i { s with cmds := rest } = .next t := by
  unfold step fetch at h
  cases hc : s.cmds with
  | nil =>
    rw [hc] at h
    simp only [Host.Outcome.next.injEq] at h
    exact .inl ⟨rfl, h.symm⟩
  | cons d rest =>
    rw [hc] at h
    simp only at h
    cases hd : decode s.params.nIf d with
    | error why => simp [hd] at h
    | ok i =>
      rw [hd] at h
      exact .inr ⟨d, rest, i, rfl, hd, h⟩

/-- A property of the units that neither the ports nor the draw counter enter, kept by every command's effect, is kept by
every step. -/
theorem step_keeps {P : State → Prop}
    (hports : ∀ (s : State) (cmds resps : List (List Byte)) (draws : Nat),
      P s → P { s with cmds := cmds, resps := resps, draws := draws })
    (heffect : ∀ (i : Instr) (s : State), P s → stops i s = none → P (effect i s))
    {s t : State} (hs : P s) (h : step s = .next t) : P t := by
  rcases step_next h with ⟨-, rfl⟩ | ⟨d, rest, i, -, -, he⟩
  · exact hs
  · obtain ⟨hstop, rfl⟩ := exec_next he
    exact hports _ _ _ _ (heffect i _ (hports s rest s.resps s.draws hs) hstop)

end Sys2Proof.Laws
end

