-- ==== Sys2Proof/Laws/Link.lean ====
section
/-! SUPPORT. What the operations of an interface and of the router do (spec/45_network_interface.md, spec/46_router.md), and
that they keep the interface's and the route list's invariants. -/

namespace Sys2Proof.Laws

open Sys2Proof.Machine Sys2Proof.Safety

/-! Sending -/

/-- What NiSend writes: `out_queue`, `pending` and `arp_inflight` of its interface (R271). -/
theorem send_eq (c : Config.Codec) (n : NetIf) (d : List Byte) (ip : U32) :
    n.send c d ip =
      { n with
        outQueue := (n.send c d ip).outQueue
        pending := (n.send c d ip).pending
        arpInflight := (n.send c d ip).arpInflight } := by
  unfold NetIf.send
  split
  · rfl
  · simp only
    split <;> rfl

/-- NiSend looks only at the addresses and the ARP tables, so it does the same whatever waits in `rx_queue`. -/
theorem send_rxQueue (c : Config.Codec) (n : NetIf) (q : List Datagram) (d : List Byte) (ip : U32) :
    ({ n with rxQueue := q } : NetIf).send c d ip = { n.send c d ip with rxQueue := q } := by
  unfold NetIf.send
  simp only [NetIf.enqueue, ipv4Frame, parkedFrame, NetIf.parkedFor, arpRequestFor, arpFrame]
  split
  · rfl
  · split <;> rfl

@[simp] theorem send_eth (c : Config.Codec) (n : NetIf) (d : List Byte) (ip : U32) : (n.send c d ip).eth = n.eth := by
  rw [send_eq]

@[simp] theorem send_ip (c : Config.Codec) (n : NetIf) (d : List Byte) (ip : U32) : (n.send c d ip).ip = n.ip := by
  rw [send_eq]

@[simp] theorem send_arpCache (c : Config.Codec) (n : NetIf) (d : List Byte) (ip : U32) :
    (n.send c d ip).arpCache = n.arpCache := by
  rw [send_eq]

@[simp] theorem send_rx (c : Config.Codec) (n : NetIf) (d : List Byte) (ip : U32) :
    (n.send c d ip).rxQueue = n.rxQueue := by
  rw [send_eq]

theorem netIfOk_send {n : NetIf} (h : NetIfOk n) (c : Config.Codec) (d : List Byte) (ip : U32) :
    NetIfOk (n.send c d ip) := by
  obtain ⟨h1, h2, h3, h4, h5, h6⟩ := h
  have hip : ip.toNat < two32 := ip.isLt
  cases hr : Table.read n.arpCache ip.toNat with
  | some e =>
    have : n.send c d ip = n.enqueue (ipv4Frame n e.eth d) := by
      unfold NetIf.send
      simp only [hr]
    rw [this]
    exact ⟨h1, h2, h3, h4, h5, h6⟩
  | none =>
    have hno : Table.has n.arpCache ip.toNat = false := by simp [table_has_eq, hr]
    have hpend : ∀ x ∈ Table.write n.pending ip.toNat (n.parkedFor ip ++ [parkedFrame n d]),
        x.1 < two32 ∧ x.2 ≠ [] ∧ Table.has n.arpCache x.1 = false := by
      intro x hx
      rcases table_mem_write hx with rfl | hx
      · exact ⟨hip, by simp, hno⟩
      · exact h6 x hx
    unfold NetIf.send
    simp only [hr]
    split
    · exact ⟨h1, h2, table_wf_write h3 _ _, h4, h5, hpend⟩
    · refine ⟨h1, table_wf_write h2 _ _, table_wf_write h3 _ _, h4, ?_, hpend⟩
      intro x hx
      rcases table_mem_write hx with rfl | hx
      · exact ⟨hip, by simp⟩
      · exact h5 x hx

/-! Receiving -/

theorem netIfOk_learn {n : NetIf} (h : NetIfOk n) (m : ArpMessage) : NetIfOk (n.learn m) := by
  obtain ⟨h1, h2, h3, h4, h5, h6⟩ := h
  refine ⟨table_wf_write h1 _ _, h2, table_wf_remove h3 _, ?_, h5, ?_⟩
  · intro x hx
    rcases table_mem_write hx with rfl | hx
    · exact ⟨m.senderIp.isLt, by simp⟩
    · exact h4 x hx
  · intro x hx
    obtain ⟨hx, hne⟩ := List.mem_filter.1 hx
    obtain ⟨g1, g2, g3⟩ := h6 x hx
    refine ⟨g1, g2, ?_⟩
    have hne : x.1 ≠ m.senderIp.toNat := by simpa using hne
    rw [table_has_eq] at g3 ⊢
    rw [NetIf.learn]
    simp only [table_read_write, if_neg hne]
    exact g3

theorem netIfOk_answer {n : NetIf} (h : NetIfOk n) (c : Config.Codec) (m : ArpMessage) : NetIfOk (n.answer c m) := by
  unfold NetIf.answer
  split
  · exact h
  · exact h

/-- What NI.RECV_FRAME leaves of the interface: unchanged, one datagram more in `rx_queue`, or a mapping learned. -/
theorem receive_cases (c : Config.Codec) (n : NetIf) (f : List Byte) (q : Bool) :
    (n.receive c f q).1 = n ∨ (∃ d, (n.receive c f q).1 = { n with rxQueue := n.rxQueue ++ [d] }) ∨
      ∃ m, (n.receive c f q).1 = (n.learn m).answer c m := by
  unfold NetIf.receive
  simp only [drop_eq]
  cases parseFrame f with
  | none => exact .inl rfl
  | some g =>
    simp only
    split
    · exact .inl rfl
    · split
      · cases parseIpv4 c g.payload with
        | none => exact .inl rfl
        | some d =>
          cases q
          · exact .inl rfl
          · exact .inr (.inl ⟨d, rfl⟩)
      · split
        · cases parseArp c g.payload with
          | none => exact .inl rfl
          | some m => exact .inr (.inr ⟨m, rfl⟩)
        · exact .inl rfl

theorem answer_eq (c : Config.Codec) (n : NetIf) (m : ArpMessage) :
    n.answer c m = { n with outQueue := (n.answer c m).outQueue } := by
  unfold NetIf.answer
  split <;> rfl

theorem netIfOk_receive {n : NetIf} (h : NetIfOk n) (c : Config.Codec) (f : List Byte) (q : Bool) :
    NetIfOk (n.receive c f q).1 := by
  rcases receive_cases c n f q with h1 | ⟨d, h1⟩ | ⟨m, h1⟩
  · rw [h1]
    exact h
  · rw [h1]
    exact h
  · rw [h1]
    exact netIfOk_answer (netIfOk_learn h m) c m

theorem receive_addresses (c : Config.Codec) (n : NetIf) (f : List Byte) (q : Bool) :
    (n.receive c f q).1.eth = n.eth ∧ (n.receive c f q).1.ip = n.ip := by
  rcases receive_cases c n f q with h1 | ⟨d, h1⟩ | ⟨m, h1⟩
  · rw [h1]
    exact ⟨rfl, rfl⟩
  · rw [h1]
    exact ⟨rfl, rfl⟩
  · rw [h1, answer_eq]
    exact ⟨rfl, rfl⟩

/-! Ageing -/

theorem tick_arpCache_read {n : NetIf} (h : Table.wf n.arpCache = true) (delta : U64) (k : Nat) :
    Table.read (n.tick delta).arpCache k =
      ((Table.read n.arpCache k).filter (fun e => !e.expires delta)).map (fun e => e.aged delta) := by
  show Table.read ((n.arpCache.filter (fun c => !c.2.expires delta)).map (fun c => (c.1, c.2.aged delta))) k = _
  rw [table_read_mapVal (n.arpCache.filter (fun c => !c.2.expires delta)) (fun e => e.aged delta) k,
    table_read_filter h]

theorem tick_arpInflight_read {n : NetIf} (h : Table.wf n.arpInflight = true) (delta : U64) (k : Nat) :
    Table.read (n.tick delta).arpInflight k =
      ((Table.read n.arpInflight k).filter (fun a => !cooledDown a delta)).map (fun a => addTime a delta) := by
  show Table.read ((n.arpInflight.filter (fun c => !cooledDown c.2 delta)).map (fun c => (c.1, addTime c.2 delta))) k = _
  rw [table_read_mapVal (n.arpInflight.filter (fun c => !cooledDown c.2 delta)) (fun a => addTime a delta) k,
    table_read_filter h]

theorem evicted_contains {n : NetIf} (h : Table.wf n.arpCache = true) (delta : U64) (k : Nat) :
    (n.evicted delta).contains k = true ↔ ∃ e, Table.read n.arpCache k = some e ∧ e.expires delta = true := by
  simp only [NetIf.evicted, List.contains_iff_mem, List.mem_map, List.mem_filter]
  constructor
  · rintro ⟨⟨k', e⟩, ⟨hmem, hexp⟩, rfl⟩
    exact ⟨e, (table_mem_iff_read h _ _).1 hmem, hexp⟩
  · rintro ⟨e, hr, hexp⟩
    exact ⟨(k, e), ⟨table_mem_of_read hr, hexp⟩, rfl⟩

theorem tick_pending_read {n : NetIf} (h : Table.wf n.pending = true) (delta : U64) (k : Nat) :
    Table.read (n.tick delta).pending k =
      (Table.read n.pending k).filter (fun _ => !(n.evicted delta).contains k) := by
  show Table.read (n.pending.filter (fun c => !(n.evicted delta).contains c.1)) k = _
  rw [table_read_filter h]

theorem netIfOk_tick {n : NetIf} (h : NetIfOk n) (delta : U64) : NetIfOk (n.tick delta) := by
  have hc := tick_arpCache_read h.1 delta
  obtain ⟨h1, h2, h3, h4, h5, h6⟩ := h
  refine ⟨table_wf_mapVal (table_wf_filter h1 _) (fun e => e.aged delta),
    table_wf_mapVal (table_wf_filter h2 _) (fun a => addTime a delta), table_wf_filter h3 _, ?_, ?_, ?_⟩
  · intro x hx
    obtain ⟨y, hy, rfl⟩ := List.mem_map.1 hx
    obtain ⟨hy, hexp⟩ := List.mem_filter.1 hy
    refine ⟨(h4 y hy).1, ?_⟩
    simpa [ArpEntry.expires] using hexp
  · intro x hx
    obtain ⟨y, hy, rfl⟩ := List.mem_map.1 hx
    obtain ⟨hy, hexp⟩ := List.mem_filter.1 hy
    refine ⟨(h5 y hy).1, ?_⟩
    simpa [cooledDown] using hexp
  · intro x hx
    obtain ⟨hx, -⟩ := List.mem_filter.1 hx
    obtain ⟨g1, g2, g3⟩ := h6 x hx
    refine ⟨g1, g2, ?_⟩
    rw [table_has_eq, hc]
    rw [table_has_eq] at g3
    cases hr : Table.read n.arpCache x.1 with
    | none => rfl
    | some e => simp [hr] at g3

/-! Routes -/

/-- Where RT.ADD_ROUTE puts a route (R310). -/
theorem insertRoute_split (r : RouteInfo) (rs : List RouteInfo) :
    ∃ front back, rs = front ++ back ∧ insertRoute r rs = front ++ r :: back ∧
      (front = [] ∨ ∃ front' x, front = front' ++ [x] ∧ r.prefixLen ≤ x.prefixLen) ∧
      ∀ y ∈ back, y.prefixLen < r.prefixLen := by
  induction rs with
  | nil => exact ⟨[], [], rfl, rfl, .inl rfl, by simp⟩
  | cons x xs ih =>
    obtain ⟨front, back, hsplit, hins, hfront, hback⟩ := ih
    unfold insertRoute
    by_cases h : (x :: xs).any (fun y => decide (r.prefixLen ≤ y.prefixLen)) = true
    · rw [if_pos h]
      refine ⟨x :: front, back, by simp [hsplit], by simp [hins], ?_, hback⟩
      right
      rcases hfront with rfl | ⟨front', z, rfl, hz⟩
      · refine ⟨[], x, rfl, ?_⟩
        simp only [List.any_cons, Bool.or_eq_true, decide_eq_true_eq, List.any_eq_true] at h
        rcases h with h | ⟨y, hy, hle⟩
        · exact h
        · have : y ∈ back := by simpa [hsplit] using hy
          exact absurd hle (not_le.2 (hback y this))
      · exact ⟨x :: front', z, rfl, hz⟩
    · rw [if_neg h]
      refine ⟨[], x :: xs, rfl, rfl, .inl rfl, ?_⟩
      intro y hy
      simp only [List.any_eq_true, decide_eq_true_eq, not_exists, not_and, not_le] at h
      exact h y hy

theorem insertRoute_sorted (r : RouteInfo) {rs : List RouteInfo}
    (h : rs.Pairwise (fun x y => y.prefixLen ≤ x.prefixLen)) :
    (insertRoute r rs).Pairwise (fun x y => y.prefixLen ≤ x.prefixLen) := by
  obtain ⟨front, back, rfl, hins, hfront, hback⟩ := insertRoute_split r rs
  rw [hins]
  rw [List.pairwise_append] at h ⊢
  obtain ⟨h1, h2, h3⟩ := h
  refine ⟨h1, List.pairwise_cons.2 ⟨fun y hy => (hback y hy).le, h2⟩, ?_⟩
  intro x hx y hy
  rcases List.mem_cons.1 hy with rfl | hy
  · rcases hfront with rfl | ⟨front', z, rfl, hz⟩
    · simp at hx
    · rcases List.mem_append.1 hx with hx | hx
      · exact hz.trans ((List.pairwise_append.1 h1).2.2 x hx z (by simp))
      · simp only [List.mem_singleton] at hx
        subst hx
        exact hz
  · exact h3 x hx y hy

theorem insertRoute_mem (r x : RouteInfo) (rs : List RouteInfo) : x ∈ insertRoute r rs ↔ x = r ∨ x ∈ rs := by
  obtain ⟨front, back, rfl, hins, -, -⟩ := insertRoute_split r rs
  rw [hins]
  simp only [List.mem_append, List.mem_cons]
  tauto

/-! Draining -/

/-- One drained datagram leaves the list alone or sends on one interface. -/
theorem routeOne_cases (c : Config.Codec) (routes : List RouteInfo) (ni : List NetIf) (d : Datagram) :
    routeOne c routes ni d = ni ∨
      ∃ i b ip, routeOne c routes ni d = ni.modify i (fun n => n.send c b ip) := by
  unfold routeOne
  simp only [drop_eq]
  cases lookupRoute routes d.dst with
  | none => exact .inl rfl
  | some r =>
    simp only
    split
    · exact .inl rfl
    · exact .inr ⟨_, _, _, rfl⟩

/-- Whatever sending and emptying an `rx_queue` keep of every interface, RT.ROUTE keeps. -/
theorem drainAll_forall {P : NetIf → Prop} (hsend : ∀ n c d ip, P n → P (n.send c d ip))
    (hempty : ∀ n, P n → P { n with rxQueue := [] }) (c : Config.Codec) (routes : List RouteInfo) {ni : List NetIf}
    (h : ∀ n ∈ ni, P n) : ∀ n ∈ drainAll c routes ni, P n := by
  have hone : ∀ (l : List NetIf) (d : Datagram), (∀ n ∈ l, P n) → ∀ n ∈ routeOne c routes l d, P n := by
    intro l d hl
    rcases routeOne_cases c routes l d with h1 | ⟨i, b, ip, h1⟩
    · rw [h1]
      exact hl
    · rw [h1]
      intro n hn
      obtain ⟨k, hk, rfl⟩ := List.mem_iff_getElem.1 hn
      rw [List.getElem_modify]
      split
      · exact hsend _ _ _ _ (hl _ (List.getElem_mem _))
      · exact hl _ (List.getElem_mem _)
  have hfold : ∀ (ds : List Datagram) (l : List NetIf), (∀ n ∈ l, P n) →
      ∀ n ∈ ds.foldl (routeOne c routes) l, P n := by
    intro ds
    induction ds with
    | nil => exact fun l hl => hl
    | cons d ds ih => exact fun l hl => ih _ (hone l d hl)
  have hiface : ∀ (l : List NetIf) (i : Nat), (∀ n ∈ l, P n) → ∀ n ∈ drainIface c routes l i, P n := by
    intro l i hl
    unfold drainIface
    cases hi : l[i]? with
    | none => exact hl
    | some n =>
      apply hfold
      intro x hx
      rcases List.mem_or_eq_of_mem_set hx with hx | rfl
      · exact hl x hx
      · exact hempty n (hl n (List.mem_of_getElem? hi))
  have hall : ∀ (is : List Nat) (l : List NetIf), (∀ n ∈ l, P n) →
      ∀ n ∈ is.foldl (drainIface c routes) l, P n := by
    intro is
    induction is with
    | nil => exact fun l hl => hl
    | cons i is ih => exact fun l hl => ih _ (hiface l i hl)
  exact hall _ _ h

/-- Replacing one interface by another with the same value of `g` keeps the list of values. -/
theorem map_set_of_eq {α : Type} (g : NetIf → α) {ni : List NetIf} {i : Nat} {n : NetIf} (h : ni[i]? = some n)
    (n' : NetIf) (hg : g n' = g n) : (ni.set i n').map g = ni.map g := by
  apply List.ext_getElem?
  intro j
  simp only [List.getElem?_map, List.getElem?_set]
  split
  · subst_vars
    split <;> simp_all
  · rfl

/-- What neither sending nor emptying an `rx_queue` changes, RT.ROUTE does not change (R312). -/
theorem drainAll_map {α : Type} (g : NetIf → α) (hsend : ∀ n c d ip, g (n.send c d ip) = g n)
    (hempty : ∀ n : NetIf, g { n with rxQueue := [] } = g n) (c : Config.Codec) (routes : List RouteInfo)
    (ni : List NetIf) : (drainAll c routes ni).map g = ni.map g := by
  have hone : ∀ (l : List NetIf) (d : Datagram), (routeOne c routes l d).map g = l.map g := by
    intro l d
    rcases routeOne_cases c routes l d with h1 | ⟨i, b, ip, h1⟩
    · rw [h1]
    · rw [h1]
      apply List.ext_getElem <;> simp [List.getElem_modify]
      intro j hj
      split <;> simp [hsend]
  have hfold : ∀ (ds : List Datagram) (l : List NetIf), (ds.foldl (routeOne c routes) l).map g = l.map g := by
    intro ds
    induction ds with
    | nil => exact fun l => rfl
    | cons d ds ih => exact fun l => by rw [List.foldl_cons, ih, hone]
  have hiface : ∀ (l : List NetIf) (i : Nat), (drainIface c routes l i).map g = l.map g := by
    intro l i
    unfold drainIface
    cases hi : l[i]? with
    | none => rfl
    | some n =>
      simp only
      rw [hfold]
      exact map_set_of_eq g hi _ (hempty n)
  have hall : ∀ (is : List Nat) (l : List NetIf), (is.foldl (drainIface c routes) l).map g = l.map g := by
    intro is
    induction is with
    | nil => exact fun l => rfl
    | cons i is ih => exact fun l => by rw [List.foldl_cons, ih, hiface]
  exact hall _ _

theorem routeOne_length (c : Config.Codec) (routes : List RouteInfo) (ni : List NetIf) (d : Datagram) :
    (routeOne c routes ni d).length = ni.length := by
  rcases routeOne_cases c routes ni d with h | ⟨i, b, ip, h⟩ <;> simp [h]

end Sys2Proof.Laws
end

