-- ==== Sys2Proof/Laws/Reassembler.lean ====
section
/-! SUPPORT. What RaInsert does, step by step (spec/42_reassembler.md R191): what the store reads as after each step, and
that its canonical form and `pending` are kept. -/

namespace Sys2Proof.Laws

open Sys2Proof.Machine Sys2Proof.Safety

/-! Which units the steps write -/

@[simp] theorem raMark_ibs (s : State) (f : Nat) (d : List Byte) (l : Bool) : (raMark s f d l).ibs = s.ibs := by
  unfold raMark; split <;> rfl

@[simp] theorem raMark_store (s : State) (f : Nat) (d : List Byte) (l : Bool) :
    (raMark s f d l).ra.store = s.ra.store := by
  unfold raMark; split <;> rfl

@[simp] theorem raMark_pending (s : State) (f : Nat) (d : List Byte) (l : Bool) :
    (raMark s f d l).ra.pending = s.ra.pending := by
  unfold raMark; split <;> rfl

theorem raMark_lastSeen (s : State) (f : Nat) (d : List Byte) (l : Bool) :
    (raMark s f d l).ra.lastSeen = (s.ra.lastSeen || l) := by
  unfold raMark; cases l <;> simp

theorem raMark_lastIndex (s : State) (f : Nat) (d : List Byte) (l : Bool) :
    (raMark s f d l).ra.lastIndex = if l then f + d.length else s.ra.lastIndex := by
  unfold raMark; cases l <;> simp

@[simp] theorem raKeep_ibs (s : State) (f : Nat) (d : List Byte) : (raKeep s f d).ibs = s.ibs := rfl

@[simp] theorem raKeep_lastSeen (s : State) (f : Nat) (d : List Byte) :
    (raKeep s f d).ra.lastSeen = s.ra.lastSeen := rfl

@[simp] theorem raKeep_lastIndex (s : State) (f : Nat) (d : List Byte) :
    (raKeep s f d).ra.lastIndex = s.ra.lastIndex := rfl

@[simp] theorem raFlush_lastSeen (s : State) : (raFlush s).ra.lastSeen = s.ra.lastSeen := rfl

@[simp] theorem raFlush_lastIndex (s : State) : (raFlush s).ra.lastIndex = s.ra.lastIndex := rfl

theorem raCloseCheck_eq (s : State) :
    raCloseCheck s =
      s.setIbs { s.ibs with
        closed := s.ibs.closed || (s.ra.lastSeen && s.ra.pending == 0 && s.ibs.pushed == s.ra.lastIndex) } := by
  unfold raCloseCheck
  split
  · rename_i h
    simp only [h, Bool.or_true]
    rfl
  · rename_i h
    simp only [h, Bool.or_false]
    rfl

/-- RaInsert writes IBS and the Reassembler, nothing else. -/
theorem raInsert_eq_set (s : State) (f : Nat) (d : List Byte) (l : Bool) :
    raInsert s f d l = (s.setIbs (raInsert s f d l).ibs).setRa (raInsert s f d l).ra := by
  unfold raInsert
  simp only [drop_eq, raCloseCheck_eq, raMark]
  split <;> split <;> (try split) <;> rfl

/-! The store after step 4 -/

theorem raKeep_read (s : State) (f : Nat) (d : List Byte) (k : Nat) :
    Memory.read (raKeep s f d).ra.store k =
      match Memory.read s.ra.store k with
      | some b => some b
      | none => if f ≤ k ∧ s.windowStart ≤ k ∧ k < s.windowEnd then d[k - f]? else none := by
  simp only [raKeep, drop_eq, setRa_ra, raStore_read]
  cases hm : Memory.read s.ra.store k with
  | some b => rfl
  | none =>
    simp only
    by_cases hlo : max f s.windowStart ≤ k
    · have h1 : f ≤ k ∧ s.windowStart ≤ k := by omega
      rw [if_pos hlo]
      simp only [h1, true_and, List.getElem?_take, List.getElem?_drop]
      have h2 : max f s.windowStart - f + (k - max f s.windowStart) = k - f := by omega
      rw [h2]
      by_cases he : k < s.windowEnd
      · rw [if_pos he]
        by_cases hd : k < f + d.length
        · rw [if_pos (by omega)]
        · rw [if_neg (by omega), List.getElem?_eq_none (by omega)]
      · rw [if_neg he, if_neg (by omega)]
    · rw [if_neg hlo, if_neg (by omega)]

theorem raKeep_wf {s : State} (h : Memory.wf s.ra.store = true) (f : Nat) (d : List Byte) :
    Memory.wf (raKeep s f d).ra.store = true :=
  raStore_wf h _ _ _

theorem raKeep_pending {s : State} (h : Memory.wf s.ra.store = true) (hp : s.ra.pending = s.ra.store.length)
    (f : Nat) (d : List Byte) : (raKeep s f d).ra.pending = (raKeep s f d).ra.store.length := by
  simp only [raKeep, setRa_ra, hp]
  exact raStore_pending h _ _

/-- Nothing is kept of a fragment that is empty or starts at or beyond the window's end. -/
theorem raKeep_nothing {s : State} {f : Nat} {d : List Byte} (h : d.length = 0 ∨ s.windowEnd ≤ f) :
    raKeep s f d = s := by
  have : (List.drop (max f s.windowStart - f) d).take
      (min (f + d.length) s.windowEnd - max f s.windowStart) = [] := by
    apply List.eq_nil_of_length_eq_zero
    simp only [List.length_take, List.length_drop]
    omega
  simp only [raKeep, drop_eq, this, raStore]
  rfl

/-! The flush -/

/-- The run that step 5 flushes. -/
def flushRun (s : State) : List Byte := raRun s.ra.store s.ra.store.length s.windowStart

theorem flushRun_read (s : State) (j : Nat) (hj : j < (flushRun s).length) :
    Memory.read s.ra.store (s.windowStart + j) = (flushRun s)[j]? :=
  raRun_read _ _ _ _ hj

theorem flushRun_maximal (s : State) : Memory.read s.ra.store (s.windowStart + (flushRun s).length) = none :=
  raRun_maximal _ _

theorem raFlush_ibs (s : State) : (raFlush s).ibs = s.ibs.push (flushRun s) := rfl

theorem raFlush_store (s : State) :
    (raFlush s).ra.store = Memory.eraseRange s.ra.store s.windowStart (flushRun s).length := rfl

theorem raFlush_pending_eq (s : State) : (raFlush s).ra.pending = s.ra.pending - (flushRun s).length := rfl

theorem raFlush_read {s : State} (h : Memory.wf s.ra.store = true) (k : Nat) :
    Memory.read (raFlush s).ra.store k =
      if s.windowStart ≤ k ∧ k < s.windowStart + (flushRun s).length then none else Memory.read s.ra.store k := by
  rw [raFlush_store, memory_read_eraseRange h]

theorem raFlush_wf {s : State} (h : Memory.wf s.ra.store = true) : Memory.wf (raFlush s).ra.store = true :=
  memory_wf_eraseRange h _ _

theorem raFlush_pending {s : State} (h : Memory.wf s.ra.store = true) (hp : s.ra.pending = s.ra.store.length) :
    (raFlush s).ra.pending = (raFlush s).ra.store.length := by
  rw [raFlush_pending_eq, raFlush_store, eraseRange_length h, hp]
  intro j hj
  rw [flushRun_read s j hj, List.getElem?_eq_getElem hj]
  rfl

/-- With slot `U` unfilled there is nothing to flush. -/
theorem raFlush_nothing {s : State} (h : Memory.read s.ra.store s.windowStart = none) : raFlush s = s := by
  have hr : flushRun s = [] := by
    by_contra hne
    have hlen : 0 < (flushRun s).length := List.length_pos_iff.2 hne
    have := flushRun_read s 0 hlen
    rw [Nat.add_zero, h, List.getElem?_eq_getElem hlen] at this
    simp at this
  have hs : (raFlush s).ra.store = s.ra.store := by
    rw [raFlush_store, hr]
    simp only [Memory.eraseRange, List.length_nil, Nat.add_zero]
    apply List.filter_eq_self.2
    intro c _
    simp only [Bool.not_eq_true', Bool.and_eq_false_iff, decide_eq_false_iff_not]
    omega
  have hi : (raFlush s).ibs = s.ibs := by rw [raFlush_ibs, hr, push_nil]
  have hp : (raFlush s).ra.pending = s.ra.pending := by rw [raFlush_pending_eq, hr]; rfl
  show (s.setIbs (raFlush s).ibs).setRa
    { s.ra with store := (raFlush s).ra.store, pending := (raFlush s).ra.pending } = s
  rw [hi, hs, hp]
  rfl

/-! The whole insert -/

/-- Under the store's invariant the early return of step 2 does what the later steps would do, which is nothing but the
close check. -/
theorem raInsert_steps {s : State} (h : StoreOk s) (f : Nat) (d : List Byte) (l : Bool) :
    raInsert s f d l = raCloseCheck (raFlush (raKeep (raMark s f d l) f d)) := by
  have hstart : (raMark s f d l).windowStart = s.windowStart := by simp [State.windowStart]
  have hread : Memory.read (raMark s f d l).ra.store (raMark s f d l).windowStart = none := by
    rw [raMark_store, hstart, Memory.read, table_read_none_iff]
    intro c hc
    have := (h.2.2 c hc).1
    omega
  unfold raInsert
  simp only [drop_eq]
  split
  · rename_i h1
    rw [raKeep_nothing (.inl h1), raFlush_nothing hread]
  · split
    · rename_i h2
      rw [raKeep_nothing (.inr h2), raFlush_nothing hread]
    · rfl

/-! The store's invariant -/

/-- After step 4 every stored index lies inside the window. -/
theorem raKeep_bounds {s : State} (h : StoreOk s) (f : Nat) (d : List Byte) :
    ∀ c ∈ (raKeep s f d).ra.store, s.windowStart ≤ c.1 ∧ c.1 < s.windowEnd := by
  intro c hc
  have hr := (table_mem_iff_read (raKeep_wf h.1 f d) c.1 c.2).1 hc
  have hk := raKeep_read s f d c.1
  rw [Memory.read, hr] at hk
  cases hm : Memory.read s.ra.store c.1 with
  | some b =>
    have := h.2.2 _ (table_mem_of_read hm)
    simp only at this
    omega
  | none =>
    rw [hm] at hk
    simp only at hk
    split at hk
    · omega
    · simp at hk

/-- The run fits into IBS (R194). -/
theorem flushRun_le_avail {s : State} (h : StoreOk s) (f : Nat) (d : List Byte) :
    (flushRun (raKeep s f d)).length ≤ s.ibs.avail := by
  by_contra hlt
  have hj := flushRun_read (raKeep s f d) s.ibs.avail (by omega)
  have he : (raKeep s f d).windowStart + s.ibs.avail = s.windowEnd := rfl
  rw [he, List.getElem?_eq_getElem (by omega)] at hj
  have := raKeep_bounds h f d _ (table_mem_of_read hj)
  simp at this

theorem storeOk_raMark {s : State} (h : StoreOk s) (f : Nat) (d : List Byte) (l : Bool) : StoreOk (raMark s f d l) := by
  simpa [StoreOk, State.windowStart, State.windowEnd] using h

/-- What a run on an open stream pushes: all of it; on a closed or errored one, nothing (R194). -/
theorem accepts_flushRun {s : State} (h : StoreOk s) (f : Nat) (d : List Byte) :
    s.ibs.accepts (flushRun (raKeep s f d)) =
      if s.ibs.closed || s.ibs.error then 0 else (flushRun (raKeep s f d)).length := by
  cases hcl : (s.ibs.closed || s.ibs.error)
  · rw [accepts_of_open hcl, Nat.min_eq_right (flushRun_le_avail h f d)]
    rfl
  · rw [accepts_of_shut hcl]
    rfl

/-- RaInsert carries `bytes_pushed` no further than the window's end. -/
theorem raInsert_pushed_le {s : State} (h : InboundOk s) (f : Nat) (d : List Byte) (l : Bool) :
    (raInsert s f d l).ibs.pushed ≤ s.ibs.popped + s.ibs.cap.toNat := by
  rw [raInsert_steps h.2, raCloseCheck_eq]
  have hrun := flushRun_le_avail (storeOk_raMark h.2 f d l) f d
  have ha := accepts_le s.ibs (flushRun (raKeep (raMark s f d l) f d))
  have hw := windowEnd_eq h.1
  simp only [setIbs_ibs, raFlush_ibs, push_pushed, State.windowEnd, raKeep_ibs, raMark_ibs] at *
  omega

/-- With the window's end below 2^64 no insert overflows. -/
theorem not_raOverflows {s : State} (h : InboundOk s) (he : s.ibs.popped + s.ibs.cap.toNat < 2 ^ 64) (f : Nat)
    (d : List Byte) (l : Bool) : raOverflows s f d l = false := by
  have h1 := raInsert_pushed_le h f d l
  have hw := windowEnd_eq h.1
  simp only [raOverflows, Bool.or_eq_false_iff, Bool.and_eq_false_iff, decide_eq_false_iff_not, two64]
  omega

/-- RaInsert keeps the inbound invariants unless it overflows. -/
theorem inboundOk_raInsert {s : State} (h : InboundOk s) (f : Nat) (d : List Byte) (l : Bool)
    (hover : raOverflows s f d l = false) : InboundOk (raInsert s f d l) := by
  have hM := storeOk_raMark h.2 f d l
  simp only [raOverflows, Bool.or_eq_false_iff, Bool.and_eq_false_iff, decide_eq_false_iff_not] at hover
  obtain ⟨hkeep, hpush⟩ := hover
  rw [raInsert_steps h.2] at hpush ⊢
  set s2 := raKeep (raMark s f d l) f d with hs2
  have hbounds := raKeep_bounds hM f d
  have hwf := raKeep_wf hM.1 f d
  have hacc : s.ibs.accepts (flushRun s2) = if s.ibs.closed || s.ibs.error then 0 else (flushRun s2).length := by
    simpa using accepts_flushRun hM f d
  rw [← hs2] at hbounds hwf
  rw [raCloseCheck_eq] at hpush ⊢
  have hibs : s2.ibs = s.ibs := by simp [hs2]
  simp only [setIbs_ibs, raFlush_ibs, hibs] at hpush ⊢
  have hok : StreamOk (s.ibs.push (flushRun s2)) := streamOk_push h.1 _ (by omega)
  refine ⟨hok, ?_⟩
  refine ⟨raFlush_wf hwf, raFlush_pending hwf ?_, ?_⟩
  · rw [hs2]
    exact raKeep_pending hM.1 hM.2.1 f d
  · intro c hc
    have hread := (table_mem_iff_read (raFlush_wf hwf) c.1 c.2).1 hc
    have hr := raFlush_read hwf c.1
    rw [Memory.read, hread] at hr
    split at hr
    · simp at hr
    · rename_i hout
      have hmem := table_mem_of_read hr.symm
      have hb := hbounds _ hmem
      have hmax := flushRun_maximal s2
      have hne : c.1 ≠ s2.windowStart + (flushRun s2).length := by
        intro hEq
        rw [← hEq, ← hr] at hmax
        simp at hmax
      have hbelow : c.1 < two64 := by
        have hk := raKeep_read (raMark s f d l) f d c.1
        rw [← hs2, ← hr] at hk
        cases hm : Memory.read (raMark s f d l).ra.store c.1 with
        | some b => exact (hM.2.2 _ (table_mem_of_read hm)).2.2
        | none =>
          rw [hm] at hk
          simp only at hk
          split at hk
          · rename_i hin
            have hlen : c.1 - f < d.length := by
              by_contra hge
              rw [List.getElem?_eq_none (by omega)] at hk
              simp at hk
            simp only [State.windowStart, State.windowEnd, raMark_ibs] at hin hkeep
            omega
          · simp at hk
      have hw := windowEnd_eq h.1
      have hw2 := windowEnd_eq (s := s.setIbs (s.ibs.push (flushRun s2))) hok
      simp only [State.windowStart, State.windowEnd, setIbs_ibs, hibs, raMark_ibs, push_pushed, push_popped,
        push_cap, ByteStream.avail] at hb hout hne hw hw2 ⊢
      rw [hacc]
      have hle := accepts_le s.ibs (flushRun s2)
      refine ⟨?_, ?_, hbelow⟩
      · split <;> omega
      · have h1 := hok.1
        have h2 := hok.2.1
        have h3 := h.1.1
        simp only [push_pushed, push_popped, push_cap, hacc] at h1 h2
        split at h1 <;> omega

end Sys2Proof.Laws
end

