-- ==== Sys2Proof/Laws/Wrap.lean ====
section
/-! SUPPORT. What `wrap` and `unwrap` compute (spec/40_wrap32.md R151, R152), in naturals. -/

namespace Sys2Proof.Laws

open Sys2Proof.Machine

theorem add32_toNat (a : U32) (k : Nat) : (add32 a k).toNat = (a.toNat + k) % two32 := by
  simp [add32, BitVec.toNat_add, two32]

theorem wrap_toNat (n : Nat) (zero : U32) : (wrap n zero).toNat = (zero.toNat + n) % two32 :=
  add32_toNat _ _

/-- The offset that `unwrap` recovers from a wrapped number. -/
theorem wrap_sub_toNat (n : Nat) (zero : U32) : (wrap n zero - zero).toNat = n % two32 := by
  have hz : zero.toNat < two32 := zero.isLt
  rw [BitVec.toNat_sub, wrap_toNat]
  simp only [two32] at *
  omega

/-- The result of `unwrap` lies within 2^31 below the checkpoint's far side: it is one of the two candidates around the
checkpoint, the nearer one, the lower at equal distance, and the lowest or highest representable one at the ends. -/
theorem unwrap_spec (raw zero : U32) (c : Nat) (hc : c ≤ two64) :
    unwrap raw zero c < two64 ∧ unwrap raw zero c % two32 = (raw - zero).toNat ∧
      (unwrap raw zero c ≤ c + 2147483647 ∨ unwrap raw zero c < two32) ∧
      (c ≤ unwrap raw zero c + 2147483648 ∨ two64 ≤ unwrap raw zero c + two32) := by
  have ho : (raw - zero).toNat < two32 := (raw - zero).isLt
  unfold unwrap unwrapLow unwrapStart absDiff
  simp only [two32, two64] at *
  generalize (raw - zero).toNat = o at *
  obtain ⟨b, hb⟩ : ∃ b, b = c - c % 4294967296 := ⟨_, rfl⟩
  rw [← hb]
  split_ifs <;> omega

end Sys2Proof.Laws
end

