-- ==== Sys2Proof/Laws/Sender.lean ====
section
/-! SUPPORT. What the sender's operations do (spec/44_tcp_sender.md): one round of the TX.PUSH loop, the loop as an
induction, and the acknowledgement. -/

namespace Sys2Proof.Laws

open Sys2Proof.Machine Sys2Proof.Safety

/-! One round of TX.PUSH -/

theorem pullCount_le_buffer (s : State) (eff : Nat) : pullCount s eff ≤ s.obs.buffer.length := by
  simp only [pullCount]
  omega

theorem pullCount_le_payload (s : State) (eff : Nat) : pullCount s eff ≤ Config.maxPayloadSize := by
  simp only [pullCount]
  omega

@[simp] theorem nextSegment_payload_length (s : State) (eff : Nat) :
    (nextSegment s eff).payload.length = pullCount s eff := by
  have := pullCount_le_buffer s eff
  simp only [nextSegment, List.length_take]
  omega

/-- A round uses no more than the window that is left (R231). -/
theorem seqlen_nextSegment_le (s : State) (eff : Nat) (h : 0 < eff) : seqlen (nextSegment s eff) ≤ eff := by
  have hn : pullCount s eff ≤ roomForPayload s eff := by
    simp only [pullCount]
    omega
  have hfin : (nextSegment s eff).fin = true → 1 ≤ roomForPayload s eff - pullCount s eff := by
    simp only [nextSegment, Bool.and_eq_true, decide_eq_true_eq]
    exact fun h => h.2
  have hroom : roomForPayload s eff + (if (nextSegment s eff).syn then 1 else 0) = eff := by
    simp only [roomForPayload, nextSegment]
    by_cases hs : s.tx.synSent = true
    · simp [hs]
    · simp only [Bool.not_eq_true] at hs
      simp only [hs, Bool.false_eq_true, if_false, Bool.not_false, if_true]
      omega
  unfold seqlen
  rw [nextSegment_payload_length]
  cases hf : (nextSegment s eff).fin
  · simp only [Bool.false_eq_true, if_false]
    omega
  · have := hfin hf
    simp only [if_true]
    omega

/-! What a round writes -/

@[simp] theorem commitSegment_tx (s : State) (g : Segment) :
    (commitSegment s g).tx =
      { s.tx with
        synSent := s.tx.synSent || g.syn
        finSent := s.tx.finSent || g.fin
        ready := s.tx.ready ++ [g]
        outstanding := s.tx.outstanding ++ [{ abs := s.tx.cursor, seg := g }]
        cursor := s.tx.cursor + seqlen g } := rfl

@[simp] theorem commitSegment_obs (s : State) (g : Segment) :
    (commitSegment s g).obs = s.obs.pop g.payload.length := rfl

/-- TX.PUSH writes OBS and the sender, nothing else. -/
theorem pushLoop_eq_set (fuel eff : Nat) (s : State) :
    pushLoop fuel eff s = (s.setObs (pushLoop fuel eff s).obs).setTx (pushLoop fuel eff s).tx := by
  induction fuel generalizing eff s with
  | zero => rfl
  | succ fuel ih =>
    simp only [pushLoop]
    split
    · rfl
    · split
      · rfl
      · rw [ih]
        rfl

theorem txPushState_eq_set (s : State) :
    txPushState s = (s.setObs (txPushState s).obs).setTx (txPushState s).tx :=
  pushLoop_eq_set _ _ _

/-! The loop -/

/-- Whatever a round that queues a segment keeps, the loop keeps. -/
theorem pushLoop_keeps {P : State → Prop}
    (hround : ∀ (s : State) (eff : Nat), P s → 0 < eff → s.tx.finSent = false → 0 < seqlen (nextSegment s eff) →
      P (commitSegment s (nextSegment s eff)))
    (fuel eff : Nat) {s : State} (hs : P s) : P (pushLoop fuel eff s) := by
  induction fuel generalizing eff s with
  | zero => exact hs
  | succ fuel ih =>
    simp only [pushLoop]
    split
    · exact hs
    · rename_i h1
      split
      · exact hs
      · rename_i h2
        simp only [Bool.or_eq_true, decide_eq_true_eq, not_or, Bool.not_eq_true] at h1
        exact ih _ (hround s eff hs (by omega) h1.2 (by omega))

theorem txPushState_keeps {P : State → Prop}
    (hround : ∀ (s : State) (eff : Nat), P s → 0 < eff → s.tx.finSent = false → 0 < seqlen (nextSegment s eff) →
      P (commitSegment s (nextSegment s eff)))
    {s : State} (hs : P s) : P (txPushState s) :=
  pushLoop_keeps hround _ _ hs

/-- The window left is fuel enough: more fuel changes nothing. -/
theorem pushLoop_fuel (fuel eff : Nat) (s : State) (h : eff ≤ fuel) : pushLoop fuel eff s = pushLoop eff eff s := by
  induction fuel using Nat.strong_induction_on generalizing eff s with
  | _ fuel ih =>
    cases eff with
    | zero => cases fuel <;> simp [pushLoop]
    | succ eff =>
      cases fuel with
      | zero => omega
      | succ fuel =>
        simp only [pushLoop]
        split
        · rfl
        · split
          · rfl
          · rename_i h2
            rw [ih fuel (by omega) _ _ (by omega)]
            by_cases he : eff < fuel + 1
            · rw [ih eff he _ _ (by omega)]
            · omega

/-- Once a round has queued a segment, the loop goes on as TX.PUSH would from there. -/
theorem pushLoop_round (eff : Nat) (s : State) (h1 : 0 < eff) (h2 : s.tx.finSent = false)
    (h3 : 0 < seqlen (nextSegment s eff)) :
    pushLoop eff eff s =
      pushLoop (eff - seqlen (nextSegment s eff)) (eff - seqlen (nextSegment s eff))
        (commitSegment s (nextSegment s eff)) := by
  cases eff with
  | zero => omega
  | succ eff =>
    rw [pushLoop]
    rw [if_neg (by simp [h2]), if_neg (by omega), pushLoop_fuel _ _ _ (by omega)]

theorem pushLoop_stops (eff : Nat) (s : State)
    (h : eff = 0 ∨ s.tx.finSent = true ∨ seqlen (nextSegment s eff) = 0) : pushLoop eff eff s = s := by
  cases eff with
  | zero => rfl
  | succ eff =>
    rw [pushLoop]
    rcases h with h | h | h
    · omega
    · rw [if_pos (by simp [h])]
    · by_cases hf : s.tx.finSent = true
      · rw [if_pos (by simp [hf])]
      · rw [if_neg (by simp [hf]), if_pos h]

theorem inflight_append (t : Sender) (e : InFlight) :
    inflight { t with outstanding := t.outstanding ++ [e] } = inflight t + seqlen e.seg := by
  simp [inflight]

theorem effWindow_commit (s : State) (g : Segment) :
    effWindow (commitSegment s g).tx = effWindow s.tx - seqlen g := by
  have : inflight (commitSegment s g).tx = inflight s.tx + seqlen g := by
    simp [inflight]
  rw [effWindow, effWindow, this, Nat.sub_sub]
  rfl

/-- TX.PUSH unrolled by one round. -/
theorem txPushState_round (s : State) (h1 : 0 < effWindow s.tx) (h2 : s.tx.finSent = false)
    (h3 : 0 < seqlen (nextSegment s (effWindow s.tx))) :
    txPushState s = txPushState (commitSegment s (nextSegment s (effWindow s.tx))) := by
  rw [txPushState, txPushState, effWindow_commit, pushLoop_round _ _ h1 h2 h3]

theorem txPushState_stops (s : State)
    (h : effWindow s.tx = 0 ∨ s.tx.finSent = true ∨ seqlen (nextSegment s (effWindow s.tx)) = 0) :
    txPushState s = s :=
  pushLoop_stops _ _ h

/-! How far the cursor moves -/

/-- When a round sets FIN (R231). -/
theorem nextSegment_fin (s : State) (eff : Nat) :
    (nextSegment s eff).fin = true ↔
      s.obs.closed = true ∧ pullCount s eff = s.obs.buffer.length ∧ 1 ≤ roomForPayload s eff - pullCount s eff := by
  have := pullCount_le_buffer s eff
  simp only [nextSegment, ByteStream.finished, ByteStream.pop, Bool.and_eq_true, decide_eq_true_eq, List.isEmpty_iff,
    List.drop_eq_nil_iff]
  grind

/-- The sequence space of a round: SYN if due, the bytes pulled, FIN if set. -/
theorem seqlen_nextSegment (s : State) (eff : Nat) :
    seqlen (nextSegment s eff) =
      (if s.tx.synSent then 0 else 1) + pullCount s eff + (if (nextSegment s eff).fin then 1 else 0) := by
  unfold seqlen
  rw [nextSegment_payload_length]
  cases h : s.tx.synSent <;> simp [nextSegment, h]

/-- What the loop adds to the cursor: every unit that is due and fits the window. -/
theorem pushLoop_cursor (eff : Nat) (s : State) :
    (pushLoop eff eff s).tx.cursor = s.tx.cursor + (if s.tx.finSent then 0 else min eff (unitsDue s)) := by
  induction eff using Nat.strong_induction_on generalizing s with
  | _ eff ih =>
    have hq := seqlen_nextSegment s eff
    have hf := nextSegment_fin s eff
    have hp : pullCount s eff = min (roomForPayload s eff) (min Config.maxPayloadSize s.obs.buffer.length) := rfl
    have hm : 0 < Config.maxPayloadSize := by decide
    have hr : roomForPayload s eff = if s.tx.synSent then eff else eff - 1 := rfl
    have hle := seqlen_nextSegment_le s eff
    by_cases h : eff = 0 ∨ s.tx.finSent = true ∨ seqlen (nextSegment s eff) = 0
    · rw [pushLoop_stops _ _ h]
      unfold unitsDue
      grind
    · rw [pushLoop_round eff s (by omega) (by simpa using fun h' => h (.inr (.inl h'))) (by omega), ih _ (by omega)]
      have hb : (commitSegment s (nextSegment s eff)).obs.buffer.length = s.obs.buffer.length - pullCount s eff := by
        simp [ByteStream.pop]
        grind
      have hc : (commitSegment s (nextSegment s eff)).obs.closed = s.obs.closed := rfl
      have hsyn : (commitSegment s (nextSegment s eff)).tx.synSent = true := by
        simp [nextSegment]
      have hfin : (commitSegment s (nextSegment s eff)).tx.finSent = (nextSegment s eff).fin := by
        simp only [commitSegment_tx]
        grind
      have hcur : (commitSegment s (nextSegment s eff)).tx.cursor = s.tx.cursor + seqlen (nextSegment s eff) := rfl
      rw [hcur, hfin]
      unfold unitsDue
      rw [hb, hc, hsyn]
      grind

theorem txPushState_cursor (s : State) :
    (txPushState s).tx.cursor = s.tx.cursor + (if s.tx.finSent then 0 else min (effWindow s.tx) (unitsDue s)) :=
  pushLoop_cursor _ _

/-! Tiling -/

theorem tiles_append {es : List InFlight} {c : Nat} (h : Tiles es c) (e : InFlight) (he : e.abs = c) (c' : Nat)
    (hc : e.abs + seqlen e.seg = c') : Tiles (es ++ [e]) c' := by
  induction es with
  | nil => exact ⟨hc, trivial⟩
  | cons x rest ih =>
    cases rest with
    | nil => exact ⟨by simpa [he] using h.1, hc, trivial⟩
    | cons y rest => exact ⟨h.1, ih h.2⟩

theorem tiles_tail {e : InFlight} {rest : List InFlight} {c : Nat} (h : Tiles (e :: rest) c) : Tiles rest c := h.2

theorem tiles_dropWhile {es : List InFlight} {c : Nat} (h : Tiles es c) (p : InFlight → Bool) :
    Tiles (es.dropWhile p) c := by
  induction es with
  | nil => exact h
  | cons e rest ih =>
    simp only [List.dropWhile]
    split
    · exact ih (tiles_tail h)
    · exact h

/-- In a tiling the ends of the entries rise: an entry's end is at most every later entry's end, and all are at most the
cursor. -/
theorem tiles_ends {es : List InFlight} {c : Nat} (h : Tiles es c) :
    (∀ e ∈ es, e.abs + seqlen e.seg ≤ c) ∧
      es.Pairwise (fun x y => x.abs + seqlen x.seg ≤ y.abs) := by
  induction es with
  | nil => simp
  | cons e rest ih =>
    obtain ⟨h1, h2⟩ := ih h.2
    have hstart : ∀ y ∈ rest, e.abs + seqlen e.seg ≤ y.abs := by
      intro y hy
      cases rest with
      | nil => simp at hy
      | cons z rest =>
        have hz : e.abs + seqlen e.seg = z.abs := h.1
        rcases List.mem_cons.1 hy with rfl | hy
        · omega
        · have := (List.pairwise_cons.1 h2).1 y hy
          omega
    refine ⟨?_, List.pairwise_cons.2 ⟨hstart, h2⟩⟩
    intro y hy
    rcases List.mem_cons.1 hy with rfl | hy
    · cases rest with
      | nil => exact Nat.le_of_eq h.1
      | cons z rest =>
        have hz := h1 z (by simp)
        have := hstart z (by simp)
        omega
    · exact h1 y hy

/-- The sequence space of a tiling is what lies between its first entry and the cursor. -/
theorem tiles_sum {e : InFlight} {rest : List InFlight} {c : Nat} (h : Tiles (e :: rest) c) :
    e.abs + ((e :: rest).map (fun e => seqlen e.seg)).sum = c := by
  induction rest generalizing e with
  | nil => simpa using h.1
  | cons z rest ih =>
    have hz : e.abs + seqlen e.seg = z.abs := h.1
    have := ih h.2
    simp only [List.map_cons, List.sum_cons] at this ⊢
    omega

/-- In a tiling the segments an acknowledgement covers are a front part, so dropping from the front is filtering. -/
theorem tiles_retire {es : List InFlight} {c : Nat} (h : Tiles es c) (a : Nat) :
    es.dropWhile (covered a) = es.filter (fun e => !covered a e) := by
  induction es with
  | nil => rfl
  | cons e rest ih =>
    simp only [List.dropWhile, List.filter_cons]
    cases he : covered a e
    · simp only [Bool.not_false, if_true]
      have hp := (List.pairwise_cons.1 (tiles_ends h).2).1
      simp only [covered, decide_eq_false_iff_not] at he
      congr 1
      symm
      apply List.filter_eq_self.2
      intro y hy
      have := hp y hy
      simp only [covered, Bool.not_eq_true', decide_eq_false_iff_not]
      omega
    · simp only [Bool.not_true, Bool.false_eq_true, if_false]
      exact ih h.2

/-! The acknowledgement -/

/-- What an acknowledgement does to the sender: the window is stored; the rest stays, or a front part of `outstanding` goes
and the timer restarts. -/
theorem retire_cases (t : Sender) (a : Nat) :
    (retire t a = t ∧ t.outstanding.dropWhile (covered a) = t.outstanding) ∨
      (retire t a =
          { t with outstanding := t.outstanding.dropWhile (covered a), rtoCur := t.rto0, t := 0#64, retx := 0#64 } ∧
        t.outstanding.dropWhile (covered a) ≠ t.outstanding) := by
  have hsuf := List.dropWhile_suffix (l := t.outstanding) (covered a)
  unfold retire
  simp only
  split
  · rename_i h
    refine .inr ⟨rfl, ?_⟩
    intro heq
    rw [heq] at h
    omega
  · rename_i h
    exact .inl ⟨rfl, hsuf.eq_of_length (Nat.le_antisymm hsuf.length_le (by omega))⟩

theorem ackSender_cases (t : Sender) (m : AckMsg) :
    ackSender t m = { t with win := m.windowSize } ∨
      ∃ a, ackSender t m = retire { t with win := m.windowSize } a := by
  unfold ackSender
  simp only [drop_eq]
  cases m.ackno with
  | none => exact .inl rfl
  | some raw =>
    simp only
    split
    · exact .inl rfl
    · exact .inr ⟨_, rfl⟩

end Sys2Proof.Laws
end

