-- ==== Sys2Proof/Machine/Pseudo.lean ====
section
/-! DEFINITION. The pseudo-commands of spec/30_encoding.md R121, each as the list of real commands it stands for. -/

namespace Sys2Proof.Machine

/-- The six pseudo-commands (R121). -/
inductive Pseudo where
  | txAck (ackno : U32) (window : U16)
  | txWindow (window : U16)
  | raInsertLast (firstIndex : U64) (data : List Byte)
  | raFinish (firstIndex : U64)
  | rtTick (delta : U64)
  | niFlush (iface : U32)
  deriving DecidableEq, Repr

/-- How many `NI.MAYBE_SEND i` it takes to see `VALID = 0`: one for each queued frame and one more (R121, R274). For an `i` at or
above `N_IF`, a case R121 does not name, it is one, which is refused (R119): DESIGN CHOICE, notes/assumptions/18.md. -/
def flushCount (s : State) (i : Nat) : Nat :=
  match s.ni[i]? with
  | none => 1
  | some ni => ni.outQueue.length + 1

/-- The commands a pseudo-command expands to, issued from state `s` (R121). -/
def Pseudo.expand (s : State) : Pseudo → List Instr
  | .txAck a w => [.txReceive (some a) w]
  | .txWindow w => [.txReceive none w]
  | .raInsertLast i d => [.raInsert i d true]
  | .raFinish i => [.raInsert i [] true]
  | .rtTick delta => (List.range s.params.nIf).map (fun k => .niTick (BitVec.ofNat 32 k) delta)
  | .niFlush i => List.replicate (flushCount s i.toNat) (.niMaybeSend i)

end Sys2Proof.Machine
end

