-- ==== Sys2Proof/Machine/Text.lean ====
section
/-! DEFINITION. The textual form of commands (spec/30_encoding.md R120): mnemonic, word operands, byte-sequence
operand, FLAGS operands. A reader's aid: no command depends on it. -/

namespace Sys2Proof.Machine

/-- The mnemonic of a command (R118). -/
def mnemonic : Op → String
  | .sysReset => "SYS.RESET"
  | .w32Add => "W32.ADD"
  | .w32Wrap => "W32.WRAP"
  | .w32Unwrap => "W32.UNWRAP"
  | .bsPush => "BS.PUSH"
  | .bsClose => "BS.CLOSE"
  | .bsSetError => "BS.SET_ERROR"
  | .bsPeek => "BS.PEEK"
  | .bsPop => "BS.POP"
  | .bsAvail => "BS.AVAIL"
  | .bsPushed => "BS.PUSHED"
  | .bsPopped => "BS.POPPED"
  | .bsBuffered => "BS.BUFFERED"
  | .bsIsClosed => "BS.IS_CLOSED"
  | .bsIsFinished => "BS.IS_FINISHED"
  | .bsHasError => "BS.HAS_ERROR"
  | .raInsert => "RA.INSERT"
  | .raPending => "RA.PENDING"
  | .rxReceive => "RX.RECEIVE"
  | .rxSend => "RX.SEND"
  | .txPush => "TX.PUSH"
  | .txMaybeSend => "TX.MAYBE_SEND"
  | .txReceive => "TX.RECEIVE"
  | .txTick => "TX.TICK"
  | .txSendEmpty => "TX.SEND_EMPTY"
  | .txInFlight => "TX.IN_FLIGHT"
  | .txRetx => "TX.RETX"
  | .niSendDgram => "NI.SEND_DGRAM"
  | .niRecvFrame => "NI.RECV_FRAME"
  | .niTick => "NI.TICK"
  | .niMaybeSend => "NI.MAYBE_SEND"
  | .rtAddRoute => "RT.ADD_ROUTE"
  | .rtRoute => "RT.ROUTE"

/-- A hexadecimal digit. -/
def hexDigit (n : BitVec 4) : String := String.singleton (Nat.digitChar n.toNat)

/-- A byte sequence in the `h"61 62"` form (R120). -/
def textBytes (bs : List Byte) : String :=
  "h\"" ++ String.intercalate " " (bs.map fun b => hexDigit (b.extractLsb' 4 4) ++ hexDigit (b.extractLsb' 0 4))
    ++ "\""

/-- A stream select (R120). -/
def textStream : Stream → String
  | .ibs => "IBS"
  | .obs => "OBS"

/-- An optional operand; an absent one is `none` (R120). -/
def textOpt : Option U32 → String
  | none => "none"
  | some v => toString v.toNat

/-- A FLAGS operand as `name=value` (R120). -/
def textFlag (name : String) (b : Bool) : String := name ++ "=" ++ (if b then "1" else "0")

/-- The operands of a command in textual form. -/
def textOperands : Instr → List String
  | .w32Add raw k => [toString raw.toNat, toString k.toNat]
  | .w32Wrap n zero => [toString n.toNat, toString zero.toNat]
  | .w32Unwrap raw zero checkpoint => [toString raw.toNat, toString zero.toNat, toString checkpoint.toNat]
  | .bsPush data => ["OBS", textBytes data]
  | .bsClose => ["OBS"]
  | .bsPeek => ["IBS"]
  | .bsPop n => ["IBS", toString n.toNat]
  | .bsSetError sel | .bsAvail sel | .bsPushed sel | .bsPopped sel | .bsBuffered sel | .bsIsClosed sel
  | .bsIsFinished sel | .bsHasError sel => [textStream sel]
  | .raInsert firstIndex data isLast => [toString firstIndex.toNat, textBytes data, textFlag "last" isLast]
  | .rxReceive seqno payload syn fin =>
    [toString seqno.toNat, textBytes payload, textFlag "syn" syn, textFlag "fin" fin]
  | .txReceive ackno window =>
    [textOpt ackno, toString window.toNat, textFlag "has_ack" ackno.isSome]
  | .txTick delta => [toString delta.toNat]
  | .niSendDgram iface nextHop dgram => [toString iface.toNat, toString nextHop.toNat, textBytes dgram]
  | .niRecvFrame iface frame toRouter => [toString iface.toNat, textBytes frame, textFlag "q" toRouter]
  | .niTick iface delta => [toString iface.toNat, toString delta.toNat]
  | .niMaybeSend iface => [toString iface.toNat]
  | .rtAddRoute pfx prefixLen nextHop ifaceIdx =>
    [toString pfx.toNat, toString prefixLen.val, textOpt nextHop, toString ifaceIdx.toNat]
  | .sysReset | .raPending | .rxSend | .txPush | .txMaybeSend | .txSendEmpty | .txInFlight | .txRetx
  | .rtRoute => []

/-- `MNEMONIC operand, operand, ...` (R120). -/
def text (i : Instr) : String :=
  match textOperands i with
  | [] => mnemonic i.op
  | ops => mnemonic i.op ++ " " ++ String.intercalate ", " ops

end Sys2Proof.Machine
end

