-- ==== Sys2Proof/Tests/Slice0.lean ====
section
/-! SUPPORT. Tests. Expected values come from spec/30_encoding.md R118, R121, R122 and from the vectors of
spec/95_test_vectors.md and spec/96_test_vectors_2.md; the witnesses at the end show that the premises of the
statements can be met. -/

namespace Sys2Proof.Tests

open Sys2Proof Sys2Proof.Machine Sys2Proof.Safety

/-! A descriptor of every command, written out from the table of R118. -/

theorem test_decode_sysReset : decode 2 [0x00#8, 0x00#8, 0x00#8, 0x00#8] = .ok (.sysReset) := by decide
theorem test_decode_w32Add : decode 2 [0x10#8, 0x00#8, 0x00#8, 0x00#8, 0xFF#8, 0xFF#8, 0xFF#8, 0xFE#8, 0x00#8,
      0x00#8, 0x00#8, 0x05#8] =
    .ok (.w32Add 0xFFFFFFFE#32 5#32) := by decide
theorem test_decode_w32Wrap : decode 2 [0x11#8, 0x00#8, 0x00#8, 0x00#8, 0x00#8, 0x00#8, 0x00#8, 0x03#8, 0x00#8,
      0x00#8, 0x00#8, 0x11#8, 0x00#8, 0x00#8, 0x00#8, 0x0F#8] =
    .ok (.w32Wrap 0x0000000300000011#64 15#32) := by decide
theorem test_decode_w32Unwrap : decode 2 [0x12#8, 0x00#8, 0x00#8, 0x00#8, 0x00#8, 0x00#8, 0x00#8, 0x03#8, 0xFF#8,
      0xFF#8, 0xFF#8, 0xFE#8, 0x00#8, 0x00#8, 0x00#8, 0x01#8, 0x00#8, 0x00#8, 0x00#8, 0x02#8] =
    .ok (.w32Unwrap 3#32 0xFFFFFFFE#32 0x0000000100000002#64) := by decide
theorem test_decode_bsPush : decode 2 [0x20#8, 0x01#8, 0x00#8, 0x02#8, 0x61#8, 0x62#8] =
    .ok (.bsPush [0x61#8, 0x62#8]) := by decide
theorem test_decode_bsClose : decode 2 [0x21#8, 0x01#8, 0x00#8, 0x00#8] = .ok (.bsClose) := by decide
theorem test_decode_bsSetError : decode 2 [0x22#8, 0x00#8, 0x00#8, 0x00#8] = .ok (.bsSetError .ibs) := by decide
theorem test_decode_bsPeek : decode 2 [0x23#8, 0x00#8, 0x00#8, 0x00#8] = .ok (.bsPeek) := by decide
theorem test_decode_bsPop : decode 2 [0x24#8, 0x00#8, 0x00#8, 0x00#8, 0x00#8, 0x00#8, 0x00#8, 0x01#8, 0x00#8, 0x00#8,
      0x00#8, 0x02#8] =
    .ok (.bsPop 0x0000000100000002#64) := by decide
theorem test_decode_bsAvail : decode 2 [0x25#8, 0x01#8, 0x00#8, 0x00#8] = .ok (.bsAvail .obs) := by decide
theorem test_decode_bsPushed : decode 2 [0x26#8, 0x00#8, 0x00#8, 0x00#8] = .ok (.bsPushed .ibs) := by decide
theorem test_decode_bsPopped : decode 2 [0x27#8, 0x01#8, 0x00#8, 0x00#8] = .ok (.bsPopped .obs) := by decide
theorem test_decode_bsBuffered : decode 2 [0x28#8, 0x00#8, 0x00#8, 0x00#8] = .ok (.bsBuffered .ibs) := by decide
theorem test_decode_bsIsClosed : decode 2 [0x29#8, 0x01#8, 0x00#8, 0x00#8] = .ok (.bsIsClosed .obs) := by decide
theorem test_decode_bsIsFinished : decode 2 [0x2A#8, 0x00#8, 0x00#8, 0x00#8] = .ok (.bsIsFinished .ibs) := by decide
theorem test_decode_bsHasError : decode 2 [0x2B#8, 0x01#8, 0x00#8, 0x00#8] = .ok (.bsHasError .obs) := by decide
theorem test_decode_raInsert : decode 2 [0x30#8, 0x01#8, 0x00#8, 0x01#8, 0x00#8, 0x00#8, 0x00#8, 0x01#8, 0x00#8,
      0x00#8, 0x00#8, 0x02#8, 0x63#8] =
    .ok (.raInsert 0x0000000100000002#64 [0x63#8] true) := by decide
theorem test_decode_raPending : decode 2 [0x31#8, 0x00#8, 0x00#8, 0x00#8] = .ok (.raPending) := by decide
theorem test_decode_rxReceive : decode 2 [0x40#8, 0x02#8, 0x00#8, 0x01#8, 0x00#8, 0x00#8, 0x00#8, 0x64#8, 0x68#8] =
    .ok (.rxReceive 100#32 [0x68#8] false true) := by decide
theorem test_decode_rxSend : decode 2 [0x41#8, 0x00#8, 0x00#8, 0x00#8] = .ok (.rxSend) := by decide
theorem test_decode_txPush : decode 2 [0x50#8, 0x00#8, 0x00#8, 0x00#8] = .ok (.txPush) := by decide
theorem test_decode_txMaybeSend : decode 2 [0x51#8, 0x00#8, 0x00#8, 0x00#8] = .ok (.txMaybeSend) := by decide
theorem test_decode_txReceive : decode 2 [0x52#8, 0x01#8, 0x00#8, 0x00#8, 0x00#8, 0x00#8, 0x00#8, 0x07#8, 0x00#8,
      0x00#8, 0x00#8, 0x64#8] =
    .ok (.txReceive (some 7#32) 100#16) := by decide
theorem test_decode_txTick : decode 2 [0x53#8, 0x00#8, 0x00#8, 0x00#8, 0x00#8, 0x00#8, 0x00#8, 0x00#8, 0x00#8,
      0x00#8, 0x03#8, 0xE8#8] =
    .ok (.txTick 1000#64) := by decide
theorem test_decode_txSendEmpty : decode 2 [0x54#8, 0x00#8, 0x00#8, 0x00#8] = .ok (.txSendEmpty) := by decide
theorem test_decode_txInFlight : decode 2 [0x55#8, 0x00#8, 0x00#8, 0x00#8] = .ok (.txInFlight) := by decide
theorem test_decode_txRetx : decode 2 [0x56#8, 0x00#8, 0x00#8, 0x00#8] = .ok (.txRetx) := by decide
theorem test_decode_niSendDgram : decode 2 [0x60#8, 0x00#8, 0x00#8, 0x01#8, 0x00#8, 0x00#8, 0x00#8, 0x01#8, 0x0A#8,
      0x00#8, 0x00#8, 0x05#8, 0x45#8] =
    .ok (.niSendDgram 1#32 0x0A000005#32 [0x45#8]) := by decide
theorem test_decode_niRecvFrame : decode 2 [0x61#8, 0x01#8, 0x00#8, 0x01#8, 0x00#8, 0x00#8, 0x00#8, 0x01#8, 0xFF#8] =
    .ok (.niRecvFrame 1#32 [0xFF#8] true) := by decide
theorem test_decode_niTick : decode 2 [0x62#8, 0x00#8, 0x00#8, 0x00#8, 0x00#8, 0x00#8, 0x00#8, 0x01#8, 0x00#8,
      0x00#8, 0x00#8, 0x00#8, 0x00#8, 0x00#8, 0x75#8, 0x31#8] =
    .ok (.niTick 1#32 30001#64) := by decide
theorem test_decode_niMaybeSend : decode 2 [0x63#8, 0x00#8, 0x00#8, 0x00#8, 0x00#8, 0x00#8, 0x00#8, 0x01#8] =
    .ok (.niMaybeSend 1#32) := by decide
theorem test_decode_rtAddRoute : decode 2 [0x70#8, 0x01#8, 0x00#8, 0x00#8, 0x0A#8, 0x0A#8, 0x00#8, 0x00#8, 0x00#8,
      0x00#8, 0x00#8, 0x10#8, 0xC0#8, 0xA8#8, 0x00#8, 0xFE#8, 0x00#8, 0x00#8, 0x00#8, 0x01#8] =
    .ok (.rtAddRoute 0x0A0A0000#32 16 (some 0xC0A800FE#32) 1#32) := by decide
theorem test_decode_rtRoute : decode 2 [0x71#8, 0x00#8, 0x00#8, 0x00#8] = .ok (.rtRoute) := by decide

/-! Each kind of ill-formed descriptor and of ill-formed term (R112, R114, R119). -/

theorem test_illformed_truncated_header : decode 2 [0x00#8, 0x00#8, 0x00#8] = .error .truncatedHeader := by decide
theorem test_illformed_reserved_unit : decode 2 [0x80#8, 0x00#8, 0x00#8, 0x00#8] = .error .reservedUnit := by decide
theorem test_illformed_reserved_func : decode 2 [0x01#8, 0x00#8, 0x00#8, 0x00#8] = .error .reservedFunc := by decide
theorem test_illformed_reserved_func_router : decode 2 [0x72#8, 0x00#8, 0x00#8,
      0x00#8] = .error .reservedFunc := by decide
theorem test_illformed_wrong_stream : decode 2 [0x20#8, 0x00#8, 0x00#8, 0x00#8] = .error .wrongStream := by decide
theorem test_illformed_wrong_stream_peek : decode 2 [0x23#8, 0x01#8, 0x00#8, 0x00#8] = .error .wrongStream := by decide
theorem test_illformed_reserved_flags : decode 2 [0x00#8, 0x01#8, 0x00#8, 0x00#8] = .error .reservedFlags := by decide
theorem test_illformed_nonzero_len : decode 2 [0x50#8, 0x00#8, 0x00#8, 0x01#8, 0x61#8] = .error .nonzeroLen := by decide
theorem test_illformed_payload_missing : decode 2 [0x20#8, 0x01#8, 0x00#8, 0x02#8,
      0x61#8] = .error .wrongLength := by decide
theorem test_illformed_trailing_byte : decode 2 [0x31#8, 0x00#8, 0x00#8, 0x00#8,
      0x00#8] = .error .wrongLength := by decide
theorem test_illformed_window_high_bits : decode 2 [0x52#8, 0x00#8, 0x00#8, 0x00#8, 0x00#8, 0x00#8, 0x00#8, 0x00#8,
      0x00#8, 0x01#8, 0x00#8, 0x00#8] =
    .error .windowHighBits := by decide
theorem test_illformed_prefix_len_33 : decode 2 [0x70#8, 0x00#8, 0x00#8, 0x00#8, 0x00#8, 0x00#8, 0x00#8, 0x00#8,
      0x00#8, 0x00#8, 0x00#8, 0x21#8, 0x00#8, 0x00#8, 0x00#8, 0x00#8, 0x00#8, 0x00#8, 0x00#8, 0x00#8] =
    .error .prefixLenRange := by decide
theorem test_illformed_absent_ackno : decode 2 [0x52#8, 0x00#8, 0x00#8, 0x00#8, 0x00#8, 0x00#8, 0x00#8, 0x01#8,
      0x00#8, 0x00#8, 0x00#8, 0x00#8] =
    .error .absentOperand := by decide
theorem test_illformed_absent_next_hop : decode 2 [0x70#8, 0x00#8, 0x00#8, 0x00#8, 0x00#8, 0x00#8, 0x00#8, 0x00#8,
      0x00#8, 0x00#8, 0x00#8, 0x00#8, 0x00#8, 0x00#8, 0x00#8, 0x01#8, 0x00#8, 0x00#8, 0x00#8, 0x00#8] =
    .error .absentOperand := by decide
theorem test_illformed_interface_2 : decode 2 [0x63#8, 0x00#8, 0x00#8, 0x00#8, 0x00#8, 0x00#8, 0x00#8, 0x02#8] =
    .error .noSuchInterface := by decide

theorem test_illformed_payload_65536 : Instr.illFormed 2 (.bsPush (List.replicate 65536 0#8)) = some .payloadTooLong := by
  have h : (Instr.bsPush (List.replicate 65536 0#8)).payload.length = 65536 := List.length_replicate
  rw [Instr.illFormed, h]
  rfl

theorem test_wellformed_payload_65535 : Instr.wellFormed 2 (.bsPush (List.replicate 65535 0#8)) = true := by
  have h : (Instr.bsPush (List.replicate 65535 0#8)).payload.length = 65535 := List.length_replicate
  rw [Instr.wellFormed, Instr.illFormed, h]
  rfl

theorem test_illformed_term_interface : Instr.illFormed 2 (.niMaybeSend 2#32) = some .noSuchInterface := by decide

theorem test_illformed_term_route_interface :
    Instr.illFormed 2 (.rtAddRoute 0#32 0 none 0xFFFFFFFF#32) = some .noSuchInterface := by decide

/-! The encoder and the numbered words of the opcode table. -/

theorem test_encode_rtAddRoute :
    encode (.rtAddRoute 0x0A0A0000#32 16 none 1#32) =
      [0x70#8, 0#8, 0#8, 0#8, 0x0A#8, 0x0A#8, 0#8, 0#8, 0#8, 0#8, 0#8, 16#8, 0#8, 0#8, 0#8, 0#8, 0#8, 0#8, 0#8, 1#8] := by
  decide

theorem test_tableWord_bsPop : decodeTableWord 32 0x24000000 = some (.bsPop 0#64) := by decide

theorem test_tableWord_reserved : decodeTableWord 32 0xF0000000 = none := by decide

theorem test_text_rxReceive :
    text (.rxReceive 1001#32 [0x61#8, 0x62#8] false true) = "RX.RECEIVE 1001, h\"61 62\", syn=0, fin=1" := by
  decide

theorem test_pseudo_txAck : Pseudo.expand State.reset (.txAck 7#32 100#16) = [.txReceive (some 7#32) 100#16] := rfl

/-- R119, R121, notes/assumptions/18.md: NI.FLUSH of an interface that does not exist is the one command that is refused. -/
theorem test_pseudo_niFlush_absent :
    Pseudo.expand State.reset (.niFlush 2#32) = [.niMaybeSend 2#32] ∧
      exec (.niMaybeSend 2#32) State.reset = .refused .noSuchInterface := ⟨by decide, rfl⟩

/-- R127, notes/assumptions/17.md: the other words of this header sum to 0x4500 + 0x0014 + 0xBAEB = 0xFFFF, whose checksum is 0. -/
theorem test_checksum_verifies_by_equality :
    [0x0000#16, 0xFFFF#16].map (fun c => (stdParseIpv4 ([0x45#8, 0#8, 0#8, 0x14#8, 0xBA#8, 0xEB#8, 0#8, 0#8, 0#8, 0#8] ++
      bytes16 c ++ List.replicate 8 0#8)).isSome) = [true, false] := by decide

/-! States the tests start from. -/

/-- A small block whose frames can be written out: the interfaces of 96_test_vectors_2.md and the standard layouts. -/
def params : Config.Params :=
  { cIn := 8#64
    cOut := 8#64
    rto0 := 1000#64
    isnFixed := some 0#32
    ifaces := [(0x020000000001#48, 0x0A000001#32), (0x020000000002#48, 0x0A0A0001#32)]
    codec := .standard }

/-- That block after reset. -/
def fresh : State := State.resetWith params 0

/-- The next state, if there is one. -/
def next? : Result → Option State
  | .next t => some t
  | .fault _ => none
  | .refused _ => none

/-- The response a command gives. -/
def answer (i : Instr) (s : State) : Option (List Byte) := (next? (exec i s)).bind (fun t => t.resps.getLast?)

/-- What `f` reads of the state after a command. -/
def after {α : Type} (i : Instr) (s : State) (f : State → α) : Option α := (next? (exec i s)).map f

theorem next_of_isSome {r : Result} (h : (next? r).isSome = true) : ∃ t, r = .next t := by
  cases r with
  | next t => exact ⟨t, rfl⟩
  | fault f => cases f
  | refused _ => cases h

/-- The neighbour of scenario 6. -/
def neighbour : EthAddr := 0xAAAAAAAAAAAA#48

/-- A segment `xy` at absolute 1 and what a busy block holds besides. -/
def dataSegment : Segment := { seqno := 1#32, syn := false, payload := [0x78#8, 0x79#8], fin := false }

/-- The SYN of ISN 0. -/
def synSegment : Segment := { seqno := 0#32, syn := true, payload := [], fin := false }

/-- Interface 0 with a cached, a cooling-down and a waited-for neighbour, a frame to give and a datagram to route. -/
def busyIf : NetIf :=
  { eth := 0x020000000001#48
    ip := 0x0A000001#32
    arpCache := [(0x0A000005, { eth := neighbour, age := 100#64 })]
    arpInflight := [(0x0A000005, 1000#64), (0x0A000006, 4999#64)]
    pending := [(0x0A000006, [{ src := 0x020000000001#48, etype := 0x0800#16, payload := [0x70#8] }])]
    outQueue := [{ dst := neighbour, src := 0x020000000001#48, etype := 0x0800#16, payload := [0x71#8] }]
    rxQueue := [{ ttl := 2#8, dst := 0x0A0A0507#32, cksum := 0x9FBE#16, rest := List.replicate 13 0#8 }] }

/-- A block in mid connection: bytes buffered and stored, segments outstanding, ARP at work, two routes. -/
def busy : State :=
  { params := params
    draws := 0
    cmds := []
    resps := []
    ibs := { cap := 8#64, buffer := [0x61#8, 0x62#8], pushed := 3, popped := 1, closed := false, error := false }
    obs := { cap := 8#64, buffer := [0x7A#8], pushed := 3, popped := 2, closed := false, error := false }
    ra := { store := [(5, 0x66#8)], pending := 1, lastSeen := false, lastIndex := 0 }
    rx := { isnReceived := true, zero := 100#32 }
    tx := { isn := 0#32, rto0 := 1000#64, rtoCur := 1000#64, t := 5#64, retx := 0#64, synSent := true, finSent := false
            cursor := 3, outstanding := [{ abs := 0, seg := synSegment }, { abs := 1, seg := dataSegment }], win := 10#16
            ready := [dataSegment] }
    ni := [busyIf, NetIf.fresh (0x020000000002#48, 0x0A0A0001#32)]
    rt := { routes := [{ pfx := 0x0A0A0000#32, prefixLen := 16, nextHop := none, ifaceIdx := 1 },
                       { pfx := 0x0A000000#32, prefixLen := 8, nextHop := none, ifaceIdx := 0 }] } }

/-! One or two steps of every command. -/

theorem test_sysReset : after .sysReset busy (fun t => (t.ibs, t.tx.cursor, t.tx.win, t.rt.routes)) =
    some (ByteStream.fresh 8#64, 0, 1#16, []) := by decide

theorem test_sysReset_answer : answer .sysReset busy = some [0#8, 0#8, 0#8, 0#8] := by decide

/-- 2.1 row 2. -/
theorem test_w32Add : answer (.w32Add 0xFFFFFFFE#32 5#32) fresh =
    some [0x10#8, 0#8, 0#8, 0#8, 0#8, 0#8, 0#8, 3#8] := by decide

/-- 2.1 row 6. -/
theorem test_w32Wrap : answer (.w32Wrap 0x300000011#64 15#32) fresh =
    some [0x11#8, 0#8, 0#8, 0#8, 0#8, 0#8, 0#8, 32#8] := by decide

/-- 2.1 row 17: a tie goes to the lower candidate. -/
theorem test_w32Unwrap_tie : answer (.w32Unwrap 0x80000005#32 5#32 0x300000000#64) fresh =
    some [0x12#8, 0#8, 0#8, 0#8, 0#8, 0#8, 0#8, 2#8, 0x80#8, 0#8, 0#8, 0#8] := by decide

/-- 2.1 row 18: the candidate 2^64 does not exist. -/
theorem test_w32Unwrap_top : answer (.w32Unwrap 0#32 0#32 0xFFFFFFFFFFFFFFFF#64) fresh =
    some [0x12#8, 0#8, 0#8, 0#8, 0xFF#8, 0xFF#8, 0xFF#8, 0xFF#8, 0#8, 0#8, 0#8, 0#8] := by decide

/-- BS-1: the excess is lost. -/
theorem test_bsPush_truncates :
    after (.bsPush (List.replicate 9 0x61#8)) busy (fun t => (t.obs.buffer.length, t.obs.pushed)) = some (8, 10) := by
  decide

theorem test_bsClose : after .bsClose busy (fun t => (t.obs.closed, t.ibs.closed)) = some (true, false) := by decide

theorem test_bsSetError : after (.bsSetError .ibs) busy (fun t => (t.ibs.error, t.obs.error)) = some (true, false) := by
  decide

theorem test_bsPeek : answer .bsPeek busy = some [0x23#8, 0#8, 0#8, 2#8, 0x61#8, 0x62#8] := by decide

theorem test_bsPop_more_than_held : after (.bsPop 0xFFFFFFFFFFFFFFFF#64) busy (fun t => (t.ibs.buffer, t.ibs.popped)) =
    some ([], 3) := by decide

theorem test_bsAvail : answer (.bsAvail .obs) busy =
    some [0x25#8, 0#8, 0#8, 0#8, 0#8, 0#8, 0#8, 0#8, 0#8, 0#8, 0#8, 7#8] := by decide

theorem test_bsPushed : answer (.bsPushed .ibs) busy =
    some [0x26#8, 0#8, 0#8, 0#8, 0#8, 0#8, 0#8, 0#8, 0#8, 0#8, 0#8, 3#8] := by decide

theorem test_bsPopped : answer (.bsPopped .obs) busy =
    some [0x27#8, 0#8, 0#8, 0#8, 0#8, 0#8, 0#8, 0#8, 0#8, 0#8, 0#8, 2#8] := by decide

theorem test_bsBuffered : answer (.bsBuffered .ibs) busy =
    some [0x28#8, 0#8, 0#8, 0#8, 0#8, 0#8, 0#8, 0#8, 0#8, 0#8, 0#8, 2#8] := by decide

theorem test_bsIsClosed : answer (.bsIsClosed .obs) { busy with obs := { busy.obs with closed := true } } =
    some [0x29#8, 1#8, 0#8, 0#8] := by decide

theorem test_bsIsFinished_not_empty : answer (.bsIsFinished .obs) { busy with obs := { busy.obs with closed := true } } =
    some [0x2A#8, 0#8, 0#8, 0#8] := by decide

theorem test_bsHasError : answer (.bsHasError .ibs) { busy with obs := { busy.obs with error := true } } =
    some [0x2B#8, 0#8, 0#8, 0#8] := by decide

/-- Scenario 2: the first write wins, and the run that becomes contiguous is flushed. -/
theorem test_raInsert_overlap :
    after (.raInsert 3#64 [0x64#8, 0x65#8, 0xFF#8] false) busy (fun t => (t.ibs.buffer, t.ibs.pushed, t.ra.store)) =
      some ([0x61#8, 0x62#8, 0x64#8, 0x65#8, 0x66#8], 6, []) := by decide

/-- RA-8: the terminator is recorded from the untrimmed fragment, of which only the bytes below E = 9 are kept. -/
theorem test_raInsert_trims :
    after (.raInsert 7#64 [0x67#8, 0x68#8, 0x69#8] true) busy
      (fun t => (t.ra.store, t.ra.pending, t.ra.lastSeen, t.ra.lastIndex, t.ibs.closed)) =
      some ([(5, 0x66#8), (7, 0x67#8), (8, 0x68#8)], 3, true, 10, false) := by decide

theorem test_raPending : answer .raPending busy =
    some [0x31#8, 0#8, 0#8, 0#8, 0#8, 0#8, 0#8, 0#8, 0#8, 0#8, 0#8, 1#8] := by decide

/-- RX-3: SYN, payload and FIN in one segment. -/
theorem test_rxReceive_syn_fin :
    after (.rxReceive 7#32 [0x68#8, 0x69#8] true true) fresh
      (fun t => (t.rx.isnReceived, t.rx.zero, t.ibs.buffer, t.ibs.closed, t.ra.lastIndex)) =
      some (true, 7#32, [0x68#8, 0x69#8], true, 2) := by decide

/-- RX-4: a segment without SYN that claims the SYN's number is dropped. -/
theorem test_rxReceive_isn_without_syn :
    after (.rxReceive 100#32 [0x78#8] false true) busy (fun t => (t.ibs, t.ra)) = some (busy.ibs, busy.ra) := by decide

/-- RX-2, step 4. -/
theorem test_rxSend : answer .rxSend busy =
    some [0x41#8, 1#8, 0#8, 0#8, 0#8, 0#8, 0#8, 104#8, 0#8, 0#8, 0#8, 6#8] := by decide

/-- RX-1. -/
theorem test_rxSend_before_syn : answer .rxSend fresh =
    some [0x41#8, 0#8, 0#8, 0#8, 0#8, 0#8, 0#8, 0#8, 0#8, 0#8, 0#8, 8#8] := by decide

/-- Scenario 4 run A: SYN, payload and FIN in one segment under a window of 100. -/
theorem test_txPush_all_in_one :
    after .txPush
      { fresh with
        obs := { fresh.obs with buffer := [0x68#8, 0x69#8], pushed := 2, closed := true }
        tx := { fresh.tx with win := 100#16 } }
      (fun t => (t.tx.ready, t.tx.cursor, t.tx.finSent)) =
      some ([{ seqno := 0#32, syn := true, payload := [0x68#8, 0x69#8], fin := true }], 4, true) := by decide

/-- TX-1: a window of 0 is treated as 1. -/
theorem test_txPush_zero_window :
    after .txPush { busy with tx := { busy.tx with win := 0#16, outstanding := [] } } (fun t => (t.obs.buffer, t.tx.cursor)) =
      some ([], 4) := by decide

theorem test_txMaybeSend : answer .txMaybeSend busy =
    some [0x51#8, 1#8, 0#8, 2#8, 0#8, 0#8, 0#8, 1#8, 0x78#8, 0x79#8] := by decide

/-- TX-7: the acknowledgement of the first segment retires it alone and restarts the timer. -/
theorem test_txReceive_first :
    after (.txReceive (some 1#32) 10#16) busy (fun t => (t.tx.outstanding, t.tx.t)) =
      some ([{ abs := 1, seg := dataSegment }], 0#64) := by decide

/-- TX-4: an acknowledgement beyond the cursor stores the window and nothing else. -/
theorem test_txReceive_beyond :
    after (.txReceive (some 4#32) 3#16) busy (fun t => (t.tx.outstanding.length, t.tx.win, t.tx.t)) =
      some (2, 3#16, 5#64) := by decide

/-- TX-7: the oldest goes to the head of `ready`. -/
theorem test_txTick_alarm :
    after (.txTick 995#64) busy (fun t => (t.tx.ready, t.tx.retx, t.tx.rtoCur, t.tx.t)) =
      some ([synSegment, dataSegment], 1#64, 2000#64, 0#64) := by decide

/-- TX-9: one millisecond short of the timeout. -/
theorem test_txTick_short : after (.txTick 994#64) busy (fun t => (t.tx.ready.length, t.tx.t)) = some (1, 999#64) := by
  decide

theorem test_txSendEmpty : answer .txSendEmpty busy = some [0x54#8, 1#8, 0#8, 0#8, 0#8, 0#8, 0#8, 3#8] := by decide

theorem test_txInFlight : answer .txInFlight busy =
    some [0x55#8, 0#8, 0#8, 0#8, 0#8, 0#8, 0#8, 0#8, 0#8, 0#8, 0#8, 3#8] := by decide

theorem test_txRetx : answer .txRetx { busy with tx := { busy.tx with retx := 0x100000002#64 } } =
    some [0x56#8, 0#8, 0#8, 0#8, 0#8, 0#8, 0#8, 1#8, 0#8, 0#8, 0#8, 2#8] := by decide

/-- Scenario 6, step 1: parked, and one broadcast request, whose bytes R126 gives. -/
theorem test_niSendDgram_miss :
    after (.niSendDgram 0#32 0x0A000005#32 [0x45#8]) fresh
      (fun t => t.ni.head?.map (fun n => (n.pending.map (·.1), n.outQueue.map serializeFrame))) =
      some (some ([0x0A000005],
        [[0xFF#8, 0xFF#8, 0xFF#8, 0xFF#8, 0xFF#8, 0xFF#8, 2#8, 0#8, 0#8, 0#8, 0#8, 1#8, 8#8, 6#8] ++
         [0#8, 1#8, 8#8, 0#8, 6#8, 4#8, 0#8, 1#8, 2#8, 0#8, 0#8, 0#8, 0#8, 1#8, 10#8, 0#8, 0#8, 1#8,
          0#8, 0#8, 0#8, 0#8, 0#8, 0#8, 10#8, 0#8, 0#8, 5#8]])) := by decide

/-- Scenario 6, step 7: framed at once. -/
theorem test_niSendDgram_hit :
    after (.niSendDgram 0#32 0x0A000005#32 [0x45#8]) busy
      (fun t => t.ni.head?.map (fun n => (n.outQueue.length, (n.outQueue.getLast?).map (fun f => f.dst)))) =
      some (some (2, some neighbour)) := by decide

/-- NI-4: learn, then reply. The frame is the broadcast request of BB:BB:BB:BB:BB:BB, 10.0.0.9. -/
theorem test_niRecvFrame_request :
    after (.niRecvFrame 0#32
        ([0xFF#8, 0xFF#8, 0xFF#8, 0xFF#8, 0xFF#8, 0xFF#8, 0xBB#8, 0xBB#8, 0xBB#8, 0xBB#8, 0xBB#8, 0xBB#8, 8#8, 6#8] ++
         [0#8, 1#8, 8#8, 0#8, 6#8, 4#8, 0#8, 1#8, 0xBB#8, 0xBB#8, 0xBB#8, 0xBB#8, 0xBB#8, 0xBB#8, 10#8, 0#8, 0#8, 9#8,
          0#8, 0#8, 0#8, 0#8, 0#8, 0#8, 10#8, 0#8, 0#8, 1#8]) false) fresh
      (fun t => t.ni.head?.map (fun n => (n.arpCache, n.outQueue.map serializeFrame))) =
      some (some ([(0x0A000009, { eth := 0xBBBBBBBBBBBB#48, age := 0#64 })],
        [[0xBB#8, 0xBB#8, 0xBB#8, 0xBB#8, 0xBB#8, 0xBB#8, 2#8, 0#8, 0#8, 0#8, 0#8, 1#8, 8#8, 6#8] ++
         [0#8, 1#8, 8#8, 0#8, 6#8, 4#8, 0#8, 2#8, 2#8, 0#8, 0#8, 0#8, 0#8, 1#8, 10#8, 0#8, 0#8, 1#8,
          0xBB#8, 0xBB#8, 0xBB#8, 0xBB#8, 0xBB#8, 0xBB#8, 10#8, 0#8, 0#8, 9#8]])) := by decide

/-- Scenario 7, step 3: the datagram 10.0.0.9 to 10.10.5.7 waits for the Router. -/
theorem test_niRecvFrame_to_router :
    after (.niRecvFrame 0#32
        ([2#8, 0#8, 0#8, 0#8, 0#8, 1#8, 0xBB#8, 0xBB#8, 0xBB#8, 0xBB#8, 0xBB#8, 0xBB#8, 8#8, 0#8] ++
         [0x45#8, 0#8, 0#8, 0x16#8, 0#8, 0#8, 0#8, 0#8, 2#8, 0x11#8, 0x9F#8, 0xBE#8, 10#8, 0#8, 0#8, 9#8, 10#8, 10#8, 5#8,
          7#8, 0x68#8, 0x69#8]) true) fresh
      (fun t => t.ni.head?.map (fun n => n.rxQueue.map (fun d => (d.ttl, d.dst, d.cksum)))) =
      some (some [(2#8, 0x0A0A0507#32, 0x9FBE#16)]) := by decide

/-- NI-1, NI-3: age 5000 stays, 5001 goes; the parked frame stays. -/
theorem test_niTick_cooldown :
    after (.niTick 0#32 2#64) busy (fun t => t.ni.head?.map (fun n => (n.arpInflight, n.pending.length))) =
      some (some ([(0x0A000005, 1002#64)], 1)) := by decide

theorem test_niTick_cache :
    after (.niTick 0#32 29901#64) busy (fun t => t.ni.head?.map (fun n => n.arpCache)) = some (some []) := by decide

theorem test_niMaybeSend : answer (.niMaybeSend 0#32) busy =
    some [0x63#8, 1#8, 0#8, 15#8, 0xAA#8, 0xAA#8, 0xAA#8, 0xAA#8, 0xAA#8, 0xAA#8, 2#8, 0#8, 0#8, 0#8, 0#8, 1#8, 8#8, 0#8,
      0x71#8] := by decide

/-- RT-1: behind the routes that are at least as long. -/
theorem test_rtAddRoute :
    after (.rtAddRoute 0xAC100000#32 16 none 0#32) busy (fun t => t.rt.routes.map (fun r => r.pfx)) =
      some [0x0A0A0000#32, 0xAC100000#32, 0x0A000000#32] := by decide

/-- Scenario 7: forwarded by interface 1 with ttl 1 and the checksum of the new header. -/
theorem test_rtRoute :
    after .rtRoute
      { busy with
        ni := [NetIf.fresh (0x020000000001#48, 0x0A000001#32),
          { NetIf.fresh (0x020000000002#48, 0x0A0A0001#32) with
            rxQueue := [{ ttl := 2#8, dst := 0x0A0A0507#32, cksum := 0x9FBE#16
                          rest := [0x45#8, 0#8, 0#8, 0x16#8, 0#8, 0#8, 0#8, 0#8, 0x11#8, 10#8, 0#8, 0#8, 9#8, 0x68#8, 0x69#8] }]
            arpCache := [(0x0A0A0507, { eth := neighbour, age := 0#64 })] }] }
      (fun t => (t.ni.drop 1).map (fun n => n.outQueue.map (fun f => f.payload))) =
      some [[[0x45#8, 0#8, 0#8, 0x16#8, 0#8, 0#8, 0#8, 0#8, 1#8, 0x11#8, 0xA0#8, 0xBE#8, 10#8, 0#8, 0#8, 9#8, 10#8, 10#8, 5#8,
        7#8, 0x68#8, 0x69#8]]] := by decide

/-- A step from reset on the word of BS.CLOSE OBS. -/
theorem test_step_withFetchWord :
    (next? (step (State.reset.withFetchWord 32 0x21010000))).map (fun t => (t.obs.closed, t.cmds)) = some (true, []) := by
  decide

/-! Witnesses: concrete states and operands that meet the premises of the statements, one theorem for each statement
that has premises, one conjunct for each of its clauses, at the boundary where a clause has one. -/

theorem busy_streams : StreamOk busy.ibs ∧ StreamOk busy.obs := by
  unfold StreamOk
  decide

theorem busy_storeOk : StoreOk busy := by
  refine ⟨rfl, rfl, ?_⟩
  intro c hc
  simp only [busy, List.mem_cons, List.not_mem_nil, or_false] at hc
  subst hc
  decide

theorem busy_senderOk : SenderOk busy.tx := by
  refine ⟨⟨rfl, rfl, trivial⟩, ?_, by decide, by decide, by decide⟩
  intro e he
  simp only [busy, List.mem_cons, List.not_mem_nil, or_false] at he
  rcases he with rfl | rfl <;> unfold InFlightOk <;> decide

theorem fresh_netIfOk (a : EthAddr × U32) : NetIfOk (NetIf.fresh a) := by
  refine ⟨rfl, rfl, rfl, ?_, ?_, ?_⟩ <;> intro c hc <;> cases hc

theorem busyIf_ok : NetIfOk busyIf := by
  unfold NetIfOk
  decide

theorem busy_linkOk : LinkOk busy := by
  refine ⟨?_, by decide, by decide⟩
  intro n hn
  simp only [busy, List.mem_cons, List.not_mem_nil, or_false] at hn
  rcases hn with rfl | rfl
  · exact busyIf_ok
  · exact fresh_netIfOk _

theorem busy_inv : Inv busy := by
  refine ⟨⟨busy_streams.1, busy_storeOk⟩, ⟨busy_streams.2, busy_senderOk, rfl⟩, busy_linkOk, rfl, rfl, rfl, ?_, rfl⟩
  intro v hv
  exact Option.some.inj hv

/-- `busy` with one command presented. -/
def waiting (i : Instr) : State := { busy with cmds := [encode i] }

theorem waiting_inv (i : Instr) : Inv (waiting i) := busy_inv

/-- A block with no room left but for one command: `E` is 2^64 − 1, and so are `bytes_pushed` of OBS and the cursor once
65535 is added. -/
def edge : State :=
  { busy with
    ibs := { busy.ibs with buffer := [], pushed := two64 - 9, popped := two64 - 9 }
    obs := { busy.obs with buffer := [], pushed := two64 - 65536, popped := two64 - 65536 }
    ra := { busy.ra with store := [], pending := 0 }
    tx := { busy.tx with cursor := two64 - 65536, outstanding := [] } }

theorem edge_inv : Inv edge := by
  refine ⟨⟨by unfold StreamOk; decide, ⟨rfl, rfl, ?_⟩⟩, ⟨by unfold StreamOk; decide, ⟨trivial, ?_, by decide, by decide, by decide⟩, rfl⟩, busy_linkOk,
    busy_inv.2.2.2⟩
  · intro c hc
    cases hc
  · intro e he
    cases he

/-- A stream that agrees with all that `busy` holds inbound: index 1 on is `ab`, index 5 is `f`. -/
def inStream (k : Nat) : Byte := [0x60#8, 0x61#8, 0x62#8, 0x64#8, 0x65#8, 0x66#8].getD k 0#8

/-- A stream that agrees with all that `busy` holds outbound: `xyz`. -/
def outStream (k : Nat) : Byte := [0x78#8, 0x79#8, 0x7A#8].getD k 0#8

theorem witness_StepKeepsInbound :
    ∃ s t, InboundOk s ∧ s.ra.store ≠ [] ∧ step s = .next t ∧ t.ra.store = [] :=
  have h : (next? (step (waiting (.raInsert 3#64 [0x64#8, 0x65#8] false)))).map (fun t => t.ra.store) = some [] := by decide
  match hn : step (waiting (.raInsert 3#64 [0x64#8, 0x65#8] false)) with
  | .next t => ⟨_, t, (waiting_inv _).1, by decide, hn, by rw [hn] at h; exact Option.some.inj h⟩
  | .refused _ => by rw [hn] at h; cases h

theorem witness_StepKeepsOutbound : OutboundOk (waiting .txPush) ∧ ∃ t, step (waiting .txPush) = .next t :=
  ⟨(waiting_inv _).2.1, next_of_isSome (by decide)⟩

theorem witness_StepKeepsLink :
    LinkOk (waiting (.niTick 0#32 29901#64)) ∧ ∃ t, step (waiting (.niTick 0#32 29901#64)) = .next t :=
  ⟨(waiting_inv _).2.2.1, next_of_isSome (by decide)⟩

theorem witness_StepKeepsConstants : ConstantsOk (waiting .sysReset) ∧ ∃ t, step (waiting .sysReset) = .next t :=
  ⟨(waiting_inv _).2.2.2, next_of_isSome (by decide)⟩

theorem witness_EveryCommandCompletes :
    Inv busy ∧ CounterRoom busy ∧ Inv edge ∧ CounterRoom edge ∧
      Instr.wellFormed edge.params.nIf (.niSendDgram 1#32 0#32 []) = true :=
  ⟨busy_inv, by unfold CounterRoom; decide, edge_inv, by unfold CounterRoom; decide, by decide⟩

theorem witness_StepRunsDecoded :
    decode busy.params.nIf (encode (.bsPop 1#64)) = .ok (.bsPop 1#64) ∧
      decode busy.params.nIf [0x80#8, 0#8, 0#8, 0#8] = .error .reservedUnit ∧ fresh.cmds = [] := by decide

theorem witness_DecodeEncode :
    Instr.wellFormed 2 (.rtAddRoute 0xFFFFFFFF#32 32 (some 0#32) 1#32) = true ∧
      Instr.wellFormed 2 (.bsPush (List.replicate 65535 0#8)) = true :=
  ⟨by decide, test_wellformed_payload_65535⟩

theorem witness_EncodeDecode : decode 2 [0x21#8, 1#8, 0#8, 0#8] = .ok .bsClose := by decide

theorem witness_DecodesExactlyWellFormed : ∃ i, decode 2 [0x21#8, 1#8, 0#8, 0#8] = .ok i := ⟨.bsClose, by decide⟩

theorem witness_ReservedRefusedByName :
    [0#8, 0#8, 0#8].length < 4 ∧ 0x80 ≤ (0x80#8).toNat ∧
      ((0x72#8).toNat < 0x80 ∧ [1, 3, 12, 2, 2, 7, 4, 2].getD ((0x72#8).toNat / 16) 0 ≤ (0x72#8).toNat % 16) ∧
      ¬ StreamRight .bsClose 0#8 ∧ ¬ StreamRight .bsPop 1#8 ∧
      (StreamRight .rxReceive 4#8 ∧ 4#8 &&& ~~~ definedFlags .rxReceive ≠ 0#8) ∧
      (StreamRight .bsClose 1#8 ∧ 1#8 &&& ~~~ definedFlags .bsClose = 0#8 ∧
        Op.bsClose ∉ [Op.bsPush, .raInsert, .rxReceive, .niSendDgram, .niRecvFrame]) ∧
      (HeaderRight .raPending 0#8 0 ∧ [0#8].length ≠ 4 * Op.raPending.row.operandWords + 0) ∧
      HeaderRight .rxReceive 3#8 65535 := by
  unfold HeaderRight StreamRight
  repeat' apply And.intro
  all_goals decide

/-- The operand words of a descriptor meet the clauses on them at the boundary of each range. -/
theorem witness_ReservedRefusedByName_operands :
    (HeaderRight .txReceive 0#8 0 ∧ HeaderRight .txReceive 1#8 0 ∧
      (wordsOf 2 (bytesOfWords [1#32, 65536#32])).getD 0 0#32 ≠ 0#32 ∧
      65536 ≤ ((wordsOf 2 (bytesOfWords [0#32, 65536#32])).getD 1 0#32).toNat) ∧
      (HeaderRight .rtAddRoute 0#8 0 ∧ HeaderRight .rtAddRoute 1#8 0 ∧
        32 < ((wordsOf 4 (bytesOfWords [0#32, 33#32, 0#32, 0#32])).getD 1 0#32).toNat ∧
        ((wordsOf 4 (bytesOfWords [0#32, 32#32, 1#32, 2#32])).getD 1 0#32).toNat ≤ 32 ∧
        (wordsOf 4 (bytesOfWords [0#32, 32#32, 1#32, 2#32])).getD 2 0#32 ≠ 0#32 ∧
        2 ≤ ((wordsOf 4 (bytesOfWords [0#32, 32#32, 0#32, 2#32])).getD 3 0#32).toNat) ∧
      HeaderRight .niTick 0#8 0 ∧ 2 ≤ ((wordsOf 3 (bytesOfWords [2#32, 0#32, 0#32])).getD 0 0#32).toNat := by
  unfold HeaderRight StreamRight
  repeat' apply And.intro
  all_goals decide

/-- The reasons, by name, at those boundaries: notes/assumptions/9.md gives their order. -/
theorem test_reasons_in_order :
    ([[0x52#8, 0#8, 0#8, 0#8] ++ bytesOfWords [1#32, 65536#32],
      [0x52#8, 1#8, 0#8, 0#8] ++ bytesOfWords [1#32, 65536#32],
      [0x70#8, 0#8, 0#8, 0#8] ++ bytesOfWords [0#32, 33#32, 1#32, 2#32],
      [0x70#8, 0#8, 0#8, 0#8] ++ bytesOfWords [0#32, 32#32, 1#32, 2#32],
      [0x70#8, 1#8, 0#8, 0#8] ++ bytesOfWords [0#32, 32#32, 1#32, 2#32],
      [0x21#8, 2#8, 0#8, 1#8], [0x21#8, 3#8, 0#8, 1#8], [0x21#8, 1#8, 0#8, 1#8]].map (decode 2)) =
    [.error .absentOperand, .error .windowHighBits, .error .prefixLenRange, .error .absentOperand,
      .error .noSuchInterface, .error .wrongStream, .error .reservedFlags, .error .nonzeroLen] := by decide

theorem witness_OneResponsePerCommand : ∃ t, exec .bsPeek busy = .next t := next_of_isSome (by decide)

theorem witness_UnwrapInvertsWrap :
    absDiff 5 (5 + 2147483647) < 2 ^ 31 ∧ 0 + 2 ^ 31 = 2147483648 ∧ 2 ^ 32 = 2147483648 + 2 ^ 31 ∧ 2 ^ 32 < two64 := by decide

theorem witness_BsPushResult :
    two64 - 2 + min 1 [0#8].length < 2 ^ 64 ∧
      (∃ t, exec (.bsPush [0#8]) { busy with obs := { busy.obs with pushed := two64 - 2 } } = .next t) ∧
      2 ^ 64 ≤ two64 - 1 + min 1 [0#8].length :=
  ⟨by decide, next_of_isSome (by decide), by decide⟩

theorem witness_StreamsAreFifo : Instr.txPush ≠ .sysReset ∧ ∃ t, exec .txPush busy = .next t :=
  ⟨by decide, next_of_isSome (by decide)⟩

theorem witness_RaInsertResult : InboundOk edge ∧ edge.ibs.popped + edge.ibs.cap.toNat < 2 ^ 64 :=
  ⟨edge_inv.1, by decide⟩

theorem witness_RaDuplicateIdempotent :
    InboundOk busy ∧ busy.ibs.popped + busy.ibs.cap.toNat < 2 ^ 64 ∧
      (∃ t, exec (.raInsert 3#64 [0x64#8, 0x65#8] false) busy = .next t) ∧ busy.ibs.closed = false ∧
      busy.ibs.error = false ∧ Memory.read busy.ra.store 5 = some 0x66#8 :=
  ⟨busy_inv.1, by decide, next_of_isSome (by decide), rfl, rfl, rfl⟩

theorem witness_RaInsertSplits :
    InboundOk busy ∧ busy.ra.lastSeen = false ∧
      (∃ t1, exec (.raInsert 3#64 [0x64#8] false) busy = .next t1 ∧
        ∃ t2, exec (.raInsert (3#64 + BitVec.ofNat 64 1) [0x65#8] true) t1 = .next t2) ∧
      ∃ t, exec (.raInsert 3#64 ([0x64#8] ++ [0x65#8]) true) busy = .next t := by
  refine ⟨busy_inv.1, rfl, ?_, next_of_isSome (by decide)⟩
  have h : (next? (exec (.raInsert 3#64 [0x64#8] false) busy)).bind
      (fun t => next? (exec (.raInsert (3#64 + BitVec.ofNat 64 1) [0x65#8] true) t)) ≠ none := by decide
  cases hn : exec (.raInsert 3#64 [0x64#8] false) busy with
  | fault f => cases f
  | refused r => simp [hn, next?] at h
  | next t1 =>
    refine ⟨t1, rfl, next_of_isSome ?_⟩
    rw [hn] at h
    exact Option.isSome_iff_ne_none.mpr h

theorem witness_RaPendingResult : InboundOk busy := busy_inv.1

theorem witness_WindowNeverMovesBack : InboundOk busy ∧ ∃ t, exec (.bsPop 2#64) busy = .next t :=
  ⟨busy_inv.1, next_of_isSome (by decide)⟩

theorem witness_InboundCarriesTheStream :
    InboundOk busy ∧ HoldsStream inStream busy ∧ InsertsStream inStream busy (.raInsert 3#64 [0x64#8, 0x65#8] false) ∧
      (∃ t, exec (.raInsert 3#64 [0x64#8, 0x65#8] false) busy = .next t) ∧
      InsertsStream inStream busy (.rxReceive 104#32 [0x64#8] false false) := by
  refine ⟨busy_inv.1, ⟨by unfold CarriesAt; decide, ?_⟩, by unfold InsertsStream CarriesAt; decide,
    next_of_isSome (by decide), ?_⟩
  · intro i b h
    simp only [busy, Memory.read, Table.read] at h
    split at h
    · subst_vars
      exact (Option.some.inj h).symm
    · cases h
  · intro idx h
    have h3 : rxIndex (rxMark busy 104#32 false) 104#32 false = some 3 := by decide
    rw [h3] at h
    cases h
    unfold CarriesAt
    decide

theorem witness_RxReceiveResult :
    fresh.rx.isnReceived = false ∧
      (busy.rx.isnReceived = true ∧ unwrap 100#32 busy.rx.zero (busy.ibs.pushed + 1) = 0) ∧
      (unwrap 101#32 busy.rx.zero (busy.ibs.pushed + 1) ≠ 0 ∧ InboundOk busy ∧
        busy.ibs.popped + busy.ibs.cap.toNat < 2 ^ 64) ∧
      StreamOk { edge.ibs with pushed := two64 - 2, popped := two64 - 2 } ∧
      unwrap 99#32 100#32 (two64 - 1) = two64 - 1 ∧
      (next? (exec (.raInsert (BitVec.ofNat 64 (two64 - 2)) [0#8, 0#8] false)
        { edge with ibs := { edge.ibs with pushed := two64 - 2, popped := two64 - 2 } })).isNone = true :=
  ⟨rfl, by decide, ⟨by decide, busy_inv.1, by decide⟩, by unfold StreamOk; decide, by decide, by decide⟩

theorem witness_RxDeliversInOrder :
    InboundOk edge ∧ edge.rx.isnReceived = true ∧ edge.ibs.closed = false ∧ edge.ibs.error = false ∧
      edge.ra.store = [] ∧ edge.ra.lastSeen = false ∧
      (List.replicate 8 0#8).length ≤ edge.ibs.cap.toNat - edge.ibs.buffer.length ∧
      edge.ibs.popped + edge.ibs.cap.toNat < 2 ^ 64 :=
  ⟨edge_inv.1, rfl, rfl, rfl, rfl, rfl, by decide, by decide⟩

theorem witness_TxPushRound :
    (effWindow { busy.tx with win := 3#16 } = 0 ∧ busy.tx.cursor < 2 ^ 64) ∧
      { busy.tx with finSent := true }.finSent = true ∧
      seqlen (nextSegment { busy with obs := { busy.obs with buffer := [] } } 7) = 0 ∧
      (effWindow { busy.tx with win := 4#16 } = 1 ∧ busy.tx.finSent = false ∧ 0 < seqlen (nextSegment busy 1)) := by
  decide

theorem witness_TxPushFrame : edge.tx.cursor + 65535 < 2 ^ 64 := by decide

theorem witness_TxPushSendsAllItCan : ∃ t, exec .txPush busy = .next t := next_of_isSome (by decide)

theorem witness_TxFirstPushIsSynAlone :
    fresh.tx.win = 1#16 ∧ fresh.tx.synSent = false ∧ fresh.tx.finSent = false ∧ fresh.tx.cursor = 0 ∧
      fresh.tx.outstanding = [] := by decide

theorem witness_TxMaybeSendResult :
    fresh.tx.ready = [] ∧ busy.tx.ready = dataSegment :: [] ∧ dataSegment.payload.length < 65536 := by decide

theorem witness_TxReceiveResult :
    busy.tx.cursor < unwrap 4#32 busy.tx.isn busy.tx.cursor ∧
      (unwrap 0#32 busy.tx.isn busy.tx.cursor ≤ busy.tx.cursor ∧
        busy.tx.outstanding.dropWhile (covered 0) = busy.tx.outstanding) ∧
      (unwrap 3#32 busy.tx.isn busy.tx.cursor ≤ busy.tx.cursor ∧
        busy.tx.outstanding.dropWhile (covered 3) ≠ busy.tx.outstanding) := by decide

theorem witness_TxAckRetiresCovered :
    SenderOk busy.tx ∧ unwrap 3#32 busy.tx.isn busy.tx.cursor ≤ busy.tx.cursor ∧ busy.tx.outstanding ≠ [] :=
  ⟨busy_senderOk, by decide, by decide⟩

theorem witness_TxTickResult :
    fresh.tx.outstanding = [] ∧ min (busy.tx.t.toNat + 994) (2 ^ 64 - 1) < busy.tx.rtoCur.toNat ∧
      busy.tx.outstanding = { abs := 0, seg := synSegment } :: [{ abs := 1, seg := dataSegment }] ∧
      busy.tx.rtoCur.toNat ≤ min (busy.tx.t.toNat + 995) (2 ^ 64 - 1) ∧ busy.tx.win ≠ 0#16 ∧
      { busy.tx with win := 0#16 }.win = 0#16 := by decide

theorem witness_InFlightIsCursorMinusOldest : SenderOk busy.tx ∧ SenderOk edge.tx := ⟨busy_senderOk, edge_inv.2.1.2.1⟩

theorem witness_OutboundCarriesTheStream :
    OutboundOk busy ∧ SendsStream outStream busy ∧ (∃ t, exec .txPush busy = .next t) ∧
      CarriesAt outStream busy.obs.pushed ([0#8].take (busy.obs.accepts [0#8])) := by
  refine ⟨busy_inv.2.1, ⟨by unfold CarriesAt; decide, rfl, ?_, ?_⟩, next_of_isSome (by decide), by unfold CarriesAt; decide⟩
  · intro e he
    simp only [busy, List.mem_cons, List.not_mem_nil, or_false] at he
    rcases he with rfl | rfl <;> unfold SegmentCarries CarriesAt <;> decide
  · intro g hg
    simp only [busy, List.mem_cons, List.not_mem_nil, or_false] at hg
    subst hg
    refine ⟨1, ?_⟩
    unfold SegmentCarries CarriesAt
    decide

theorem witness_NiSendDgramResult :
    busy.ni[(0#32).toNat]? = some busyIf ∧
      Table.read busyIf.arpCache 0x0A000005 = some { eth := neighbour, age := 100#64 } ∧
      (Table.read busyIf.arpCache 0x0A000006 = none ∧ Table.has busyIf.arpInflight 0x0A000006 = true) ∧
      (Table.read busyIf.arpCache 0x0A000007 = none ∧ Table.has busyIf.arpInflight 0x0A000007 = false) := by decide

/-- A frame to interface 0 with the given ethertype and payload. -/
def frameIn (etype : U16) (payload : List Byte) : Frame :=
  { dst := 0x020000000001#48, src := neighbour, etype := etype, payload := payload }

theorem witness_NiRecvFrameResult :
    parseFrame (List.replicate 13 0#8) = none ∧
      (parseFrame (serializeFrame { frameIn 0x0800#16 [] with dst := 2#48 }) = some { frameIn 0x0800#16 [] with dst := 2#48 } ∧
        (2#48 : EthAddr) ≠ busyIf.eth ∧ (2#48 : EthAddr) ≠ 0xFFFFFFFFFFFF#48) ∧
      parseFrame (serializeFrame (frameIn 0x86DD#16 [])) = some (frameIn 0x86DD#16 []) ∧
      (frameIn 0x86DD#16 []).dst = busyIf.eth ∧
      (parseIpv4 .standard [] = none ∧ parseArp .standard [] = none) ∧
      (parseIpv4 .standard [0x45#8, 0#8, 0#8, 0x16#8, 0#8, 0#8, 0#8, 0#8, 2#8, 0x11#8, 0x9F#8, 0xBE#8, 10#8, 0#8, 0#8, 9#8,
        10#8, 10#8, 5#8, 7#8, 0x68#8, 0x69#8]).map (fun d => (serializeIpv4 .standard d).length) = some 22 ∧
      (parseArp .standard (serializeArp .standard
        { opcode := 1#16, senderEth := neighbour, senderIp := 0x0A000006#32, targetEth := 0#48,
          targetIp := 0x0A000001#32 })).isSome = true := by decide

theorem witness_NiLearnedAddressIsUsed : (0x0A000006 : Nat) ≠ (0x0A000005#32).toNat := by decide

theorem witness_NiTickResult :
    busy.ni[(0#32).toNat]? = some busyIf ∧ NetIfOk busyIf ∧
      Table.read busyIf.arpCache 0x0A000006 = none ∧
      Table.read busyIf.arpCache 0x0A000005 = some { eth := neighbour, age := 100#64 } ∧
      (min (100 + 29900) (2 ^ 64 - 1) ≤ 30000 ∧ 30000 < min (100 + 29901) (2 ^ 64 - 1)) ∧
      Table.read busyIf.arpInflight 0x0A000007 = none ∧ Table.read busyIf.arpInflight 0x0A000006 = some 4999#64 :=
  ⟨rfl, busyIf_ok, by decide, by decide, by decide, by decide, by decide⟩

theorem witness_NiMaybeSendResult :
    (fresh.ni.map (fun n => n.outQueue.length)) = [0, 0] ∧ busy.ni[(0#32).toNat]? = some busyIf ∧
      busyIf.outQueue = { dst := neighbour, src := 0x020000000001#48, etype := 0x0800#16, payload := [0x71#8] } :: [] ∧
      14 + [0x71#8].length < 65536 := by
  decide

theorem witness_FrameRoundTrip :
    (parseFrame (List.replicate 14 0#8)).isSome = true ∧ (List.replicate 13 0#8).length < 14 := by decide

theorem witness_RtAddRouteResult : (1#32).toNat < busy.ni.length := by decide

theorem witness_LongestPrefixChosen :
    RoutesOk busy ∧ lookupRoute busy.rt.routes 0x0B000000#32 = none ∧
      (lookupRoute busy.rt.routes 0x0A0A0507#32).map (fun r => r.ifaceIdx) = some 1 ∧
      (busy.rt.routes.filter (fun r => routeMatches r 0x0A0A0507#32)).length = 2 :=
  ⟨busy_linkOk.2, by decide, by decide, by decide⟩

theorem witness_RtRouteRound :
    (∀ n ∈ fresh.ni, n.rxQueue = []) ∧
      (busy.ni[0]? = some busyIf ∧
        busyIf.rxQueue = { ttl := 2#8, dst := 0x0A0A0507#32, cksum := 0x9FBE#16, rest := List.replicate 13 0#8 } :: []) ∧
      ([] : List RouteInfo).find? (fun r => routeMatches r 0x0A0A0507#32) = none ∧
      (busy.rt.routes.find? (fun r => routeMatches r 0x0A0A0507#32)).map (fun r => r.ifaceIdx) = some 1 ∧
      (1#8 : Byte).toNat ≤ 1 ∧ 2 ≤ (2#8 : Byte).toNat ∧
      (busy.ni.set 0 { busyIf with rxQueue := [] })[1]? = some (NetIf.fresh (0x020000000002#48, 0x0A0A0001#32)) := by decide

theorem witness_RefusalsByName :
    (next? (exec (.niMaybeSend 2#32) busy)).isNone = true ∧
    ((Instr.niTick 2#32 0#64).iface = some 2#32 ∧ busy.ni.length ≤ (2#32).toNat) ∧
      (let u := State.windowStart { busy with ibs := { busy.ibs with pushed := two64 - 1 } }
       let e := State.windowEnd { busy with ibs := { busy.ibs with pushed := two64 - 1 } }
       max (0xFFFFFFFFFFFFFFFF#64).toNat u < min ((0xFFFFFFFFFFFFFFFF#64).toNat + 2) e ∧
        2 ^ 64 < min ((0xFFFFFFFFFFFFFFFF#64).toNat + 2) e) ∧
      (busy.tx.finSent = false ∧ effWindow busy.tx = 7 ∧ unitsDue busy = 1 ∧
        (next? (exec .txPush { busy with tx := { busy.tx with cursor := two64 - 2 } })).isSome = true ∧
        (next? (exec .txPush { busy with tx := { busy.tx with cursor := two64 - 1 } })).isNone = true) := by decide

/-- `edge` with its acceptance window ending at 2^64 exactly, and one byte stored at the last index. -/
def brim : State :=
  { edge with
    ibs := { edge.ibs with pushed := two64 - 8, popped := two64 - 8 }
    ra := { edge.ra with store := [(two64 - 1, 0x7A#8)], pending := 1 } }

/-- The clause on `bytes_pushed`: the seven bytes missing below 2^64 − 1 arrive, and the run would reach 2^64; six do not. -/
theorem witness_RefusalsByName_brim :
    InboundOk brim ∧ brim.ibs.closed = false ∧ brim.ibs.error = false ∧ brim.windowEnd = 2 ^ 64 ∧
      (∀ k, brim.windowStart ≤ k → k < 2 ^ 64 →
        (∃ b, Memory.read brim.ra.store k = some b) ∨
          (BitVec.ofNat 64 (two64 - 8)).toNat ≤ k ∧
            k < (BitVec.ofNat 64 (two64 - 8)).toNat + (List.replicate 7 0#8).length) ∧
      (next? (exec (.raInsert (BitVec.ofNat 64 (two64 - 8)) (List.replicate 6 0#8) false) brim)).isSome = true := by
  have hs : brim.windowStart = 2 ^ 64 - 8 := by decide
  have hf : (BitVec.ofNat 64 (two64 - 8)).toNat = 2 ^ 64 - 8 := by decide
  refine ⟨⟨by unfold StreamOk; decide, rfl, rfl, ?_⟩, rfl, rfl, by decide, ?_, by decide⟩
  · intro c hc
    simp only [brim, List.mem_cons, List.not_mem_nil, or_false] at hc
    subst hc
    decide
  · intro k h1 h2
    rw [hs] at h1
    rw [hf, List.length_replicate]
    by_cases hk : k = 2 ^ 64 - 1
    · subst hk
      exact .inl ⟨0x7A#8, by decide⟩
    · right
      omega

theorem witness_FieldsWrittenOnlyAsListed :
    Instr.txPush ≠ .sysReset ∧ (∃ t, exec .txPush busy = .next t) ∧ Op.txPush ∉ [Op.raInsert, .rxReceive] ∧
      busy.rx.isnReceived = true ∧
      (∃ t, exec (.niSendDgram 0#32 0x0A000006#32 [0#8]) busy = .next t) ∧
      Op.niSendDgram ∉ [Op.niRecvFrame, .niTick] ∧ Op.niSendDgram ∉ [Op.niRecvFrame, .rtRoute] ∧
      (∃ t, exec (.niMaybeSend 0#32) busy = .next t) ∧ Op.niMaybeSend ∉ [Op.niSendDgram, .niTick, .rtRoute] ∧
      Op.niMaybeSend ∉ [Op.niSendDgram, .niRecvFrame, .niTick, .rtRoute] ∧
      (∃ t, exec (.niTick 0#32 1#64) busy = .next t) ∧ Op.niTick ∉ [Op.niSendDgram, .niRecvFrame, .niMaybeSend, .rtRoute] :=
  ⟨by decide, next_of_isSome (by decide), by decide, rfl, next_of_isSome (by decide), by decide, by decide,
    next_of_isSome (by decide), by decide, by decide, next_of_isSome (by decide), by decide⟩

theorem witness_ObserversChangeNothing :
    Instr.bsPeek.op ∈ [Op.bsPeek, .bsAvail, .bsPushed, .bsPopped, .bsBuffered, .bsIsClosed, .bsIsFinished, .bsHasError,
      .raPending, .rxSend, .txSendEmpty, .txInFlight, .txRetx, .w32Add, .w32Wrap, .w32Unwrap] := by decide

end Sys2Proof.Tests
end

section
/-! SUPPORT. The scope family (spec/00_scope.md): what a step runs, and that every command completes and keeps the invariants.
One inversion lemma for each side of the block (`effect_inbound`, `effect_outbound`, `effect_link`) says everything a command
can do there; each invariant is then a case analysis over it. -/

namespace Sys2Proof.Proofs

open Sys2Proof.Machine Sys2Proof.Safety Sys2Proof.Laws

/-! What a step runs -/

theorem step_of_idle {s : State} (h : s.cmds = []) : step s = .next s := by
  simp [step, fetch, h]

theorem step_of_decoded {s : State} {d : List Byte} {rest : List (List Byte)} {i : Instr} (h : s.cmds = d :: rest)
    (hd : decode s.params.nIf d = .ok i) : step s = exec i { s with cmds := rest } := by
  simp [step, fetch, h, hd]

theorem step_of_illFormed {s : State} {d : List Byte} {rest : List (List Byte)} {why : IllFormed}
    (h : s.cmds = d :: rest) (hd : decode s.params.nIf d = .error why) : step s = .refused (.badDescriptor why) := by
  simp [step, fetch, h, hd]

/-- Settles O9: a step runs the command its descriptor decodes to, refuses one that decodes to none, and is idle with nothing
presented. -/
theorem stepRunsDecoded : Obligations.StepRunsDecoded :=
  ⟨fun _ _ _ _ h hd => step_of_decoded h hd, fun _ _ _ _ h hd => step_of_illFormed h hd, fun _ h => step_of_idle h⟩

/-! What one command can do to one interface -/

/-- The four ways in which a command addressed to an interface can leave it (R271 to R274). -/
inductive IfaceStep (n : NetIf) : NetIf → Prop
  | sent (c : Config.Codec) (d : List Byte) (ip : U32) : IfaceStep n (n.send c d ip)
  | received (c : Config.Codec) (f : List Byte) (q : Bool) : IfaceStep n (n.receive c f q).1
  | ticked (delta : U64) : IfaceStep n (n.tick delta)
  | dequeued : IfaceStep n { n with outQueue := n.outQueue.tail }

theorem IfaceStep.netIfOk {n n' : NetIf} (h : IfaceStep n n') (hn : NetIfOk n) : NetIfOk n' := by
  cases h with
  | sent c d ip => exact netIfOk_send hn c d ip
  | received c f q => exact netIfOk_receive hn c f q
  | ticked delta => exact netIfOk_tick hn delta
  | dequeued => exact hn

theorem IfaceStep.addresses {n n' : NetIf} (h : IfaceStep n n') : (n'.eth, n'.ip) = (n.eth, n.ip) := by
  cases h with
  | sent c d ip => rw [send_eth, send_ip]
  | received c f q =>
    obtain ⟨heth, hip⟩ := receive_addresses c n f q
    rw [heth, hip]
  | ticked delta => rfl
  | dequeued => rfl

/-- A command addressed to an interface writes that interface only. -/
theorem effect_iface {i : Instr} {s : State}
    (hi : i.op ∈ [Op.niSendDgram, .niRecvFrame, .niTick, .niMaybeSend]) (h : stops i s = none) :
    ∃ k n n', s.ni[k]? = some n ∧ IfaceStep n n' ∧ effect i s = s.setIf k n' := by
  have hiface : ∀ k : U32, (if k.toNat < s.ni.length then none else some Refusal.noSuchInterface) = none →
      ∃ n, s.ni[k.toNat]? = some n := by
    intro k hk
    by_cases hlt : k.toNat < s.ni.length
    · exact ⟨_, List.getElem?_eq_getElem hlt⟩
    · simp [hlt] at hk
  cases i
  case niSendDgram k nextHop d =>
    obtain ⟨n, hn⟩ := hiface k h
    exact ⟨k.toNat, n, _, hn, .sent s.params.codec d nextHop, by simp only [effect, hn]⟩
  case niRecvFrame k f q =>
    obtain ⟨n, hn⟩ := hiface k h
    exact ⟨k.toNat, n, _, hn, .received s.params.codec f q, by simp only [effect, hn]⟩
  case niTick k delta =>
    obtain ⟨n, hn⟩ := hiface k h
    exact ⟨k.toNat, n, _, hn, .ticked delta, by simp only [effect, hn]⟩
  case niMaybeSend k =>
    obtain ⟨n, hn⟩ := hiface k h
    exact ⟨k.toNat, n, _, hn, .dequeued, by simp only [effect, hn]⟩
  all_goals simp [Instr.op] at hi

/-! Which units a command leaves alone -/

theorem effect_iface_frame {i : Instr} {s : State}
    (hi : i.op ∈ [Op.niSendDgram, .niRecvFrame, .niTick, .niMaybeSend]) (h : stops i s = none) :
    effect i s = s.setNi (effect i s).ni := by
  obtain ⟨k, n, n', -, -, he⟩ := effect_iface hi h
  rw [he]
  rfl

theorem rxMark_eq_set (s : State) (q : U32) (syn : Bool) : rxMark s q syn = s.setRx (rxMark s q syn).rx := by
  unfold rxMark
  split <;> rfl

@[simp] theorem rxMark_ibs (s : State) (q : U32) (syn : Bool) : (rxMark s q syn).ibs = s.ibs := by
  rw [rxMark_eq_set, setRx_ibs]

@[simp] theorem rxMark_ra (s : State) (q : U32) (syn : Bool) : (rxMark s q syn).ra = s.ra := by
  rw [rxMark_eq_set, setRx_ra]

theorem effect_raInsert_frame (s : State) (f : U64) (d : List Byte) (l : Bool) :
    effect (.raInsert f d l) s =
      (s.setIbs (effect (.raInsert f d l) s).ibs).setRa (effect (.raInsert f d l) s).ra :=
  raInsert_eq_set s f.toNat d l

theorem effect_txPush_frame (s : State) :
    effect .txPush s = (s.setObs (effect .txPush s).obs).setTx (effect .txPush s).tx :=
  txPushState_eq_set s

theorem effect_rxReceive_frame (s : State) (q : U32) (d : List Byte) (syn fin : Bool) :
    effect (.rxReceive q d syn fin) s =
      ((s.setRx (effect (.rxReceive q d syn fin) s).rx).setIbs (effect (.rxReceive q d syn fin) s).ibs).setRa
        (effect (.rxReceive q d syn fin) s).ra := by
  cases hx : rxIndex (rxMark s q syn) q syn with
  | none =>
    simp only [effect, hx]
    rw [rxMark_eq_set]
    rfl
  | some idx =>
    simp only [effect, hx]
    rw [raInsert_eq_set, rxMark_eq_set]
    rfl

/-! The inbound side -/

/-- What one command can do to IBS and the Reassembler. -/
inductive InboundStep (s t : State) : Prop
  | reset (hibs : t.ibs = ByteStream.fresh s.params.cIn) (hra : t.ra = Reassembler.fresh)
  | kept (hibs : t.ibs = s.ibs) (hra : t.ra = s.ra)
  | popped (n : Nat) (hibs : t.ibs = s.ibs.pop n) (hra : t.ra = s.ra)
  | errored (hibs : t.ibs = s.ibs.setError) (hra : t.ra = s.ra)
  | inserted (u : State) (f : Nat) (d : List Byte) (l : Bool) (hibs : u.ibs = s.ibs) (hra : u.ra = s.ra)
      (hfits : raOverflows u f d l = false) (ht : t = raInsert u f d l)

theorem effect_inbound {i : Instr} {s : State} (h : stops i s = none) : InboundStep s (effect i s) := by
  cases i
  case sysReset => exact .reset rfl rfl
  case bsSetError sel =>
    cases sel with
    | ibs => exact .errored rfl rfl
    | obs => exact .kept rfl rfl
  case bsPop n => exact .popped n.toNat rfl rfl
  case raInsert f d l => exact .inserted s f.toNat d l rfl rfl (by simpa [stops] using h) rfl
  case rxReceive q d syn fin =>
    cases hx : rxIndex (rxMark s q syn) q syn with
    | none => exact .kept (by simp [effect, hx]) (by simp [effect, hx])
    | some idx =>
      exact .inserted (rxMark s q syn) idx d fin (rxMark_ibs _ _ _) (rxMark_ra _ _ _) (by simpa [stops, hx] using h)
        (by simp only [effect, hx])
  case txPush => exact .kept (by rw [effect_txPush_frame]; rfl) (by rw [effect_txPush_frame]; rfl)
  case niSendDgram | niRecvFrame | niTick | niMaybeSend =>
    have hframe := effect_iface_frame (by simp [Instr.op]) h
    exact .kept (by rw [hframe, setNi_ibs]) (by rw [hframe, setNi_ra])
  all_goals exact .kept rfl rfl

theorem inboundOk_congr {s t : State} (hibs : t.ibs = s.ibs) (hra : t.ra = s.ra) (h : InboundOk s) : InboundOk t := by
  simpa only [InboundOk, StoreOk, State.windowStart, State.windowEnd, hibs, hra] using h

theorem inboundOk_fresh {s : State} {cap : U64} (hibs : s.ibs = ByteStream.fresh cap) (hra : s.ra = Reassembler.fresh) :
    InboundOk s := by
  refine ⟨hibs ▸ streamOk_fresh cap, ?_⟩
  simp [StoreOk, hra, Reassembler.fresh, Memory.wf]

/-- Popping moves neither edge of the window inwards: `U` stays and `E` rises with `popped` (R93). -/
theorem inboundOk_pop {s t : State} {n : Nat} (hibs : t.ibs = s.ibs.pop n) (hra : t.ra = s.ra) (h : InboundOk s) :
    InboundOk t := by
  obtain ⟨hstream, hwf, hpending, hin⟩ := h
  have ht : StreamOk t.ibs := hibs ▸ streamOk_pop hstream n
  refine ⟨ht, hra ▸ hwf, hra ▸ hpending, ?_⟩
  rw [hra]
  intro c hc
  obtain ⟨hlow, hhigh, hbelow⟩ := hin c hc
  rw [windowEnd_eq hstream] at hhigh
  rw [windowEnd_eq ht, State.windowStart, hibs, pop_pushed, pop_popped, pop_cap]
  exact ⟨hlow, by omega, hbelow⟩

theorem InboundStep.inboundOk {s t : State} (hst : InboundStep s t) (h : InboundOk s) : InboundOk t := by
  cases hst with
  | reset hibs hra => exact inboundOk_fresh hibs hra
  | kept hibs hra => exact inboundOk_congr hibs hra h
  | popped n hibs hra => exact inboundOk_pop hibs hra h
  | errored hibs hra => exact inboundOk_congr (s := s.setIbs s.ibs.setError) hibs hra h
  | inserted u f d l hibs hra hfits ht =>
    rw [ht]
    exact inboundOk_raInsert (inboundOk_congr hibs hra h) f d l hfits

theorem inboundOk_effect {i : Instr} {s : State} (h : InboundOk s) (hi : stops i s = none) : InboundOk (effect i s) :=
  (effect_inbound hi).inboundOk h

@[simp] theorem raInsert_cap (s : State) (f : Nat) (d : List Byte) (l : Bool) :
    (raInsert s f d l).ibs.cap = s.ibs.cap := by
  unfold raInsert
  simp only [drop_eq, raCloseCheck_eq]
  split
  · simp
  · split
    · simp
    · simp [raFlush_ibs]

theorem InboundStep.cap {s t : State} (hst : InboundStep s t) (h : s.ibs.cap = s.params.cIn) :
    t.ibs.cap = s.params.cIn := by
  cases hst with
  | reset hibs _ => rw [hibs]; rfl
  | kept hibs _ => rw [hibs, h]
  | popped n hibs _ => rw [hibs, pop_cap, h]
  | errored hibs _ => rw [hibs, setError_cap, h]
  | inserted u f d l hibs _ _ ht => rw [ht, raInsert_cap, hibs, h]

/-! The outbound side -/

theorem lt_of_not_overflow {n : Nat} (h : (if n < two64 then none else some Refusal.counterOverflow) = none) :
    n < two64 := by
  by_contra hge
  simp [hge] at h

/-- What one command can do to OBS and the TCPSender. -/
inductive OutboundStep (s t : State) : Prop
  | reset (hobs : t.obs = ByteStream.fresh s.params.cOut)
      (htx : t.tx = Sender.fresh (State.isnAtReset s.params s.draws) s.params.rto0)
  | kept (hobs : t.obs = s.obs) (htx : t.tx = s.tx)
  | pushed (d : List Byte) (hfits : (s.obs.push d).pushed < two64) (hobs : t.obs = s.obs.push d) (htx : t.tx = s.tx)
  | closed (hobs : t.obs = s.obs.close) (htx : t.tx = s.tx)
  | errored (hobs : t.obs = s.obs.setError) (htx : t.tx = s.tx)
  | sent (hfits : (txPushState s).tx.cursor < two64) (ht : t = txPushState s)
  | dequeued (hobs : t.obs = s.obs) (htx : t.tx = { s.tx with ready := s.tx.ready.tail })
  | acked (m : AckMsg) (hobs : t.obs = s.obs) (htx : t.tx = ackSender s.tx m)
  | ticked (delta : U64) (hobs : t.obs = s.obs) (htx : t.tx = tickSender s.tx delta)

theorem effect_outbound {i : Instr} {s : State} (h : stops i s = none) : OutboundStep s (effect i s) := by
  cases i
  case sysReset => exact .reset rfl rfl
  case bsPush d => exact .pushed d (lt_of_not_overflow h) rfl rfl
  case bsClose => exact .closed rfl rfl
  case bsSetError sel =>
    cases sel with
    | ibs => exact .kept rfl rfl
    | obs => exact .errored rfl rfl
  case raInsert f d l => exact .kept (by rw [effect_raInsert_frame]; rfl) (by rw [effect_raInsert_frame]; rfl)
  case rxReceive q d syn fin => exact .kept (by rw [effect_rxReceive_frame]; rfl) (by rw [effect_rxReceive_frame]; rfl)
  case txPush => exact .sent (lt_of_not_overflow h) rfl
  case txMaybeSend => exact .dequeued rfl rfl
  case txReceive ackno window => exact .acked ⟨ackno, window⟩ rfl rfl
  case txTick delta => exact .ticked delta rfl rfl
  case niSendDgram | niRecvFrame | niTick | niMaybeSend =>
    have hframe := effect_iface_frame (by simp [Instr.op]) h
    exact .kept (by rw [hframe, setNi_obs]) (by rw [hframe, setNi_tx])
  all_goals exact .kept rfl rfl

/-- `SenderOk` but for the bound on the cursor, which TX.PUSH checks only once its loop is done. -/
def SenderShape (t : Sender) : Prop :=
  Tiles t.outstanding t.cursor ∧ (∀ e ∈ t.outstanding, InFlightOk t e) ∧ (t.synSent = true ↔ 0 < t.cursor) ∧
    (t.finSent = true → t.synSent = true)

theorem senderOk_iff (t : Sender) : SenderOk t ↔ SenderShape t ∧ t.cursor < two64 := by
  unfold SenderOk SenderShape
  tauto

/-- The entry a round of TX.PUSH adds to `outstanding` (R46, R231). -/
theorem inFlightOk_nextSegment {s : State} {eff : Nat} (hsyn : s.tx.synSent = true ↔ 0 < s.tx.cursor)
    (hpos : 0 < seqlen (nextSegment s eff)) :
    InFlightOk (commitSegment s (nextSegment s eff)).tx { abs := s.tx.cursor, seg := nextSegment s eff } := by
  refine ⟨hpos, ?_, rfl, ?_, ?_⟩
  · rw [nextSegment_payload_length]
    exact pullCount_le_payload s eff
  · have hflag : (nextSegment s eff).syn = !s.tx.synSent := rfl
    rw [hflag, Bool.not_eq_true', ← Bool.not_eq_true, hsyn, Nat.pos_iff_ne_zero, not_not]
  · intro hfin
    have hfin : (nextSegment s eff).fin = true := hfin
    exact ⟨by rw [commitSegment_tx, hfin, Bool.or_true], rfl⟩

/-- One round keeps the sender's shape. No entry carries a FIN yet, so none loses its place at the end. -/
theorem senderShape_commit {s : State} {eff : Nat} (h : SenderShape s.tx) (hfin : s.tx.finSent = false)
    (hpos : 0 < seqlen (nextSegment s eff)) : SenderShape (commitSegment s (nextSegment s eff)).tx := by
  obtain ⟨htiles, hentries, hsyn, -⟩ := h
  have hsent : (commitSegment s (nextSegment s eff)).tx.synSent = true := by simp [nextSegment]
  refine ⟨tiles_append htiles _ rfl _ rfl, ?_, ?_, fun _ => hsent⟩
  · intro e he
    rcases List.mem_append.1 he with he | he
    · obtain ⟨hlen, hpay, hseq, habs, hend⟩ := hentries e he
      exact ⟨hlen, hpay, hseq, habs, fun hf => absurd (hend hf).1 (by simp [hfin])⟩
    · rw [List.mem_singleton.1 he]
      exact inFlightOk_nextSegment hsyn hpos
  · rw [hsent, commitSegment_tx]
    simp only [true_iff]
    omega

theorem sat64_twice (x : Nat) : sat64 (2 * (sat64 x).toNat) = sat64 (2 * x) := by
  apply BitVec.eq_of_toNat_eq
  simp only [sat64_toNat]
  omega

/-- Doubling a saturated `a · 2^n` and counting one more, saturated too, is one more doubling (R157, R238): where the count
saturates, the product is 0 or saturated already. -/
theorem sat64_backoff (a : Nat) (r : U64) :
    sat64 (2 * (sat64 (a * 2 ^ r.toNat)).toNat) = sat64 (a * 2 ^ (sat64 (r.toNat + 1)).toNat) := by
  rw [sat64_twice, sat64_toNat, mul_left_comm, ← pow_succ']
  by_cases hr : r.toNat + 1 ≤ two64 - 1
  · rw [Nat.min_eq_left hr]
  · rw [Nat.min_eq_right (by omega)]
    rcases Nat.eq_zero_or_pos a with rfl | ha
    · simp only [Nat.zero_mul]
    · have hbig : ∀ n, two64 - 1 ≤ n → sat64 (a * 2 ^ n) = sat64 (two64 - 1) := by
        intro n hn
        have hle : two64 - 1 ≤ a * 2 ^ n := hn.trans (Nat.lt_two_pow_self.le.trans (Nat.le_mul_of_pos_left _ ha))
        rw [sat64, sat64, Nat.min_eq_right hle, Nat.min_self]
      rw [hbig _ (by omega), hbig _ le_rfl]

theorem rtoLaw_restarted {t : Sender} (hcur : t.rtoCur = t.rto0) (hretx : t.retx = 0#64) : RtoLaw t := by
  have hlt := t.rto0.isLt
  rw [RtoLaw, hcur, hretx]
  apply BitVec.eq_of_toNat_eq
  simp only [sat64_toNat, BitVec.toNat_ofNat, two64, Nat.zero_mod, pow_zero, mul_one]
  omega

/-- What TX.TICK does to the sender: the timer moves and the oldest segment may be queued again; with that the sender may back
off (R234). -/
theorem tickSender_cases (t : Sender) (delta : U64) :
    ∃ (ready : List Segment) (v : U64),
      tickSender t delta = { t with ready := ready, t := v } ∨
        tickSender t delta =
          { t with
            ready := ready
            t := v
            retx := sat64 (t.retx.toNat + 1)
            rtoCur := sat64 (2 * t.rtoCur.toNat) } := by
  unfold tickSender alarm
  simp only
  cases t.outstanding with
  | nil => exact ⟨_, _, .inl rfl⟩
  | cons oldest rest =>
    simp only
    split
    · split
      · exact ⟨_, _, .inl rfl⟩
      · exact ⟨_, _, .inr rfl⟩
    · exact ⟨_, _, .inl rfl⟩

/-- The sender's part of the outbound invariant. -/
def SenderLaw (t : Sender) : Prop := SenderOk t ∧ RtoLaw t

theorem senderLaw_fresh (isn : U32) (rto0 : U64) : SenderLaw (Sender.fresh isn rto0) :=
  ⟨by simp [SenderOk, Sender.fresh, Tiles, two64], rtoLaw_restarted rfl rfl⟩

theorem senderLaw_retire {t : Sender} (h : SenderLaw t) (a : Nat) : SenderLaw (retire t a) := by
  rcases retire_cases t a with ⟨he, -⟩ | ⟨he, -⟩
  · rw [he]
    exact h
  · obtain ⟨⟨htiles, hentries, hrest⟩, -⟩ := h
    rw [he]
    refine ⟨⟨tiles_dropWhile htiles _, fun e hmem => ?_, hrest⟩, rtoLaw_restarted rfl rfl⟩
    exact hentries e ((List.dropWhile_suffix _).subset hmem)

theorem senderLaw_ack {t : Sender} (h : SenderLaw t) (m : AckMsg) : SenderLaw (ackSender t m) := by
  rcases ackSender_cases t m with he | ⟨a, he⟩
  · rw [he]
    exact h
  · rw [he]
    exact senderLaw_retire (t := { t with win := m.windowSize }) h a

theorem senderLaw_tick {t : Sender} (h : SenderLaw t) (delta : U64) : SenderLaw (tickSender t delta) := by
  obtain ⟨hok, hlaw⟩ := h
  obtain ⟨ready, v, he | he⟩ := tickSender_cases t delta
  · rw [he]
    exact ⟨hok, hlaw⟩
  · rw [he]
    refine ⟨hok, ?_⟩
    rw [RtoLaw] at hlaw ⊢
    simp only
    rw [hlaw, sat64_backoff]

/-- TX.PUSH keeps the outbound invariants when its cursor stays below 2^64. -/
theorem outboundOk_txPush {s : State} (h : OutboundOk s) (hfits : (txPushState s).tx.cursor < two64) :
    OutboundOk (txPushState s) := by
  obtain ⟨hstream, hsender, hlaw⟩ := h
  have hloop : StreamOk (txPushState s).obs ∧ SenderShape (txPushState s).tx ∧ RtoLaw (txPushState s).tx :=
    txPushState_keeps (P := fun u => StreamOk u.obs ∧ SenderShape u.tx ∧ RtoLaw u.tx)
      (fun _ _ ⟨hb, ht, hr⟩ _ hfin hpos => ⟨streamOk_pop hb _, senderShape_commit ht hfin hpos, hr⟩)
      ⟨hstream, ((senderOk_iff _).1 hsender).1, hlaw⟩
  obtain ⟨hb, ht, hr⟩ := hloop
  exact ⟨hb, (senderOk_iff _).2 ⟨ht, hfits⟩, hr⟩

theorem outboundOk_iff (s : State) : OutboundOk s ↔ StreamOk s.obs ∧ SenderLaw s.tx := Iff.rfl

theorem OutboundStep.outboundOk {s t : State} (hst : OutboundStep s t) (h : OutboundOk s) : OutboundOk t := by
  obtain ⟨hb, ht⟩ := (outboundOk_iff s).1 h
  rw [outboundOk_iff]
  cases hst with
  | reset hobs htx => exact ⟨hobs ▸ streamOk_fresh _, htx ▸ senderLaw_fresh _ _⟩
  | kept hobs htx => exact ⟨hobs ▸ hb, htx ▸ ht⟩
  | pushed d hfits hobs htx => exact ⟨hobs ▸ streamOk_push hb d hfits, htx ▸ ht⟩
  | closed hobs htx => exact ⟨hobs ▸ streamOk_close hb, htx ▸ ht⟩
  | errored hobs htx => exact ⟨hobs ▸ streamOk_setError hb, htx ▸ ht⟩
  | sent hfits he => exact he ▸ outboundOk_txPush h hfits
  | dequeued hobs htx => exact ⟨hobs ▸ hb, htx ▸ ht⟩
  | acked m hobs htx => exact ⟨hobs ▸ hb, htx ▸ senderLaw_ack ht m⟩
  | ticked delta hobs htx => exact ⟨hobs ▸ hb, htx ▸ senderLaw_tick ht delta⟩

theorem outboundOk_effect {i : Instr} {s : State} (h : OutboundOk s) (hi : stops i s = none) :
    OutboundOk (effect i s) :=
  (effect_outbound hi).outboundOk h

/-! The constants of the sender and of OBS -/

theorem retire_isn_rto0 (t : Sender) (a : Nat) : (retire t a).isn = t.isn ∧ (retire t a).rto0 = t.rto0 := by
  rcases retire_cases t a with ⟨he, -⟩ | ⟨he, -⟩ <;> rw [he] <;> exact ⟨rfl, rfl⟩

theorem ackSender_isn_rto0 (t : Sender) (m : AckMsg) :
    (ackSender t m).isn = t.isn ∧ (ackSender t m).rto0 = t.rto0 := by
  rcases ackSender_cases t m with he | ⟨a, he⟩ <;> rw [he]
  · exact ⟨rfl, rfl⟩
  · exact retire_isn_rto0 _ a

theorem tickSender_isn_rto0 (t : Sender) (delta : U64) :
    (tickSender t delta).isn = t.isn ∧ (tickSender t delta).rto0 = t.rto0 := by
  obtain ⟨ready, v, he | he⟩ := tickSender_cases t delta <;> rw [he] <;> exact ⟨rfl, rfl⟩

/-- What a run fixes of OBS and the sender, for parameters `p` (R23, R40). -/
def OutboundConstants (p : Config.Params) (b : ByteStream) (t : Sender) : Prop :=
  b.cap = p.cOut ∧ t.rto0 = p.rto0 ∧ ∀ v, p.isnFixed = some v → t.isn = v

theorem outboundConstants_congr {p : Config.Params} {b b' : ByteStream} {t t' : Sender} (h : OutboundConstants p b t)
    (hcap : b'.cap = b.cap) (ht : t'.isn = t.isn ∧ t'.rto0 = t.rto0) : OutboundConstants p b' t' := by
  unfold OutboundConstants
  rw [hcap, ht.1, ht.2]
  exact h

theorem outboundConstants_fresh (p : Config.Params) (draws : Nat) :
    OutboundConstants p (ByteStream.fresh p.cOut) (Sender.fresh (State.isnAtReset p draws) p.rto0) :=
  ⟨rfl, rfl, fun v hv => by simp [Sender.fresh, State.isnAtReset, hv]⟩

theorem OutboundStep.constants {s t : State} (hst : OutboundStep s t) (h : OutboundConstants s.params s.obs s.tx) :
    OutboundConstants s.params t.obs t.tx := by
  cases hst with
  | reset hobs htx =>
    rw [hobs, htx]
    exact outboundConstants_fresh _ _
  | kept hobs htx | pushed _ _ hobs htx | closed hobs htx | errored hobs htx | dequeued hobs htx =>
    rw [hobs, htx]
    exact h
  | sent _ ht =>
    rw [ht]
    exact txPushState_keeps (P := fun u => OutboundConstants s.params u.obs u.tx) (fun _ _ hu _ _ _ => hu) h
  | acked m hobs htx =>
    rw [hobs, htx]
    exact outboundConstants_congr h rfl (ackSender_isn_rto0 _ _)
  | ticked delta hobs htx =>
    rw [hobs, htx]
    exact outboundConstants_congr h rfl (tickSender_isn_rto0 _ _)

/-! The link side -/

/-- What one command can do to the interfaces and the route list. -/
inductive LinkStep (s t : State) : Prop
  | reset (hni : t.ni = s.params.ifaces.map NetIf.fresh) (hrt : t.rt = { routes := [] })
  | kept (hni : t.ni = s.ni) (hrt : t.rt = s.rt)
  | iface (k : Nat) (n n' : NetIf) (hk : s.ni[k]? = some n) (hn : IfaceStep n n') (hni : t.ni = s.ni.set k n')
      (hrt : t.rt = s.rt)
  | routeAdded (r : RouteInfo) (hr : r.ifaceIdx < s.ni.length) (hni : t.ni = s.ni)
      (hrt : t.rt = { routes := insertRoute r s.rt.routes })
  | routed (c : Config.Codec) (hni : t.ni = drainAll c s.rt.routes s.ni) (hrt : t.rt = s.rt)

theorem effect_link {i : Instr} {s : State} (h : stops i s = none) : LinkStep s (effect i s) := by
  cases i
  case sysReset => exact .reset rfl rfl
  case bsSetError sel => exact .kept (setStream_ni _ _ _) (setStream_rt _ _ _)
  case raInsert f d l => exact .kept (by rw [effect_raInsert_frame]; rfl) (by rw [effect_raInsert_frame]; rfl)
  case rxReceive q d syn fin => exact .kept (by rw [effect_rxReceive_frame]; rfl) (by rw [effect_rxReceive_frame]; rfl)
  case txPush => exact .kept (by rw [effect_txPush_frame]; rfl) (by rw [effect_txPush_frame]; rfl)
  case niSendDgram | niRecvFrame | niTick | niMaybeSend =>
    obtain ⟨k, n, n', hk, hn, he⟩ := effect_iface (by simp [Instr.op]) h
    exact .iface k n n' hk hn (by rw [he, setIf_ni]) (by rw [he, setIf_rt])
  case rtAddRoute pfx len nextHop k =>
    exact .routeAdded ⟨pfx, len, nextHop, k.toNat⟩ (by simpa [stops] using h) rfl rfl
  case rtRoute => exact .routed s.params.codec rfl rfl
  all_goals exact .kept rfl rfl

/-- RT.ROUTE keeps the number of interfaces (R312). -/
theorem drainAll_length (c : Config.Codec) (routes : List RouteInfo) (ni : List NetIf) :
    (drainAll c routes ni).length = ni.length := by
  simpa using congrArg List.length (drainAll_map (fun _ => ()) (fun _ _ _ _ => rfl) (fun _ => rfl) c routes ni)

theorem netIfOk_fresh (a : EthAddr × U32) : NetIfOk (NetIf.fresh a) := by
  simp [NetIfOk, NetIf.fresh]

/-- `RoutesOk` looks at the route list and the number of interfaces only. -/
theorem routesOk_congr {s t : State} (h : RoutesOk s) (hrt : t.rt = s.rt) (hlen : t.ni.length = s.ni.length) :
    RoutesOk t := by
  simpa only [RoutesOk, hrt, hlen] using h

theorem routesOk_insert {s t : State} {r : RouteInfo} (h : RoutesOk s) (hr : r.ifaceIdx < s.ni.length)
    (hni : t.ni = s.ni) (hrt : t.rt = { routes := insertRoute r s.rt.routes }) : RoutesOk t := by
  obtain ⟨hsorted, hidx⟩ := h
  rw [RoutesOk, hni, hrt]
  refine ⟨insertRoute_sorted r hsorted, fun x hx => ?_⟩
  rcases (insertRoute_mem r x _).1 hx with rfl | hx
  · exact hr
  · exact hidx x hx

theorem LinkStep.linkOk {s t : State} (hst : LinkStep s t) (h : LinkOk s) : LinkOk t := by
  obtain ⟨hifs, hroutes⟩ := h
  cases hst with
  | reset hni hrt =>
    refine ⟨?_, by simp [RoutesOk, hrt]⟩
    rw [hni]
    intro n hn
    obtain ⟨a, -, rfl⟩ := List.mem_map.1 hn
    exact netIfOk_fresh a
  | kept hni hrt => exact ⟨hni ▸ hifs, routesOk_congr hroutes hrt (by rw [hni])⟩
  | iface k n n' hk hn hni hrt =>
    refine ⟨?_, routesOk_congr hroutes hrt (by rw [hni, List.length_set])⟩
    rw [hni]
    intro m hm
    rcases List.mem_or_eq_of_mem_set hm with hm | rfl
    · exact hifs m hm
    · exact hn.netIfOk (hifs n (List.mem_of_getElem? hk))
  | routeAdded r hr hni hrt => exact ⟨hni ▸ hifs, routesOk_insert hroutes hr hni hrt⟩
  | routed c hni hrt =>
    refine ⟨?_, routesOk_congr hroutes hrt (by rw [hni, drainAll_length])⟩
    rw [hni]
    exact drainAll_forall (P := NetIfOk) (fun n c d ip hn => netIfOk_send hn c d ip) (fun _ hn => hn) c s.rt.routes hifs

theorem linkOk_effect {i : Instr} {s : State} (h : LinkOk s) (hi : stops i s = none) : LinkOk (effect i s) :=
  (effect_link hi).linkOk h

theorem LinkStep.addresses {s t : State} (hst : LinkStep s t)
    (h : s.ni.map (fun n => (n.eth, n.ip)) = s.params.ifaces) : t.ni.map (fun n => (n.eth, n.ip)) = s.params.ifaces := by
  cases hst with
  | reset hni _ => simp [hni, NetIf.fresh, Function.comp_def]
  | kept hni _ | routeAdded _ _ hni _ => rw [hni, h]
  | iface k n n' hk hn hni _ => rw [hni, map_set_of_eq _ hk n' hn.addresses, h]
  | routed c hni _ =>
    rw [hni, drainAll_map _ (fun n c d ip => (IfaceStep.sent c d ip).addresses) (fun _ => rfl), h]

/-! The constants of a run -/

theorem effect_params {i : Instr} {s : State} (h : stops i s = none) : (effect i s).params = s.params := by
  cases i
  case bsSetError sel => exact setStream_params _ _ _
  case raInsert f d l =>
    rw [effect_raInsert_frame]
    rfl
  case rxReceive q d syn fin =>
    rw [effect_rxReceive_frame]
    rfl
  case txPush =>
    rw [effect_txPush_frame]
    rfl
  case niSendDgram | niRecvFrame | niTick | niMaybeSend =>
    rw [effect_iface_frame (by simp [Instr.op]) h, setNi_params]
  all_goals rfl

theorem constantsOk_effect {i : Instr} {s : State} (h : ConstantsOk s) (hi : stops i s = none) :
    ConstantsOk (effect i s) := by
  obtain ⟨hibs, hobs, hrto, hisn, hni⟩ := h
  obtain ⟨hobs', hrto', hisn'⟩ := (effect_outbound hi).constants ⟨hobs, hrto, hisn⟩
  rw [ConstantsOk, effect_params hi]
  exact ⟨(effect_inbound hi).cap hibs, hobs', hrto', hisn', (effect_link hi).addresses hni⟩

/-- Settles O7: no command's effect moves a constant or the parameters, and the ports hold none. -/
theorem stepKeepsConstants : Obligations.StepKeepsConstants := by
  intro s t hs h
  exact step_keeps (P := fun u => ConstantsOk u ∧ u.params = s.params) (fun _ _ _ _ hu => hu)
    (fun i u ⟨hc, hp⟩ hi => ⟨constantsOk_effect hc hi, (effect_params hi).trans hp⟩) ⟨hs, rfl⟩ h

/-! Every command completes -/

theorem inv_effect {i : Instr} {s : State} (h : Inv s) (hi : stops i s = none) : Inv (effect i s) := by
  obtain ⟨hin, hout, hlink, hconst⟩ := h
  exact ⟨inboundOk_effect hin hi, outboundOk_effect hout hi, linkOk_effect hlink hi, constantsOk_effect hconst hi⟩

/-- The response and the draw counter enter no invariant. -/
theorem inv_respond {s : State} (h : Inv s) (r : Response) : Inv (s.respond r) := h

/-- What R114 leaves to check of an `Instr`. -/
theorem wellFormed_iff (nIf : Nat) (i : Instr) :
    i.wellFormed nIf = true ↔ i.payload.length < 65536 ∧ ∀ k, i.iface = some k → k.toNat < nIf := by
  unfold Instr.wellFormed Instr.illFormed
  by_cases hlen : i.payload.length < 65536
  · rw [if_neg (by omega)]
    cases i.iface with
    | none => simp [hlen]
    | some k => by_cases hk : k.toNat < nIf <;> simp [hk, hlen]
  · rw [if_pos (by omega)]
    simp [hlen]

/-- The window of TX.PUSH is a 16-bit one (R47, R231). -/
theorem effWindow_le (t : Sender) : effWindow t ≤ 65535 := by
  have := t.win.isLt
  unfold effWindow
  split <;> omega

theorem ni_length {s : State} (h : ConstantsOk s) : s.ni.length = s.params.nIf := by
  obtain ⟨-, -, -, -, hni⟩ := h
  rw [Config.Params.nIf, ← hni, List.length_map]

/-- With room in the counters nothing stops a well-formed command (R342, R344). -/
theorem stops_eq_none {i : Instr} {s : State} (h : Inv s) (hroom : CounterRoom s)
    (hwf : i.wellFormed s.params.nIf = true) : stops i s = none := by
  obtain ⟨hin, -, -, hconst⟩ := h
  obtain ⟨hibs, hobs, htx⟩ := hroom
  obtain ⟨hlen, hiface⟩ := (wellFormed_iff _ _).1 hwf
  rw [← ni_length hconst] at hiface
  cases i
  case bsPush d =>
    have haccepts := accepts_le s.obs d
    have hd : d.length < 65536 := hlen
    exact if_pos (by rw [push_pushed]; omega)
  case raInsert f d l => simp only [stops, not_raOverflows hin hibs, Bool.false_eq_true, if_false]
  case rxReceive q d syn fin =>
    have hmark : InboundOk (rxMark s q syn) := inboundOk_congr (rxMark_ibs _ _ _) (rxMark_ra _ _ _) hin
    have hfits := not_raOverflows hmark (by rw [rxMark_ibs]; exact hibs)
    cases hx : rxIndex (rxMark s q syn) q syn with
    | none => simp only [stops, hx]
    | some idx => simp only [stops, hx, hfits, Bool.false_eq_true, if_false]
  case txPush =>
    have hcursor := txPushState_cursor s
    have hwin := effWindow_le s.tx
    have hadd : (if s.tx.finSent then 0 else min (effWindow s.tx) (unitsDue s)) ≤ 65535 := by split <;> omega
    exact if_pos (by omega)
  case niSendDgram k _ _ | niRecvFrame k _ _ | niTick k _ | niMaybeSend k | rtAddRoute _ _ _ k =>
    exact if_pos (hiface k rfl)
  all_goals rfl

/-- Settles O8: nothing stops the command, and its effect and its response keep the invariants. -/
theorem everyCommandCompletes : Obligations.EveryCommandCompletes := by
  intro s i h hroom hwf
  have hi := stops_eq_none h hroom hwf
  exact ⟨_, exec_of_not_stops hi, inv_respond (inv_effect h hi) _⟩

end Sys2Proof.Proofs
end

section
/-! SUPPORT. The state family, reset and steps (spec/10_state.md): what reset leaves and that it meets every invariant, and that
every step keeps the invariants of the inbound, the outbound and the link side. -/

namespace Sys2Proof.Proofs

open Sys2Proof.Machine Sys2Proof.Safety Sys2Proof.Laws

/-! The reset state -/

/-- The ISN a reset takes, by whether the parameters fix it (R40, R330). -/
theorem isnAtReset_eq (p : Config.Params) (draws : Nat) :
    State.isnAtReset p draws =
      (match p.isnFixed with
       | some v => v
       | none => Config.isnDraw draws) := by
  unfold State.isnAtReset
  cases p.isnFixed <;> rfl

/-- Settles O1: every field but the sender's ISN is read off the reset state; the ISN depends on ISN_FIXED. -/
theorem resetValues : Obligations.ResetValues := by
  intro p draws
  have htx : (State.resetWith p draws).tx = Sender.fresh (State.isnAtReset p draws) p.rto0 := rfl
  rw [isnAtReset_eq] at htx
  exact ⟨rfl, rfl, rfl, rfl, rfl, rfl, htx, rfl, rfl⟩

theorem inboundOk_resetWith (p : Config.Params) (draws : Nat) : InboundOk (State.resetWith p draws) :=
  inboundOk_fresh rfl rfl

theorem outboundOk_resetWith (p : Config.Params) (draws : Nat) : OutboundOk (State.resetWith p draws) :=
  (outboundOk_iff _).2 ⟨streamOk_fresh p.cOut, senderLaw_fresh _ p.rto0⟩

theorem linkOk_resetWith (p : Config.Params) (draws : Nat) : LinkOk (State.resetWith p draws) := by
  refine ⟨fun n hn => ?_, by simp [RoutesOk, State.resetWith]⟩
  obtain ⟨a, -, rfl⟩ := List.mem_map.1 hn
  exact netIfOk_fresh a

theorem constantsOk_resetWith (p : Config.Params) (draws : Nat) : ConstantsOk (State.resetWith p draws) := by
  obtain ⟨hcap, hrto, hisn⟩ := outboundConstants_fresh p draws
  exact ⟨rfl, hcap, hrto, hisn, by simp [State.resetWith, NetIf.fresh, Function.comp_def]⟩

theorem inv_resetWith (p : Config.Params) (draws : Nat) : Inv (State.resetWith p draws) :=
  ⟨inboundOk_resetWith p draws, outboundOk_resetWith p draws, linkOk_resetWith p draws, constantsOk_resetWith p draws⟩

/-- Settles O3, side by side; the power-on state is one such reset. -/
theorem resetMeetsInvariants : Obligations.ResetMeetsInvariants :=
  ⟨inv_resetWith Config.resetParams 0, inv_resetWith⟩

/-! Every step keeps the invariants -/

/-- Settles O4: the case analysis over what a command can do to the inbound side is `InboundStep.inboundOk`. -/
theorem stepKeepsInbound : Obligations.StepKeepsInbound := by
  intro s t hs h
  exact step_keeps (P := InboundOk) (fun _ _ _ _ hu => hu) (fun _ _ hu hi => (effect_inbound hi).inboundOk hu) hs h

/-- Settles O5: the case analysis over what a command can do to the outbound side is `OutboundStep.outboundOk`. -/
theorem stepKeepsOutbound : Obligations.StepKeepsOutbound := by
  intro s t hs h
  exact step_keeps (P := OutboundOk) (fun _ _ _ _ hu => hu) (fun _ _ hu hi => (effect_outbound hi).outboundOk hu) hs h

/-- Settles O6: the case analysis over what a command can do to the link side is `LinkStep.linkOk`. -/
theorem stepKeepsLink : Obligations.StepKeepsLink := by
  intro s t hs h
  exact step_keeps (P := LinkOk) (fun _ _ _ _ hu => hu) (fun _ _ hu hi => (effect_link hi).linkOk hu) hs h

end Sys2Proof.Proofs
end

section
/-! SUPPORT. The state family, the sender (R46, R49, R233): what is in flight, and what an acknowledgement retires. -/

namespace Sys2Proof.Proofs

open Sys2Proof.Machine Sys2Proof.Safety Sys2Proof.Laws

/-! What is in flight -/

/-- Entries of which no two can satisfy `p` hold at most one that does. -/
theorem length_filter_le_one {α : Type} {l : List α} {p : α → Bool}
    (h : l.Pairwise (fun a b => p a = true → p b = true → False)) : (l.filter p).length ≤ 1 := by
  have hpair := h.filter p
  have hmem : ∀ a ∈ l.filter p, p a = true := fun a ha => (List.mem_filter.1 ha).2
  match hl : l.filter p with
  | [] => simp
  | [a] => simp
  | a :: b :: rest =>
    rw [hl] at hpair hmem
    exact absurd (hmem b (by simp)) ((List.pairwise_cons.1 hpair).1 b (by simp) (hmem a (by simp)))

/-- In a tiling each entry ends at or before every later one begins, and all of them at or before the cursor. -/
theorem senderOk_ends {t : Sender} (h : SenderOk t) :
    (∀ e ∈ t.outstanding, e.abs + seqlen e.seg ≤ t.cursor) ∧
      t.outstanding.Pairwise (fun x y => x.abs + seqlen x.seg ≤ y.abs) :=
  tiles_ends h.1

theorem inflight_eq {t : Sender} (h : SenderOk t) :
    inflight t = (match t.outstanding with
                  | [] => 0
                  | e :: _ => t.cursor - e.abs) := by
  obtain ⟨htiles, -⟩ := h
  unfold inflight
  cases hout : t.outstanding with
  | nil => rfl
  | cons e rest =>
    rw [hout] at htiles
    have hsum := tiles_sum htiles
    simp only
    omega

theorem inflight_le_cursor {t : Sender} (h : SenderOk t) : inflight t ≤ t.cursor := by
  rw [inflight_eq h]
  split <;> omega

/-- Only the entry at absolute 0 is a SYN, and no entry but the first begins there (R49). -/
theorem at_most_one_syn {t : Sender} (h : SenderOk t) : (t.outstanding.filter (fun e => e.seg.syn)).length ≤ 1 := by
  obtain ⟨-, hpair⟩ := senderOk_ends h
  obtain ⟨-, hentries, -⟩ := h
  refine length_filter_le_one (hpair.imp_of_mem ?_)
  intro x y hx hy hle _ hsyn
  obtain ⟨hpos, -⟩ := hentries x hx
  obtain ⟨-, -, -, habs, -⟩ := hentries y hy
  have hzero := habs.1 hsyn
  omega

/-- A FIN ends at the cursor, and nothing lies behind the cursor (R49). -/
theorem at_most_one_fin {t : Sender} (h : SenderOk t) : (t.outstanding.filter (fun e => e.seg.fin)).length ≤ 1 := by
  obtain ⟨hends, hpair⟩ := senderOk_ends h
  obtain ⟨-, hentries, -⟩ := h
  refine length_filter_le_one (hpair.imp_of_mem ?_)
  intro x y hx hy hle hfin _
  obtain ⟨-, -, -, -, hlast⟩ := hentries x hx
  obtain ⟨hpos, -⟩ := hentries y hy
  have hcursor := (hlast hfin).2
  have hend := hends y hy
  omega

/-- Settles O45: the tiling telescopes, and its ends leave room for one SYN and one FIN. -/
theorem inFlightIsCursorMinusOldest : Obligations.InFlightIsCursorMinusOldest :=
  fun _ h => ⟨inflight_eq h, inflight_le_cursor h, at_most_one_syn h, at_most_one_fin h⟩

/-! What an acknowledgement retires -/

/-- The number a checkpoint wraps to unwraps to the checkpoint (R152, R153). -/
theorem unwrap_wrap_self (isn : U32) {c : Nat} (hc : c < two64) : unwrap (wrap c isn) isn c = c := by
  obtain ⟨hlt, hmod, hlow, hhigh⟩ := unwrap_spec (wrap c isn) isn c hc.le
  rw [wrap_sub_toNat] at hmod
  simp only [two32, two64] at *
  omega

/-- Whether or not the timer restarts, the entries left are those behind the covered front. -/
theorem retire_outstanding (t : Sender) (a : Nat) :
    (retire t a).outstanding = t.outstanding.dropWhile (covered a) := by
  rcases retire_cases t a with ⟨he, hout⟩ | ⟨he, -⟩
  · rw [he, hout]
  · rw [he]

/-- In a tiling that front is everything the acknowledgement covers (R46). -/
theorem retire_outstanding_of_tiles {t : Sender} (h : Tiles t.outstanding t.cursor) (a : Nat) :
    (retire t a).outstanding = t.outstanding.filter (fun e => decide (a < e.abs + seqlen e.seg)) := by
  rw [retire_outstanding, tiles_retire h]
  congr 1
  funext e
  rw [covered, ← decide_not, decide_eq_decide, not_le]

/-- Retiring anything restarts the timer and resets the back-off (R233). -/
theorem retire_restarts {t : Sender} {a : Nat} (h : (retire t a).outstanding ≠ t.outstanding) :
    (retire t a).rtoCur = t.rto0 ∧ (retire t a).retx = 0#64 ∧ (retire t a).t = 0#64 := by
  rcases retire_cases t a with ⟨he, -⟩ | ⟨he, -⟩
  · exact absurd (by rw [he]) h
  · rw [he]
    exact ⟨rfl, rfl, rfl⟩

/-- An acknowledgement at or below the cursor is examined with the new window stored (R233). -/
theorem ackSender_of_le {t : Sender} {ackno : U32} (window : U16) (h : unwrap ackno t.isn t.cursor ≤ t.cursor) :
    ackSender t ⟨some ackno, window⟩ = retire { t with win := window } (unwrap ackno t.isn t.cursor) := by
  simp only [ackSender, if_neg (not_lt.2 h)]

theorem exec_txReceive (s : State) (ackno : Option U32) (window : U16) :
    ∃ t, exec (.txReceive ackno window) s = .next t ∧ t.tx = ackSender s.tx ⟨ackno, window⟩ :=
  ⟨_, exec_of_not_stops rfl, rfl⟩

/-- The acknowledgement of everything sent leaves nothing outstanding (R233 corner (c)). -/
theorem retire_cursor_outstanding {t : Sender} (h : Tiles t.outstanding t.cursor) :
    (retire t t.cursor).outstanding = [] := by
  rw [retire_outstanding_of_tiles h, List.filter_eq_nil_iff]
  intro e he
  have hend := (tiles_ends h).1 e he
  simp only [decide_eq_true_eq]
  omega

/-- Settles O42: under the tiling the covered front is the whole covered part; the cursor's own wire number unwraps to the
cursor, which covers everything. -/
theorem txAckRetiresCovered : Obligations.TxAckRetiresCovered := by
  rintro s window ⟨htiles, -, hcursor, -⟩
  constructor
  · intro ackno hle
    obtain ⟨t, ht, htx⟩ := exec_txReceive s (some ackno) window
    rw [ackSender_of_le window hle] at htx
    exact ⟨t, ht, htx ▸ retire_outstanding_of_tiles (t := { s.tx with win := window }) htiles _⟩
  · have hself := unwrap_wrap_self s.tx.isn hcursor
    obtain ⟨t, ht, htx⟩ := exec_txReceive s (some (wrap s.tx.cursor s.tx.isn)) window
    rw [ackSender_of_le window hself.le, hself] at htx
    have hnil : t.tx.outstanding = [] := htx ▸ retire_cursor_outstanding (t := { s.tx with win := window }) htiles
    refine ⟨t, ht, hnil, by rw [inflight, hnil, List.map_nil, List.sum_nil], fun hne => ?_⟩
    rw [htx] at hnil ⊢
    exact retire_restarts (t := { s.tx with win := window }) (hnil ▸ hne.symm)

end Sys2Proof.Proofs
end

section
/-! SUPPORT. The state family, who writes what (the "written by" lines of R23 to R66): for each side of the block one record of
the fields only listed commands write, and the proof that every command but SYS.RESET keeps to it. -/

namespace Sys2Proof.Proofs

open Sys2Proof.Machine Sys2Proof.Safety Sys2Proof.Laws

/-! Streams and the sender only move forward -/

/-- The capacity stays, the counters do not fall and the flags stay set (R23, R24, R25). -/
structure StreamForward (b b' : ByteStream) : Prop where
  cap : b'.cap = b.cap
  pushed : b.pushed ≤ b'.pushed
  popped : b.popped ≤ b'.popped
  closed : b.closed = true → b'.closed = true
  error : b.error = true → b'.error = true

theorem StreamForward.refl (b : ByteStream) : StreamForward b b := ⟨rfl, le_rfl, le_rfl, id, id⟩

theorem StreamForward.trans {a b c : ByteStream} (h : StreamForward a b) (h' : StreamForward b c) : StreamForward a c :=
  ⟨h'.cap.trans h.cap, h.pushed.trans h'.pushed, h.popped.trans h'.popped, h'.closed ∘ h.closed, h'.error ∘ h.error⟩

theorem streamForward_push (b : ByteStream) (data : List Byte) : StreamForward b (b.push data) :=
  ⟨rfl, Nat.le_add_right _ _, le_rfl, id, id⟩

theorem streamForward_pop (b : ByteStream) (n : Nat) : StreamForward b (b.pop n) :=
  ⟨rfl, le_rfl, Nat.le_add_right _ _, id, id⟩

theorem streamForward_close (b : ByteStream) : StreamForward b b.close := ⟨rfl, le_rfl, le_rfl, fun _ => rfl, id⟩

theorem streamForward_setError (b : ByteStream) : StreamForward b b.setError := ⟨rfl, le_rfl, le_rfl, id, fun _ => rfl⟩

/-- The constants stay, the cursor does not fall and the flags stay set (R40, R43, R44, R45). -/
structure SenderForward (t t' : Sender) : Prop where
  isn : t'.isn = t.isn
  rto0 : t'.rto0 = t.rto0
  cursor : t.cursor ≤ t'.cursor
  synSent : t.synSent = true → t'.synSent = true
  finSent : t.finSent = true → t'.finSent = true

theorem SenderForward.refl (t : Sender) : SenderForward t t := ⟨rfl, rfl, le_rfl, id, id⟩

/-! The inbound side -/

/-- What a command may write of IBS, the Reassembler and the TCPReceiver. -/
structure InboundListed (i : Instr) (s t : State) : Prop where
  accepted : i.op ∉ [Op.raInsert, .rxReceive] →
    t.ibs.pushed = s.ibs.pushed ∧ t.ibs.closed = s.ibs.closed ∧ t.ra = s.ra
  buffer : i.op ∉ [Op.raInsert, .rxReceive, .bsPop] → t.ibs.buffer = s.ibs.buffer
  popped : i.op ≠ .bsPop → t.ibs.popped = s.ibs.popped
  error : i ≠ .bsSetError .ibs → t.ibs.error = s.ibs.error
  rx : i.op ≠ .rxReceive → t.rx = s.rx
  forward : StreamForward s.ibs t.ibs
  lastSeen : s.ra.lastSeen = true → t.ra.lastSeen = true
  isnReceived : s.rx.isnReceived = true → t.rx.isnReceived = true

/-- IBS and the Reassembler as they were; the TCPReceiver too, but that RX.RECEIVE may take a SYN. -/
theorem inboundListed_of_kept {i : Instr} {s t : State} (hibs : t.ibs = s.ibs) (hra : t.ra = s.ra)
    (hrx : i.op ≠ .rxReceive → t.rx = s.rx) (hisn : s.rx.isnReceived = true → t.rx.isnReceived = true) :
    InboundListed i s t where
  accepted _ := by rw [hibs, hra]; exact ⟨rfl, rfl, rfl⟩
  buffer _ := by rw [hibs]
  popped _ := by rw [hibs]
  error _ := by rw [hibs]
  rx := hrx
  forward := by rw [hibs]; exact .refl _
  lastSeen := by rw [hra]; exact id
  isnReceived := hisn

/-- RaInsert pushes to IBS and may close it (R191, R192); it neither pops nor raises the error. -/
theorem raInsert_ibs_cases (s : State) (f : Nat) (d : List Byte) (l : Bool) :
    ∃ (run : List Byte) (closes : Bool),
      (raInsert s f d l).ibs = { s.ibs.push run with closed := s.ibs.closed || closes } := by
  unfold raInsert
  simp only [drop_eq, raCloseCheck_eq]
  split
  · exact ⟨[], _, by rw [push_nil, setIbs_ibs, raMark_ibs]⟩
  · split
    · exact ⟨[], _, by rw [push_nil, setIbs_ibs, raMark_ibs]⟩
    · exact ⟨_, _, by rw [setIbs_ibs, raFlush_ibs, raKeep_ibs, raMark_ibs, push_closed]⟩

theorem raInsert_popped (s : State) (f : Nat) (d : List Byte) (l : Bool) :
    (raInsert s f d l).ibs.popped = s.ibs.popped := by
  obtain ⟨run, closes, h⟩ := raInsert_ibs_cases s f d l
  rw [h, push_popped]

theorem raInsert_error (s : State) (f : Nat) (d : List Byte) (l : Bool) :
    (raInsert s f d l).ibs.error = s.ibs.error := by
  obtain ⟨run, closes, h⟩ := raInsert_ibs_cases s f d l
  rw [h, push_error]

theorem streamForward_raInsert (s : State) (f : Nat) (d : List Byte) (l : Bool) :
    StreamForward s.ibs (raInsert s f d l).ibs := by
  obtain ⟨run, closes, h⟩ := raInsert_ibs_cases s f d l
  rw [h]
  exact (streamForward_push s.ibs run).trans ⟨rfl, le_rfl, le_rfl, fun hc => by simpa using .inl hc, id⟩

theorem raCloseCheck_ra (s : State) : (raCloseCheck s).ra = s.ra := by
  rw [raCloseCheck_eq, setIbs_ra]

theorem raInsert_lastSeen (s : State) (f : Nat) (d : List Byte) (l : Bool) :
    (raInsert s f d l).ra.lastSeen = (s.ra.lastSeen || l) := by
  unfold raInsert
  simp only [drop_eq]
  split
  · rw [raCloseCheck_ra, raMark_lastSeen]
  · split
    · rw [raCloseCheck_ra, raMark_lastSeen]
    · rw [raCloseCheck_ra, raFlush_lastSeen, raKeep_lastSeen, raMark_lastSeen]

theorem raInsert_rx (s : State) (f : Nat) (d : List Byte) (l : Bool) : (raInsert s f d l).rx = s.rx := by
  rw [raInsert_eq_set, setRa_rx, setIbs_rx]

theorem rxMark_isnReceived (s : State) (q : U32) (syn : Bool) :
    (rxMark s q syn).rx.isnReceived = (s.rx.isnReceived || syn) := by
  unfold rxMark
  cases syn <;> simp

/-- What RX.RECEIVE does to the inbound side: nothing but taking the SYN, or that and an insert (R220). -/
theorem effect_rxReceive_cases (s : State) (q : U32) (d : List Byte) (syn fin : Bool) :
    effect (.rxReceive q d syn fin) s = rxMark s q syn ∨
      ∃ idx, rxIndex (rxMark s q syn) q syn = some idx ∧
        effect (.rxReceive q d syn fin) s = raInsert (rxMark s q syn) idx d fin := by
  cases hx : rxIndex (rxMark s q syn) q syn with
  | none => exact .inl (by simp only [effect, hx])
  | some idx => exact .inr ⟨idx, rfl, by simp only [effect, hx]⟩

/-- An insert into a state that has the inbound units of `s`. -/
theorem inboundListed_of_inserted {i : Instr} {s u : State} (hi : i.op ∈ [Op.raInsert, .rxReceive])
    (hibs : u.ibs = s.ibs) (hra : u.ra = s.ra) (hrx : i.op ≠ .rxReceive → u.rx = s.rx)
    (hisn : s.rx.isnReceived = true → u.rx.isnReceived = true) (f : Nat) (d : List Byte) (l : Bool) :
    InboundListed i s (raInsert u f d l) where
  accepted hnot := absurd hi hnot
  buffer hnot := absurd (List.mem_append_left [Op.bsPop] hi) hnot
  popped _ := by rw [raInsert_popped, hibs]
  error _ := by rw [raInsert_error, hibs]
  rx hne := by rw [raInsert_rx, hrx hne]
  forward := hibs ▸ streamForward_raInsert u f d l
  lastSeen h := by rw [raInsert_lastSeen, hra, h, Bool.true_or]
  isnReceived h := by rw [raInsert_rx, hisn h]

theorem inboundListed_rxReceive (s : State) (q : U32) (d : List Byte) (syn fin : Bool) :
    InboundListed (.rxReceive q d syn fin) s (effect (.rxReceive q d syn fin) s) := by
  have hrx : s.rx.isnReceived = true → (rxMark s q syn).rx.isnReceived = true := fun h => by
    rw [rxMark_isnReceived, h, Bool.true_or]
  have hop : (Instr.rxReceive q d syn fin).op ≠ .rxReceive → (rxMark s q syn).rx = s.rx := fun h => absurd rfl h
  rcases effect_rxReceive_cases s q d syn fin with he | ⟨idx, -, he⟩
  · exact he ▸ inboundListed_of_kept (rxMark_ibs s q syn) (rxMark_ra s q syn) hop hrx
  · exact he ▸ inboundListed_of_inserted (by simp [Instr.op]) (rxMark_ibs s q syn) (rxMark_ra s q syn) hop hrx idx d fin

theorem inboundListed_effect {i : Instr} {s : State} (hi : i ≠ .sysReset) (h : stops i s = none) :
    InboundListed i s (effect i s) := by
  cases i
  case sysReset => exact absurd rfl hi
  case bsSetError sel =>
    cases sel with
    | ibs =>
      exact
        { inboundListed_of_kept (t := s) rfl rfl (fun _ => rfl) id with
          error := fun hne => absurd rfl hne
          forward := streamForward_setError s.ibs }
    | obs => exact inboundListed_of_kept rfl rfl (fun _ => rfl) id
  case bsPop n =>
    exact
      { inboundListed_of_kept (t := s) rfl rfl (fun _ => rfl) id with
        buffer := by simp [Instr.op]
        popped := by simp [Instr.op]
        forward := streamForward_pop s.ibs n.toNat }
  case raInsert f d l => exact inboundListed_of_inserted (by simp [Instr.op]) rfl rfl (fun _ => rfl) id f.toNat d l
  case rxReceive q d syn fin => exact inboundListed_rxReceive s q d syn fin
  case txPush =>
    rw [effect_txPush_frame]
    exact inboundListed_of_kept rfl rfl (fun _ => rfl) id
  case niSendDgram | niRecvFrame | niTick | niMaybeSend =>
    rw [effect_iface_frame (by simp [Instr.op]) h]
    exact inboundListed_of_kept rfl rfl (fun _ => rfl) id
  all_goals exact inboundListed_of_kept rfl rfl (fun _ => rfl) id

/-! The outbound side -/

/-- What a command may write of OBS and the TCPSender. -/
structure OutboundListed (i : Instr) (s t : State) : Prop where
  pushed : i.op ≠ .bsPush → t.obs.pushed = s.obs.pushed
  buffer : i.op ∉ [Op.bsPush, .txPush] → t.obs.buffer = s.obs.buffer
  closed : i.op ≠ .bsClose → t.obs.closed = s.obs.closed
  error : i ≠ .bsSetError .obs → t.obs.error = s.obs.error
  sent : i.op ≠ .txPush →
    t.obs.popped = s.obs.popped ∧ t.tx.cursor = s.tx.cursor ∧ t.tx.synSent = s.tx.synSent ∧ t.tx.finSent = s.tx.finSent
  outstanding : i.op ∉ [Op.txPush, .txReceive] → t.tx.outstanding = s.tx.outstanding
  ready : i.op ∉ [Op.txPush, .txMaybeSend, .txTick] → t.tx.ready = s.tx.ready
  win : i.op ≠ .txReceive → t.tx.win = s.tx.win
  timer : i.op ∉ [Op.txReceive, .txTick] → t.tx.rtoCur = s.tx.rtoCur ∧ t.tx.t = s.tx.t ∧ t.tx.retx = s.tx.retx
  forward : StreamForward s.obs t.obs
  sender : SenderForward s.tx t.tx

theorem outboundListed_of_kept {i : Instr} {s t : State} (hobs : t.obs = s.obs) (htx : t.tx = s.tx) :
    OutboundListed i s t where
  pushed _ := by rw [hobs]
  buffer _ := by rw [hobs]
  closed _ := by rw [hobs]
  error _ := by rw [hobs]
  sent _ := by rw [hobs, htx]; exact ⟨rfl, rfl, rfl, rfl⟩
  outstanding _ := by rw [htx]
  ready _ := by rw [htx]
  win _ := by rw [htx]
  timer _ := by rw [htx]; exact ⟨rfl, rfl, rfl⟩
  forward := by rw [hobs]; exact .refl _
  sender := by rw [htx]; exact .refl _

/-- What one round of TX.PUSH leaves alone or moves forward, the loop does (R231). -/
structure PushKeeps (s u : State) : Prop where
  stream : u.obs.pushed = s.obs.pushed ∧ u.obs.closed = s.obs.closed ∧ u.obs.error = s.obs.error
  win : u.tx.win = s.tx.win
  timer : u.tx.rtoCur = s.tx.rtoCur ∧ u.tx.t = s.tx.t ∧ u.tx.retx = s.tx.retx
  forward : StreamForward s.obs u.obs
  sender : SenderForward s.tx u.tx

theorem pushKeeps_commit {s u : State} (h : PushKeeps s u) (g : Segment) : PushKeeps s (commitSegment u g) where
  stream := h.stream
  win := h.win
  timer := h.timer
  forward := h.forward.trans (streamForward_pop u.obs g.payload.length)
  sender :=
    { isn := h.sender.isn
      rto0 := h.sender.rto0
      cursor := h.sender.cursor.trans (Nat.le_add_right _ _)
      synSent := fun hs => by rw [commitSegment_tx, h.sender.synSent hs, Bool.true_or]
      finSent := fun hs => by rw [commitSegment_tx, h.sender.finSent hs, Bool.true_or] }

theorem pushKeeps_txPush (s : State) : PushKeeps s (txPushState s) :=
  txPushState_keeps (P := PushKeeps s) (fun _ _ hu _ _ _ => pushKeeps_commit hu _)
    ⟨⟨rfl, rfl, rfl⟩, rfl, ⟨rfl, rfl, rfl⟩, .refl _, .refl _⟩

theorem outboundListed_txPush (s : State) : OutboundListed .txPush s (txPushState s) := by
  obtain ⟨⟨hpushed, hclosed, herror⟩, hwin, htimer, hforward, hsender⟩ := pushKeeps_txPush s
  exact
    { pushed := fun _ => hpushed
      buffer := by simp [Instr.op]
      closed := fun _ => hclosed
      error := fun _ => herror
      sent := by simp [Instr.op]
      outstanding := by simp [Instr.op]
      ready := by simp [Instr.op]
      win := fun _ => hwin
      timer := fun _ => htimer
      forward := hforward
      sender := hsender }

/-- An acknowledgement writes the window, `outstanding` and the timer (R233). -/
theorem ackSender_eq (t : Sender) (m : AckMsg) :
    ackSender t m =
      { t with
        win := (ackSender t m).win
        outstanding := (ackSender t m).outstanding
        rtoCur := (ackSender t m).rtoCur
        t := (ackSender t m).t
        retx := (ackSender t m).retx } := by
  rcases ackSender_cases t m with he | ⟨a, he⟩
  · rw [he]
  · rcases retire_cases { t with win := m.windowSize } a with ⟨hr, -⟩ | ⟨hr, -⟩ <;> rw [he, hr]

theorem outboundListed_txReceive (s : State) (ackno : Option U32) (window : U16) :
    OutboundListed (.txReceive ackno window) s (s.setTx (ackSender s.tx ⟨ackno, window⟩)) := by
  rw [ackSender_eq]
  exact
    { outboundListed_of_kept (t := s) rfl rfl with
      outstanding := by simp [Instr.op]
      win := by simp [Instr.op]
      timer := by simp [Instr.op]
      sender := ⟨rfl, rfl, le_rfl, id, id⟩ }

/-- TX.TICK writes `ready`, the timer and the back-off (R234). -/
theorem outboundListed_txTick (s : State) (delta : U64) :
    OutboundListed (.txTick delta) s (s.setTx (tickSender s.tx delta)) := by
  obtain ⟨ready, v, he | he⟩ := tickSender_cases s.tx delta <;>
  · rw [he]
    exact
      { outboundListed_of_kept (t := s) rfl rfl with
        ready := by simp [Instr.op]
        timer := by simp [Instr.op]
        sender := ⟨rfl, rfl, le_rfl, id, id⟩ }

theorem outboundListed_effect {i : Instr} {s : State} (hi : i ≠ .sysReset) (h : stops i s = none) :
    OutboundListed i s (effect i s) := by
  cases i
  case sysReset => exact absurd rfl hi
  case bsPush d =>
    exact
      { outboundListed_of_kept (t := s) rfl rfl with
        pushed := by simp [Instr.op]
        buffer := by simp [Instr.op]
        forward := streamForward_push s.obs d }
  case bsClose =>
    exact
      { outboundListed_of_kept (t := s) rfl rfl with
        closed := by simp [Instr.op]
        forward := streamForward_close s.obs }
  case bsSetError sel =>
    cases sel with
    | ibs => exact outboundListed_of_kept rfl rfl
    | obs =>
      exact
        { outboundListed_of_kept (t := s) rfl rfl with
          error := fun hne => absurd rfl hne
          forward := streamForward_setError s.obs }
  case raInsert f d l =>
    rw [effect_raInsert_frame]
    exact outboundListed_of_kept rfl rfl
  case rxReceive q d syn fin =>
    rw [effect_rxReceive_frame]
    exact outboundListed_of_kept rfl rfl
  case txPush => exact outboundListed_txPush s
  case txMaybeSend =>
    exact
      { outboundListed_of_kept (t := s) rfl rfl with
        ready := by simp [Instr.op]
        sender := ⟨rfl, rfl, le_rfl, id, id⟩ }
  case txReceive ackno window => exact outboundListed_txReceive s ackno window
  case txTick delta => exact outboundListed_txTick s delta
  case niSendDgram | niRecvFrame | niTick | niMaybeSend =>
    rw [effect_iface_frame (by simp [Instr.op]) h]
    exact outboundListed_of_kept rfl rfl
  all_goals exact outboundListed_of_kept rfl rfl

/-! The link side -/

/-- What a command with code `o` may write of one interface (R55 to R60). -/
structure IfaceListed (o : Op) (n n' : NetIf) : Prop where
  addresses : (n'.eth, n'.ip) = (n.eth, n.ip)
  arpCache : o ∉ [Op.niRecvFrame, .niTick] → n'.arpCache = n.arpCache
  arpInflight : o ∉ [Op.niSendDgram, .niTick, .rtRoute] → n'.arpInflight = n.arpInflight
  pending : o ∉ [Op.niSendDgram, .niRecvFrame, .niTick, .rtRoute] → n'.pending = n.pending
  outQueue : o ∉ [Op.niSendDgram, .niRecvFrame, .niMaybeSend, .rtRoute] → n'.outQueue = n.outQueue
  rxQueue : o ∉ [Op.niRecvFrame, .rtRoute] → n'.rxQueue = n.rxQueue

theorem ifaceListed_send (c : Config.Codec) (n : NetIf) (d : List Byte) (ip : U32) :
    IfaceListed .niSendDgram n (n.send c d ip) where
  addresses := (IfaceStep.sent c d ip).addresses
  arpCache _ := send_arpCache c n d ip
  arpInflight := by simp
  pending := by simp
  outQueue := by simp
  rxQueue _ := send_rx c n d ip

theorem receive_arpInflight (c : Config.Codec) (n : NetIf) (f : List Byte) (q : Bool) :
    (n.receive c f q).1.arpInflight = n.arpInflight := by
  rcases receive_cases c n f q with h | ⟨d, h⟩ | ⟨m, h⟩
  · rw [h]
  · rw [h]
  · rw [h, answer_eq]
    rfl

theorem ifaceListed_receive (c : Config.Codec) (n : NetIf) (f : List Byte) (q : Bool) :
    IfaceListed .niRecvFrame n (n.receive c f q).1 where
  addresses := (IfaceStep.received c f q).addresses
  arpCache := by simp
  arpInflight _ := receive_arpInflight c n f q
  pending := by simp
  outQueue := by simp
  rxQueue := by simp

theorem ifaceListed_tick (n : NetIf) (delta : U64) : IfaceListed .niTick n (n.tick delta) where
  addresses := rfl
  arpCache := by simp
  arpInflight := by simp
  pending := by simp
  outQueue _ := rfl
  rxQueue _ := rfl

theorem ifaceListed_dequeue (n : NetIf) : IfaceListed .niMaybeSend n { n with outQueue := n.outQueue.tail } where
  addresses := rfl
  arpCache _ := rfl
  arpInflight _ := rfl
  pending _ := rfl
  outQueue := by simp
  rxQueue _ := rfl

/-- What a command may write of the interfaces and the route list. -/
structure LinkListed (i : Instr) (s t : State) : Prop where
  addresses : t.ni.map (fun n => (n.eth, n.ip)) = s.ni.map (fun n => (n.eth, n.ip))
  ni : i.op ∉ [Op.niSendDgram, .niRecvFrame, .niTick, .niMaybeSend, .rtRoute] → t.ni = s.ni
  arpCache : i.op ∉ [Op.niRecvFrame, .niTick] → t.ni.map (fun n => n.arpCache) = s.ni.map (fun n => n.arpCache)
  arpInflight : i.op ∉ [Op.niSendDgram, .niTick, .rtRoute] →
    t.ni.map (fun n => n.arpInflight) = s.ni.map (fun n => n.arpInflight)
  pending : i.op ∉ [Op.niSendDgram, .niRecvFrame, .niTick, .rtRoute] →
    t.ni.map (fun n => n.pending) = s.ni.map (fun n => n.pending)
  outQueue : i.op ∉ [Op.niSendDgram, .niRecvFrame, .niMaybeSend, .rtRoute] →
    t.ni.map (fun n => n.outQueue) = s.ni.map (fun n => n.outQueue)
  rxQueue : i.op ∉ [Op.niRecvFrame, .rtRoute] → t.ni.map (fun n => n.rxQueue) = s.ni.map (fun n => n.rxQueue)
  others : i.op ≠ .rtRoute → ∀ k : Nat, (∀ w, i.iface = some w → w.toNat ≠ k) → t.ni[k]? = s.ni[k]?
  rt : i.op ≠ .rtAddRoute → t.rt = s.rt

theorem linkListed_of_kept {i : Instr} {s t : State} (hni : t.ni = s.ni) (hrt : i.op ≠ .rtAddRoute → t.rt = s.rt) :
    LinkListed i s t where
  addresses := by rw [hni]
  ni _ := hni
  arpCache _ := by rw [hni]
  arpInflight _ := by rw [hni]
  pending _ := by rw [hni]
  outQueue _ := by rw [hni]
  rxQueue _ := by rw [hni]
  others _ _ _ := by rw [hni]
  rt := hrt

/-- A command that writes the one interface it names, and of that one no more than is listed, keeps to the list. -/
theorem linkListed_setIf {i : Instr} {s : State} {w : U32} {n n' : NetIf} (hw : i.iface = some w)
    (hop : i.op ∈ [Op.niSendDgram, .niRecvFrame, .niTick, .niMaybeSend, .rtRoute]) (hn : s.ni[w.toNat]? = some n)
    (h : IfaceListed i.op n n') : LinkListed i s (s.setIf w.toNat n') where
  addresses := map_set_of_eq _ hn n' h.addresses
  ni hnot := absurd hop hnot
  arpCache hi := map_set_of_eq _ hn n' (h.arpCache hi)
  arpInflight hi := map_set_of_eq _ hn n' (h.arpInflight hi)
  pending hi := map_set_of_eq _ hn n' (h.pending hi)
  outQueue hi := map_set_of_eq _ hn n' (h.outQueue hi)
  rxQueue hi := map_set_of_eq _ hn n' (h.rxQueue hi)
  others _ _ hk := List.getElem?_set_ne (hk w hw)
  rt _ := rfl

theorem linkListed_rtRoute (s : State) (c : Config.Codec) :
    LinkListed .rtRoute s (s.setNi (drainAll c s.rt.routes s.ni)) where
  addresses := drainAll_map _ (fun _ c d ip => (IfaceStep.sent c d ip).addresses) (fun _ => rfl) c _ _
  ni := by simp [Instr.op]
  arpCache _ := drainAll_map _ (fun n c d ip => send_arpCache c n d ip) (fun _ => rfl) c _ _
  arpInflight := by simp [Instr.op]
  pending := by simp [Instr.op]
  outQueue := by simp [Instr.op]
  rxQueue := by simp [Instr.op]
  others := by simp [Instr.op]
  rt _ := rfl

theorem exists_iface {s : State} {w : U32}
    (h : (if w.toNat < s.ni.length then none else some Refusal.noSuchInterface) = none) :
    ∃ n, s.ni[w.toNat]? = some n := by
  by_cases hlt : w.toNat < s.ni.length
  · exact ⟨_, List.getElem?_eq_getElem hlt⟩
  · simp [hlt] at h

theorem linkListed_effect {i : Instr} {s : State} (hi : i ≠ .sysReset) (h : stops i s = none) :
    LinkListed i s (effect i s) := by
  cases i
  case sysReset => exact absurd rfl hi
  case bsSetError sel => exact linkListed_of_kept (setStream_ni _ _ _) (fun _ => setStream_rt _ _ _)
  case raInsert f d l =>
    rw [effect_raInsert_frame]
    exact linkListed_of_kept rfl (fun _ => rfl)
  case rxReceive q d syn fin =>
    rw [effect_rxReceive_frame]
    exact linkListed_of_kept rfl (fun _ => rfl)
  case txPush =>
    rw [effect_txPush_frame]
    exact linkListed_of_kept rfl (fun _ => rfl)
  case niSendDgram w nextHop d =>
    obtain ⟨n, hn⟩ := exists_iface h
    simp only [effect, hn]
    exact linkListed_setIf rfl (by simp [Instr.op]) hn (ifaceListed_send s.params.codec n d nextHop)
  case niRecvFrame w f q =>
    obtain ⟨n, hn⟩ := exists_iface h
    simp only [effect, hn]
    exact linkListed_setIf rfl (by simp [Instr.op]) hn (ifaceListed_receive s.params.codec n f q)
  case niTick w delta =>
    obtain ⟨n, hn⟩ := exists_iface h
    simp only [effect, hn]
    exact linkListed_setIf rfl (by simp [Instr.op]) hn (ifaceListed_tick n delta)
  case niMaybeSend w =>
    obtain ⟨n, hn⟩ := exists_iface h
    simp only [effect, hn]
    exact linkListed_setIf rfl (by simp [Instr.op]) hn (ifaceListed_dequeue n)
  case rtAddRoute => exact linkListed_of_kept rfl (by simp [Instr.op])
  case rtRoute => exact linkListed_rtRoute s s.params.codec
  all_goals exact linkListed_of_kept rfl (fun _ => rfl)

/-! The command port -/

theorem effect_cmds {i : Instr} {s : State} (h : stops i s = none) : (effect i s).cmds = s.cmds := by
  cases i
  case bsSetError sel => exact setStream_cmds _ _ _
  case raInsert f d l =>
    rw [effect_raInsert_frame]
    rfl
  case rxReceive q d syn fin =>
    rw [effect_rxReceive_frame]
    rfl
  case txPush =>
    rw [effect_txPush_frame]
    rfl
  case niSendDgram | niRecvFrame | niTick | niMaybeSend =>
    rw [effect_iface_frame (by simp [Instr.op]) h, setNi_cmds]
  all_goals rfl

/-- Settles O59: the three lists side by side; the response a command gives writes none of the fields. -/
theorem fieldsWrittenOnlyAsListed : Obligations.FieldsWrittenOnlyAsListed := by
  intro i s t h hi
  obtain ⟨hstop, rfl⟩ := exec_next h
  have hin := inboundListed_effect hi hstop
  have hout := outboundListed_effect hi hstop
  have hlink := linkListed_effect hi hstop
  exact
    ⟨⟨effect_params hstop, effect_cmds hstop, hin.forward.cap, hout.forward.cap, hout.sender.isn, hout.sender.rto0,
        hlink.addresses⟩,
      hin.accepted, hin.buffer, hin.popped, hin.error, hin.rx,
      hout.pushed, hout.buffer, hout.closed, hout.error, hout.sent, hout.outstanding, hout.ready, hout.win, hout.timer,
      hlink.ni, hlink.arpCache, hlink.arpInflight, hlink.pending, hlink.outQueue, hlink.rxQueue, hlink.others, hlink.rt,
      hin.forward.closed, hout.forward.closed, hin.forward.error, hout.forward.error, hin.lastSeen, hin.isnReceived,
      hout.sender.synSent, hout.sender.finSent,
      hin.forward.pushed, hin.forward.popped, hout.forward.pushed, hout.forward.popped, hout.sender.cursor⟩

end Sys2Proof.Proofs
end

section
/-! SUPPORT. The state family, the inbound side as a piece of one stream (R31 (d), R198). -/

namespace Sys2Proof.Proofs

open Sys2Proof.Machine Sys2Proof.Safety Sys2Proof.Laws

section

variable {x : Nat → Byte}

/-! Bytes at their place in a stream -/

theorem carriesAt_iff (i : Nat) (d : List Byte) : CarriesAt x i d ↔ ∀ k b, d[k]? = some b → b = x (i + k) := by
  constructor
  · intro h k b hk
    obtain ⟨hlt, rfl⟩ := List.getElem?_eq_some_iff.1 hk
    exact h k hlt
  · exact fun h k hk => h k _ (List.getElem?_eq_getElem hk)

theorem carriesAt_nil (i : Nat) : CarriesAt x i [] := fun _ hk => absurd hk (Nat.not_lt_zero _)

theorem carriesAt_append {i : Nat} {a b : List Byte} (ha : CarriesAt x i a) (hb : CarriesAt x (i + a.length) b) :
    CarriesAt x i (a ++ b) := by
  intro k hk
  rw [List.length_append] at hk
  by_cases hlt : k < a.length
  · rw [List.getElem_append_left hlt, ha k hlt]
  · rw [List.getElem_append_right (by omega), hb (k - a.length) (by omega)]
    congr 1
    omega

theorem carriesAt_take {i : Nat} {d : List Byte} (h : CarriesAt x i d) (n : Nat) : CarriesAt x i (d.take n) := by
  rw [carriesAt_iff] at h ⊢
  intro k b hk
  rw [List.getElem?_take] at hk
  exact h k b (Option.ite_none_right_eq_some.1 hk).2

theorem carriesAt_drop {i : Nat} {d : List Byte} (h : CarriesAt x i d) (n : Nat) : CarriesAt x (i + n) (d.drop n) := by
  rw [carriesAt_iff] at h ⊢
  intro k b hk
  rw [List.getElem?_drop] at hk
  rw [h _ b hk, Nat.add_assoc]

/-! The fragment store -/

/-- Every byte the store holds is the stream's at its index (R31 (d)). -/
def StoreHolds (x : Nat → Byte) (m : Memory) : Prop := ∀ i b, Memory.read m i = some b → b = x i

theorem holdsStream_iff (s : State) :
    HoldsStream x s ↔ CarriesAt x s.ibs.popped s.ibs.buffer ∧ StoreHolds x s.ra.store := Iff.rfl

/-- Step 4 adds the fragment's own bytes only (R191). -/
theorem storeHolds_raKeep {s : State} {f : Nat} {d : List Byte} (h : StoreHolds x s.ra.store) (hd : CarriesAt x f d) :
    StoreHolds x (raKeep s f d).ra.store := by
  rw [carriesAt_iff] at hd
  intro i b hb
  rw [raKeep_read] at hb
  cases hold : Memory.read s.ra.store i with
  | some b' =>
    rw [hold] at hb
    exact Option.some.inj hb ▸ h i b' hold
  | none =>
    rw [hold] at hb
    obtain ⟨⟨hle, -⟩, hbyte⟩ := Option.ite_none_right_eq_some.1 hb
    rw [hd _ b hbyte, Nat.add_sub_of_le hle]

/-- The run that is flushed lies in the stream from the window's start on. -/
theorem carriesAt_flushRun {s : State} (h : StoreHolds x s.ra.store) : CarriesAt x s.windowStart (flushRun s) := by
  intro j hj
  have hread := flushRun_read s j hj
  rw [List.getElem?_eq_getElem hj] at hread
  exact h _ _ hread

theorem storeHolds_raFlush {s : State} (hwf : Memory.wf s.ra.store = true) (h : StoreHolds x s.ra.store) :
    StoreHolds x (raFlush s).ra.store := by
  intro i b hb
  rw [raFlush_read hwf] at hb
  exact h i b (Option.ite_none_left_eq_some.1 hb).2

/-! The inbound side -/

theorem holdsStream_resetWith (p : Config.Params) (draws : Nat) : HoldsStream x (State.resetWith p draws) :=
  ⟨carriesAt_nil _, fun _ _ h => by simp [State.resetWith, Reassembler.fresh, Memory.read] at h⟩

theorem holdsStream_congr {s t : State} (hbuffer : t.ibs.buffer = s.ibs.buffer) (hpopped : t.ibs.popped = s.ibs.popped)
    (hra : t.ra = s.ra) (h : HoldsStream x s) : HoldsStream x t := by
  simpa only [HoldsStream, hbuffer, hpopped, hra] using h

theorem holdsStream_pop {s : State} (h : HoldsStream x s) (n : Nat) : HoldsStream x (s.setIbs (s.ibs.pop n)) := by
  obtain ⟨hbuffer, hstore⟩ := h
  exact ⟨carriesAt_drop hbuffer _, hstore⟩

/-- A fragment of the stream brings nothing but the stream: what step 5 pushes continues the buffer where it ends, at `U`
(R191, R194). -/
theorem holdsStream_raInsert {s : State} {f : Nat} {d : List Byte} (hok : InboundOk s) (h : HoldsStream x s)
    (hd : CarriesAt x f d) (l : Bool) : HoldsStream x (raInsert s f d l) := by
  obtain ⟨⟨hend, -⟩, hstoreOk⟩ := hok
  obtain ⟨hbuffer, hstore⟩ := h
  have hkept : StoreHolds x (raKeep (raMark s f d l) f d).ra.store :=
    storeHolds_raKeep (raMark_store s f d l ▸ hstore) hd
  have hwf := raKeep_wf (storeOk_raMark hstoreOk f d l).1 f d
  have hrun := carriesAt_flushRun hkept
  rw [State.windowStart, raKeep_ibs, raMark_ibs, hend] at hrun
  rw [raInsert_steps hstoreOk, holdsStream_iff, raCloseCheck_ra]
  refine ⟨?_, storeHolds_raFlush hwf hkept⟩
  rw [raCloseCheck_eq, setIbs_ibs, raFlush_ibs, raKeep_ibs, raMark_ibs, push_popped, push_buffer]
  exact carriesAt_append hbuffer (carriesAt_take hrun _)

theorem holdsStream_rxReceive {s : State} {q : U32} {d : List Byte} {syn : Bool} (fin : Bool) (hok : InboundOk s)
    (h : HoldsStream x s) (hd : ∀ idx, rxIndex (rxMark s q syn) q syn = some idx → CarriesAt x idx d) :
    HoldsStream x (effect (.rxReceive q d syn fin) s) := by
  have hibs := rxMark_ibs s q syn
  have hra := rxMark_ra s q syn
  have hmark : HoldsStream x (rxMark s q syn) := holdsStream_congr (by rw [hibs]) (by rw [hibs]) hra h
  rcases effect_rxReceive_cases s q d syn fin with he | ⟨idx, hidx, he⟩
  · exact he ▸ hmark
  · exact he ▸ holdsStream_raInsert (inboundOk_congr hibs hra hok) hmark (hd idx hidx) fin

/-- A command that neither inserts nor pops leaves what the inbound side holds alone. -/
theorem holdsStream_effect_of_frame {i : Instr} {s : State} (hi : i ≠ .sysReset) (hstop : stops i s = none)
    (hop : i.op ∉ [Op.raInsert, .rxReceive, .bsPop]) (h : HoldsStream x s) : HoldsStream x (effect i s) := by
  have hlist := inboundListed_effect hi hstop
  obtain ⟨-, -, hra⟩ := hlist.accepted fun hmem => hop (List.mem_append_left [Op.bsPop] hmem)
  exact holdsStream_congr (hlist.buffer hop) (hlist.popped fun he => hop (by simp [he])) hra h

theorem holdsStream_effect {i : Instr} {s : State} (hok : InboundOk s) (h : HoldsStream x s) (hins : InsertsStream x s i)
    (hi : i ≠ .sysReset) (hstop : stops i s = none) : HoldsStream x (effect i s) := by
  cases i
  case bsPop n => exact holdsStream_pop h n.toNat
  case raInsert f d l => exact holdsStream_raInsert hok h hins l
  case rxReceive q d syn fin => exact holdsStream_rxReceive fin hok h hins
  all_goals exact holdsStream_effect_of_frame hi hstop (by simp [Instr.op]) h

end

/-- Settles O32: only inserting and popping move what is held, and both keep every byte at its index. -/
theorem inboundCarriesTheStream : Obligations.InboundCarriesTheStream := by
  refine ⟨fun _ => holdsStream_resetWith, fun x i s t hok h hins hi he => ?_⟩
  obtain ⟨hstop, rfl⟩ := exec_next he
  exact holdsStream_effect hok h hins hi hstop

end Sys2Proof.Proofs
end

section
/-! SUPPORT. The memory family (spec/20_memory.md): the acceptance window (R93, R195) and the commands that only observe
(R92). -/

namespace Sys2Proof.Proofs

open Sys2Proof.Machine Sys2Proof.Safety Sys2Proof.Laws

/-! The acceptance window -/

theorem windowStart_le_windowEnd (s : State) : s.windowStart ≤ s.windowEnd := Nat.le_add_right _ _

/-- The window's left edge is `pushed` and, under the stream's invariant, its right edge is `popped + C`: a stream that
moves forward takes both along. -/
theorem StreamForward.window {s t : State} (h : StreamForward s.ibs t.ibs) (hs : StreamOk s.ibs) (ht : StreamOk t.ibs) :
    s.windowStart ≤ t.windowStart ∧ s.windowEnd ≤ t.windowEnd := by
  refine ⟨h.pushed, ?_⟩
  rw [windowEnd_eq hs, windowEnd_eq ht, h.cap]
  exact Nat.add_le_add_right h.popped _

/-- Settles O31: every command but SYS.RESET moves IBS forward and keeps its invariant, and no response touches it. -/
theorem windowNeverMovesBack : Obligations.WindowNeverMovesBack := by
  intro i s t hok hi he
  obtain ⟨hstop, rfl⟩ := exec_next he
  have hforward : StreamForward s.ibs ((effect i s).respond (reply i s)).ibs := (inboundListed_effect hi hstop).forward
  have hstream : StreamOk ((effect i s).respond (reply i s)).ibs := (inboundOk_effect hok hstop).1
  obtain ⟨hstart, hend⟩ := hforward.window hok.1 hstream
  exact ⟨hstart, hend, windowEnd_eq hstream, windowStart_le_windowEnd _⟩

/-! The commands that only observe -/

/-- The sixteen commands of R92. -/
def observers : List Op :=
  [.bsPeek, .bsAvail, .bsPushed, .bsPopped, .bsBuffered, .bsIsClosed, .bsIsFinished, .bsHasError,
    .raPending, .rxSend, .txSendEmpty, .txInFlight, .txRetx, .w32Add, .w32Wrap, .w32Unwrap]

/-- No command reads the list of responses. -/
theorem reply_answered (i : Instr) (s : State) (r : List Byte) : reply i (answered s r) = reply i s := by
  cases i <;> rfl

/-- BS.PEEK shows no more than RLEN can count (D14). -/
theorem peek_length_lt (b : ByteStream) : b.peek.length < 65536 := by
  simp only [ByteStream.peek, List.length_take]
  omega

/-- An observer is never refused, has no effect, and answers no more than RLEN can count: only BS.PEEK answers a payload. -/
theorem observer_spec {i : Instr} (hi : i.op ∈ observers) (s : State) :
    stops i s = none ∧ effect i s = s ∧ (reply i s).payload.length < 65536 := by
  cases i
  case bsPeek => exact ⟨rfl, rfl, peek_length_lt s.ibs⟩
  case bsAvail | bsPushed | bsPopped | bsBuffered | bsIsClosed | bsIsFinished | bsHasError | raPending | rxSend | txSendEmpty
      | txInFlight | txRetx | w32Add | w32Wrap | w32Unwrap =>
    exact ⟨rfl, rfl, Nat.zero_lt_succ _⟩
  all_goals simp [Instr.op, observers] at hi

/-- An observer adds its response to the list and changes nothing else. -/
theorem exec_observer {i : Instr} (hi : i.op ∈ observers) (s : State) :
    exec i s = .next (answered s ((reply i s).bytes (BitVec.ofNat 16 (reply i s).payload.length))) := by
  obtain ⟨hstop, heffect, hshort⟩ := observer_spec hi s
  rw [exec_of_not_stops hstop, heffect, respond_eq_of_short _ _ hshort]

/-- Settles O60: an observer runs as `exec_observer` says, and its reply does not see the response it gave before. -/
theorem observersChangeNothing : Obligations.ObserversChangeNothing := by
  intro i s hi
  refine ⟨_, exec_observer hi s, ?_⟩
  rw [exec_observer hi (answered s _), reply_answered]

end Sys2Proof.Proofs
end

section
/-! SUPPORT. The encoding family, descriptors (spec/30_encoding.md R110 to R114, R118, R119): the operands of a command and the
fields of its descriptor determine each other, and a descriptor assembles exactly when its operand words are what R112 and R114
ask. -/

namespace Sys2Proof.Proofs

open Sys2Proof.Machine Sys2Proof.Safety Sys2Proof.Laws

/-! FLAGS and the bits they carry -/

/-- Under a full mask FLAGS is the row's own. -/
theorem flags_of_fixed {f w : Byte} (h : f &&& 0xFF#8 = w) : f = w := by
  rw [← h]
  exact BitVec.and_allOnes.symm

theorem bit_of_masked {f m : Byte} (h : f &&& m = 0#8) {k : Nat} (hm : m.getLsbD k = true) : f.getLsbD k = false := by
  have hk := congrArg (BitVec.getLsbD · k) h
  simpa only [BitVec.getLsbD_and, hm, Bool.and_true, BitVec.getLsbD_zero] using hk

/-- With bits 0 and 1 alone defined, FLAGS is what those two make. -/
theorem flagBits_of_bits01 {f : Byte} (h : f &&& 0xFC#8 = 0#8) : flagBits (f.getLsbD 0) (f.getLsbD 1) false = f := by
  have hmask : (0xF8#8 : Byte) = 0xFC#8 &&& 0xF8#8 := by decide
  have hhigh : f &&& 0xF8#8 = 0#8 := by rw [hmask, ← BitVec.and_assoc, h, BitVec.zero_and]
  have hf := flagBits_of_byte f hhigh
  rwa [bit_of_masked h (k := 2) (by decide)] at hf

/-- With bit 0 alone defined, FLAGS is what that bit makes. -/
theorem flagBits_of_bit0 {f : Byte} (h : f &&& 0xFE#8 = 0#8) : flagBits (f.getLsbD 0) false false = f := by
  have hmask : (0xFC#8 : Byte) = 0xFE#8 &&& 0xFC#8 := by decide
  have hhigh : f &&& 0xFC#8 = 0#8 := by rw [hmask, ← BitVec.and_assoc, h, BitVec.zero_and]
  have hf := flagBits_of_bits01 hhigh
  rwa [bit_of_masked h (k := 1) (by decide)] at hf

theorem streamBit_streamOf (f : Byte) : streamBit (streamOf f) = f.getLsbD 0 := by
  rw [streamOf]
  cases f.getLsbD 0 <;> rfl

/-- The stream that a defined bit 0 selects is written back to that bit (R117). -/
theorem flagBits_streamOf {f : Byte} (h : f &&& 0xFE#8 = 0#8) : flagBits (streamBit (streamOf f)) false false = f := by
  rw [streamBit_streamOf, flagBits_of_bit0 h]

/-! Operand words with room to spare (R112) -/

theorem window_word_toNat (win : U16) : (win.setWidth 32).toNat < 65536 := by
  have := win.isLt
  rw [BitVec.toNat_setWidth]
  omega

theorem window_of_word (win : U16) : (win.setWidth 32).extractLsb' 0 16 = win := by
  have := win.isLt
  apply BitVec.eq_of_toNat_eq
  simp only [BitVec.extractLsb'_toNat, BitVec.toNat_setWidth, Nat.shiftRight_zero]
  omega

theorem word_of_window {w : U32} (h : w.toNat < 65536) : (w.extractLsb' 0 16).setWidth 32 = w := by
  apply BitVec.eq_of_toNat_eq
  simp only [BitVec.extractLsb'_toNat, BitVec.toNat_setWidth, Nat.shiftRight_zero]
  omega

theorem prefixLen_word_toNat (len : Fin 33) : (BitVec.ofNat 32 len.val).toNat = len.val := by
  have := len.isLt
  rw [BitVec.toNat_ofNat]
  omega

theorem optWord_absent (a : Option U32) : a.isSome = false → optWord a = 0#32 := by
  cases a <;> simp [optWord]

theorem option_of_optWord (a : Option U32) : (if a.isSome then some (optWord a) else none) = a := by
  cases a <;> rfl

theorem word_of_prefixLen (w : U32) : BitVec.ofNat 32 w.toNat = w := by
  rw [BitVec.ofNat_toNat, BitVec.setWidth_eq]

/-- The presence bit of an operand is written back as it was read. -/
theorem flagBits_optOperand {f : Byte} {w : U32} (h : f &&& 0xFE#8 = 0#8) :
    flagBits (if f.getLsbD 0 then some w else none : Option U32).isSome false false = f := by
  have hbit : (if f.getLsbD 0 then some w else none : Option U32).isSome = f.getLsbD 0 := by
    cases f.getLsbD 0 <;> rfl
  rw [hbit, flagBits_of_bit0 h]

theorem optWord_operand {b : Bool} {w : U32} (h : b = false → w = 0#32) : optWord (if b then some w else none) = w := by
  cases b
  · exact (h rfl).symm
  · rfl

theorem length_eq_four {α : Type} {l : List α} (h : l.length = 4) : ∃ a b c d, l = [a, b, c, d] := by
  match l, h with
  | [a, b, c, d], _ => exact ⟨a, b, c, d, rfl⟩

/-! Assembling the commands with a checked operand (R112, R114) -/

/-- The checks of TX.RECEIVE, in their order. -/
theorem assemble_txReceive (nIf : Nat) (f : Byte) (ws : List U32) (p : List Byte) :
    assemble nIf .txReceive f ws p =
      optOperand (f.getLsbD 0) (ws.getD 0 0#32) fun a =>
        windowOperand (ws.getD 1 0#32) fun win => .txReceive a win := rfl

/-- The checks of RT.ADD_ROUTE, in their order. -/
theorem assemble_rtAddRoute (nIf : Nat) (f : Byte) (ws : List U32) (p : List Byte) :
    assemble nIf .rtAddRoute f ws p =
      prefixLenOperand (ws.getD 1 0#32) fun len =>
        optOperand (f.getLsbD 0) (ws.getD 2 0#32) fun hop =>
          ifaceOperand nIf (ws.getD 3 0#32) fun k => .rtAddRoute (ws.getD 0 0#32) len hop k := rfl

theorem assemble_niSendDgram_ok {nIf : Nat} {f : Byte} {ws : List U32} {p : List Byte} {i : Instr} :
    assemble nIf .niSendDgram f ws p = .ok i ↔
      (ws.getD 0 0#32).toNat < nIf ∧ .niSendDgram (ws.getD 0 0#32) (ws.getD 1 0#32) p = i :=
  ifaceOperand_ok (k := fun k => .niSendDgram k (ws.getD 1 0#32) p)

theorem assemble_niRecvFrame_ok {nIf : Nat} {f : Byte} {ws : List U32} {p : List Byte} {i : Instr} :
    assemble nIf .niRecvFrame f ws p = .ok i ↔
      (ws.getD 0 0#32).toNat < nIf ∧ .niRecvFrame (ws.getD 0 0#32) p (f.getLsbD 0) = i :=
  ifaceOperand_ok (k := fun k => .niRecvFrame k p (f.getLsbD 0))

theorem assemble_niTick_ok {nIf : Nat} {f : Byte} {ws : List U32} {p : List Byte} {i : Instr} :
    assemble nIf .niTick f ws p = .ok i ↔
      (ws.getD 0 0#32).toNat < nIf ∧ .niTick (ws.getD 0 0#32) (pair64 (ws.getD 1 0#32) (ws.getD 2 0#32)) = i :=
  ifaceOperand_ok (k := fun k => .niTick k (pair64 (ws.getD 1 0#32) (ws.getD 2 0#32)))

theorem assemble_niMaybeSend_ok {nIf : Nat} {f : Byte} {ws : List U32} {p : List Byte} {i : Instr} :
    assemble nIf .niMaybeSend f ws p = .ok i ↔ (ws.getD 0 0#32).toNat < nIf ∧ .niMaybeSend (ws.getD 0 0#32) = i :=
  ifaceOperand_ok (k := Instr.niMaybeSend)

theorem assemble_txReceive_ok {nIf : Nat} {f : Byte} {ws : List U32} {p : List Byte} {i : Instr} :
    assemble nIf .txReceive f ws p = .ok i ↔
      (f.getLsbD 0 = false → ws.getD 0 0#32 = 0#32) ∧ (ws.getD 1 0#32).toNat < 65536 ∧
        .txReceive (if f.getLsbD 0 then some (ws.getD 0 0#32) else none) ((ws.getD 1 0#32).extractLsb' 0 16) = i := by
  rw [assemble_txReceive, optOperand_ok, windowOperand_ok]

theorem assemble_rtAddRoute_ok {nIf : Nat} {f : Byte} {ws : List U32} {p : List Byte} {i : Instr} :
    assemble nIf .rtAddRoute f ws p = .ok i ↔
      ∃ h : (ws.getD 1 0#32).toNat < 33, (f.getLsbD 0 = false → ws.getD 2 0#32 = 0#32) ∧
        (ws.getD 3 0#32).toNat < nIf ∧
        .rtAddRoute (ws.getD 0 0#32) ⟨(ws.getD 1 0#32).toNat, h⟩
          (if f.getLsbD 0 then some (ws.getD 2 0#32) else none) (ws.getD 3 0#32) = i := by
  simp only [assemble_rtAddRoute, prefixLenOperand_ok, optOperand_ok, ifaceOperand_ok]

/-! From the command to its descriptor -/

/-- Bit 0 of FLAGS is the presence bit of `ackno` (R112). -/
theorem flags_txReceive_bit0 (a : Option U32) (win : U16) : (Instr.txReceive a win).flags.getLsbD 0 = a.isSome :=
  flagBits_bit0 _ _ _

/-- Bit 0 of FLAGS is the presence bit of `next_hop` (R112). -/
theorem flags_rtAddRoute_bit0 (pfx : U32) (len : Fin 33) (hop : Option U32) (k : U32) :
    (Instr.rtAddRoute pfx len hop k).flags.getLsbD 0 = hop.isSome :=
  flagBits_bit0 _ _ _

/-- The parts of a well-formed command's descriptor assemble to the command. -/
theorem assemble_parts {nIf : Nat} {i : Instr} (hiface : ∀ k, i.iface = some k → k.toNat < nIf) :
    assemble nIf i.op i.flags i.operandWords i.payload = .ok i := by
  cases i
  case w32Wrap n zero => exact congrArg (fun n => Except.ok (Instr.w32Wrap n zero)) (pair64_words64 n)
  case w32Unwrap raw zero n => exact congrArg (fun n => Except.ok (Instr.w32Unwrap raw zero n)) (pair64_words64 n)
  case bsPop n => exact congrArg (fun n => Except.ok (Instr.bsPop n)) (pair64_words64 n)
  case txTick n => exact congrArg (fun n => Except.ok (Instr.txTick n)) (pair64_words64 n)
  case bsSetError sel | bsAvail sel | bsPushed sel | bsPopped sel | bsBuffered sel | bsIsClosed sel | bsIsFinished sel
      | bsHasError sel =>
    cases sel <;> rfl
  case raInsert first d isLast =>
    exact congrArg Except.ok (congrArg₂ (fun n => Instr.raInsert n d) (pair64_words64 first) (flagBits_bit0 _ _ _))
  case rxReceive q d syn fin =>
    exact congrArg Except.ok (congrArg₂ (Instr.rxReceive q d) (flagBits_bit0 _ _ _) (flagBits_bit1 _ _ _))
  case niSendDgram k _ _ => exact assemble_niSendDgram_ok.2 ⟨hiface k rfl, rfl⟩
  case niMaybeSend k => exact assemble_niMaybeSend_ok.2 ⟨hiface k rfl, rfl⟩
  case niRecvFrame k d q =>
    exact assemble_niRecvFrame_ok.2 ⟨hiface k rfl, congrArg (Instr.niRecvFrame k d) (flagBits_bit0 _ _ _)⟩
  case niTick k delta =>
    exact assemble_niTick_ok.2 ⟨hiface k rfl, congrArg (Instr.niTick k) (pair64_words64 delta)⟩
  case txReceive a win =>
    refine assemble_txReceive_ok.2 ?_
    rw [flags_txReceive_bit0]
    exact ⟨optWord_absent a, window_word_toNat win,
      congrArg₂ Instr.txReceive (option_of_optWord a) (window_of_word win)⟩
  case rtAddRoute pfx len hop k =>
    have hlen := prefixLen_word_toNat len
    refine assemble_rtAddRoute_ok.2 ?_
    rw [flags_rtAddRoute_bit0]
    exact ⟨hlen.trans_lt len.isLt, optWord_absent hop, hiface k rfl,
      congrArg₂ (fun l h => Instr.rtAddRoute pfx l h k) (Fin.ext hlen) (option_of_optWord hop)⟩
  all_goals rfl

/-- The header's LEN field counts any payload of a well-formed command (R111, R113). -/
theorem len_field_toNat {n : Nat} (h : n < 65536) : (BitVec.ofNat 16 n).toNat = n :=
  Nat.mod_eq_of_lt h

/-- A descriptor byte by byte: UNIT and FUNC, FLAGS, LEN, and what follows (R110, R111). -/
theorem encode_eq (i : Instr) :
    encode i =
      i.op.code :: i.flags :: (BitVec.ofNat 16 i.payload.length).extractLsb' 8 8 ::
        (BitVec.ofNat 16 i.payload.length).extractLsb' 0 8 :: (bytesOfWords i.operandWords ++ i.payload) := by
  rw [encode, Instr.header, bytes32_header, List.append_assoc]
  rfl

/-- Settles O10: the header selects the command's row, the length is right, and the parts assemble to the command. -/
theorem decodeEncode : Obligations.DecodeEncode := by
  intro nIf i hwf
  obtain ⟨hlen, hiface⟩ := (wellFormed_iff nIf i).1 hwf
  have hword := word16_bytes (BitVec.ofNat 16 i.payload.length)
  have hsel := header_selects_row i
  rw [Instr.header, ← hword, ← word32_eq_header] at hsel
  have hK := bytesOfWords_length i.operandWords
  rw [operandWords_length] at hK
  rw [encode_eq, decode_of_selects nIf _ _ _ _ _ i.op hsel, if_pos, ← operandWords_length, wordsOf_bytesOfWords,
    operandWords_length, ← hK, List.drop_left]
  · exact assemble_parts hiface
  · rw [hword, len_field_toNat hlen, List.length_append, hK]

/-! From the descriptor to its command -/

/-- `f`, `ws` and `p` are the FLAGS, the operand words and the payload of the command `i` of row `o`, and its interface, if it
names one, exists: what a descriptor spells (R110, R118). -/
structure Spells (nIf : Nat) (o : Op) (f : Byte) (ws : List U32) (p : List Byte) (i : Instr) : Prop where
  op : i.op = o
  flags : i.flags = f
  words : i.operandWords = ws
  payload : i.payload = p
  iface : ∀ k, i.iface = some k → k.toNat < nIf

/-- A command without an interface operand asks nothing of `N_IF`. -/
theorem iface_of_none {nIf : Nat} {i : Instr} (h : i.iface = none) (k : U32) (hk : i.iface = some k) : k.toNat < nIf := by
  rw [h] at hk
  cases hk

theorem iface_of_some {nIf : Nat} {i : Instr} {w : U32} (h : i.iface = some w) (hw : w.toNat < nIf) (k : U32)
    (hk : i.iface = some k) : k.toNat < nIf := by
  rw [h] at hk
  cases hk
  exact hw

/-- Parts that pass the row's mask and have the row's number of words, and no payload where the row has none, are the parts of
the command they assemble to. -/
theorem spells_of_assemble {nIf : Nat} {o : Op} {f : Byte} {ws : List U32} {p : List Byte} {i : Instr}
    (hf : f &&& o.row.mask.extractLsb' 16 8 = o.row.word.extractLsb' 16 8) (hw : ws.length = o.row.operandWords)
    (hp : o.row.hasPayload = false → p = []) (h : assemble nIf o f ws p = .ok i) : Spells nIf o f ws p i := by
  cases o
  case sysReset | bsClose | bsPeek | raPending | rxSend | txPush | txMaybeSend | txSendEmpty | txInFlight | txRetx
      | rtRoute =>
    cases h
    exact ⟨rfl, (flags_of_fixed hf).symm, (List.eq_nil_of_length_eq_zero hw).symm, (hp rfl).symm, iface_of_none rfl⟩
  case bsPush =>
    cases h
    exact ⟨rfl, (flags_of_fixed hf).symm, (List.eq_nil_of_length_eq_zero hw).symm, rfl, iface_of_none rfl⟩
  case bsSetError | bsAvail | bsPushed | bsPopped | bsBuffered | bsIsClosed | bsIsFinished | bsHasError =>
    cases h
    exact ⟨rfl, flagBits_streamOf hf, (List.eq_nil_of_length_eq_zero hw).symm, (hp rfl).symm, iface_of_none rfl⟩
  case w32Add =>
    obtain ⟨a, b, rfl⟩ := List.length_eq_two.1 hw
    cases h
    exact ⟨rfl, (flags_of_fixed hf).symm, rfl, (hp rfl).symm, iface_of_none rfl⟩
  case bsPop | txTick =>
    obtain ⟨a, b, rfl⟩ := List.length_eq_two.1 hw
    cases h
    exact ⟨rfl, (flags_of_fixed hf).symm, words64_pair64 a b, (hp rfl).symm, iface_of_none rfl⟩
  case w32Wrap =>
    obtain ⟨a, b, c, rfl⟩ := List.length_eq_three.1 hw
    cases h
    exact ⟨rfl, (flags_of_fixed hf).symm, congrArg (· ++ [c]) (words64_pair64 a b), (hp rfl).symm, iface_of_none rfl⟩
  case w32Unwrap =>
    obtain ⟨a, b, c, d, rfl⟩ := length_eq_four hw
    cases h
    exact ⟨rfl, (flags_of_fixed hf).symm, congrArg (a :: b :: ·) (words64_pair64 c d), (hp rfl).symm, iface_of_none rfl⟩
  case raInsert =>
    obtain ⟨a, b, rfl⟩ := List.length_eq_two.1 hw
    cases h
    exact ⟨rfl, flagBits_of_bit0 hf, words64_pair64 a b, rfl, iface_of_none rfl⟩
  case rxReceive =>
    obtain ⟨a, rfl⟩ := List.length_eq_one_iff.1 hw
    cases h
    exact ⟨rfl, flagBits_of_bits01 hf, rfl, rfl, iface_of_none rfl⟩
  case txReceive =>
    obtain ⟨a, b, rfl⟩ := List.length_eq_two.1 hw
    obtain ⟨hack, hwin, rfl⟩ := assemble_txReceive_ok.1 h
    exact ⟨rfl, flagBits_optOperand hf, congrArg₂ (fun x y => [x, y]) (optWord_operand hack) (word_of_window hwin),
      (hp rfl).symm, iface_of_none rfl⟩
  case niSendDgram =>
    obtain ⟨a, b, rfl⟩ := List.length_eq_two.1 hw
    obtain ⟨hif, rfl⟩ := assemble_niSendDgram_ok.1 h
    exact ⟨rfl, (flags_of_fixed hf).symm, rfl, rfl, iface_of_some rfl hif⟩
  case niRecvFrame =>
    obtain ⟨a, rfl⟩ := List.length_eq_one_iff.1 hw
    obtain ⟨hif, rfl⟩ := assemble_niRecvFrame_ok.1 h
    exact ⟨rfl, flagBits_of_bit0 hf, rfl, rfl, iface_of_some rfl hif⟩
  case niTick =>
    obtain ⟨a, b, c, rfl⟩ := List.length_eq_three.1 hw
    obtain ⟨hif, rfl⟩ := assemble_niTick_ok.1 h
    exact ⟨rfl, (flags_of_fixed hf).symm, congrArg (a :: ·) (words64_pair64 b c), (hp rfl).symm, iface_of_some rfl hif⟩
  case niMaybeSend =>
    obtain ⟨a, rfl⟩ := List.length_eq_one_iff.1 hw
    obtain ⟨hif, rfl⟩ := assemble_niMaybeSend_ok.1 h
    exact ⟨rfl, (flags_of_fixed hf).symm, rfl, (hp rfl).symm, iface_of_some rfl hif⟩
  case rtAddRoute =>
    obtain ⟨a, b, c, d, rfl⟩ := length_eq_four hw
    obtain ⟨hlen, hhop, hif, rfl⟩ := assemble_rtAddRoute_ok.1 h
    exact ⟨rfl, flagBits_optOperand hf,
      congrArg₂ (fun l h => [a, l, h, d]) (word_of_prefixLen b) (optWord_operand hhop), (hp rfl).symm,
      iface_of_some rfl hif⟩

/-- A command whose parts a descriptor spells has that descriptor. -/
theorem encode_of_spells {nIf : Nat} {o : Op} {f b2 b3 : Byte} {ws : List U32} {p : List Byte} {i : Instr}
    (h : Spells nIf o f ws p i) (hlen : p.length = (word16 b2 b3).toNat) :
    encode i = o.code :: f :: b2 :: b3 :: (bytesOfWords ws ++ p) := by
  have hword : BitVec.ofNat 16 p.length = word16 b2 b3 := by
    rw [hlen, BitVec.ofNat_toNat, BitVec.setWidth_eq]
  rw [encode_eq, h.op, h.flags, h.words, h.payload, hword, word16_hi, word16_lo]

/-- Settles O11: what decodes selects a row and assembles, so its parts are those of the command, which encodes to them. -/
theorem encodeDecode : Obligations.EncodeDecode := by
  intro nIf d i h
  obtain ⟨b0, b1, b2, b3, rest, o, rfl, hsel, hlen, hasm⟩ := decode_ok h
  obtain ⟨hcode, hflags, hnoLen⟩ := fields_of_selects hsel
  have hpayload : (rest.drop (4 * o.row.operandWords)).length = (word16 b2 b3).toNat := by
    rw [List.length_drop, hlen, Nat.add_sub_cancel_left]
  have hnone : o.row.hasPayload = false → rest.drop (4 * o.row.operandWords) = [] := by
    intro hp
    rw [hnoLen hp] at hpayload
    exact List.eq_nil_of_length_eq_zero hpayload
  have hspells := spells_of_assemble hflags (wordsOf_length _ rest (by omega)) hnone hasm
  refine ⟨(wellFormed_iff nIf i).2 ⟨?_, hspells.iface⟩, ?_⟩
  · rw [hspells.payload, hpayload]
    exact (word16 b2 b3).isLt
  · rw [encode_of_spells hspells hpayload, bytesOfWords_wordsOf _ rest (by omega), hcode]

/-! Exactly the well-formed descriptors (R114) -/

/-- A row assembles exactly when its operand words are what R112 and R114 ask. -/
theorem assembles_iff (nIf : Nat) (o : Op) (f : Byte) (ws : List U32) (p : List Byte) :
    (∃ i, assemble nIf o f ws p = .ok i) ↔ OperandsOk nIf o f (fun k => ws.getD k 0#32) := by
  cases o
  case txReceive =>
    constructor
    · rintro ⟨i, h⟩
      obtain ⟨hack, hwin, -⟩ := assemble_txReceive_ok.1 h
      exact ⟨hwin, hack⟩
    · rintro ⟨hwin, hack⟩
      exact ⟨_, assemble_txReceive_ok.2 ⟨hack, hwin, rfl⟩⟩
  case rtAddRoute =>
    constructor
    · rintro ⟨i, h⟩
      obtain ⟨hlen, hhop, hif, -⟩ := assemble_rtAddRoute_ok.1 h
      exact ⟨Nat.le_of_lt_succ hlen, hhop, hif⟩
    · rintro ⟨hlen, hhop, hif⟩
      exact ⟨_, assemble_rtAddRoute_ok.2 ⟨Nat.lt_succ_of_le hlen, hhop, hif, rfl⟩⟩
  case niSendDgram =>
    exact ⟨fun ⟨_, h⟩ => (assemble_niSendDgram_ok.1 h).1, fun h => ⟨_, assemble_niSendDgram_ok.2 ⟨h, rfl⟩⟩⟩
  case niRecvFrame =>
    exact ⟨fun ⟨_, h⟩ => (assemble_niRecvFrame_ok.1 h).1, fun h => ⟨_, assemble_niRecvFrame_ok.2 ⟨h, rfl⟩⟩⟩
  case niTick => exact ⟨fun ⟨_, h⟩ => (assemble_niTick_ok.1 h).1, fun h => ⟨_, assemble_niTick_ok.2 ⟨h, rfl⟩⟩⟩
  case niMaybeSend =>
    exact ⟨fun ⟨_, h⟩ => (assemble_niMaybeSend_ok.1 h).1, fun h => ⟨_, assemble_niMaybeSend_ok.2 ⟨h, rfl⟩⟩⟩
  all_goals exact ⟨fun _ => trivial, fun _ => ⟨_, rfl⟩⟩

/-- Settles O12: a header that selects a row decodes exactly when the length is the row's and the operand words are right. -/
theorem decodesExactlyWellFormed : Obligations.DecodesExactlyWellFormed := by
  intro nIf d
  constructor
  · rintro ⟨b0, b1, b2, b3, rest, o, rfl, hsel, hlen, hops⟩
    obtain ⟨i, hi⟩ := (assembles_iff nIf o b1 _ (rest.drop (4 * o.row.operandWords))).2 hops
    refine ⟨i, ?_⟩
    simp only [List.length_cons] at hlen
    rw [decode_of_selects nIf b0 b1 b2 b3 rest o hsel, if_pos (by omega), hi]
  · rintro ⟨i, hi⟩
    obtain ⟨b0, b1, b2, b3, rest, o, rfl, hsel, hlen, hasm⟩ := decode_ok hi
    refine ⟨b0, b1, b2, b3, rest, o, rfl, hsel, ?_, (assembles_iff _ _ _ _ _).1 ⟨i, hasm⟩⟩
    simp only [List.length_cons]
    omega

end Sys2Proof.Proofs
end

section
/-! SUPPORT. The encoding family, refusals of the decoder (spec/30_encoding.md R112, R114, R118, R119): which check a descriptor
that spells no command fails first. -/

namespace Sys2Proof.Proofs

open Sys2Proof.Machine Sys2Proof.Safety Sys2Proof.Laws

/-! UNIT and FUNC -/

/-- How many functions each unit defines (R118). -/
theorem code_defined (o : Op) :
    o.code.toNat < 0x80 ∧ o.code.toNat % 16 < [1, 3, 12, 2, 2, 7, 4, 2].getD (o.code.toNat / 16) 0 := by
  cases o <;> decide

theorem ofCode_eq_none {c : Byte} (h : ∀ o : Op, c ≠ o.code) : Op.ofCode c = none := by
  cases hc : Op.ofCode c with
  | none => rfl
  | some o => exact absurd (code_of_ofCode hc).symm (h o)

theorem header_top (b0 b1 b2 b3 : Byte) : (word32 b0 b1 b2 b3).extractLsb' 24 8 = b0 := by
  rw [word32_eq_header, header_code]

/-- UNIT is the upper half of the first byte (R111). -/
theorem headerUnit_toNat (b0 b1 b2 b3 : Byte) : (headerUnit (word32 b0 b1 b2 b3)).toNat = b0.toNat / 16 := by
  have htop := congrArg BitVec.toNat (header_top b0 b1 b2 b3)
  have hlt := (word32 b0 b1 b2 b3).isLt
  simp only [headerUnit, BitVec.extractLsb'_toNat, Nat.shiftRight_eq_div_pow] at htop ⊢
  omega

/-- A first byte that is no row's code is refused for its UNIT or for its FUNC. -/
theorem decode_of_reserved (nIf : Nat) {b0 : Byte} (b1 b2 b3 : Byte) (rest : List Byte) (h : ∀ o : Op, b0 ≠ o.code) :
    decode nIf (b0 :: b1 :: b2 :: b3 :: rest) = .error (if 0x80 ≤ b0.toNat then .reservedUnit else .reservedFunc) := by
  apply decode_of_selects_none
  have hunit : 8 ≤ (headerUnit (word32 b0 b1 b2 b3)).toNat ↔ 0x80 ≤ b0.toNat := by
    rw [headerUnit_toNat]
    omega
  simp only [selectRow, header_top, ofCode_eq_none h, reservedCode, hunit]

/-! FLAGS and LEN -/

/-- A byte written behind a word, in numbers. -/
theorem append_byte_toNat {n : Nat} (w : BitVec n) (b : Byte) : (w ++ b).toNat = w.toNat * 256 + b.toNat := by
  rw [BitVec.toNat_append, ← Nat.shiftLeft_add_eq_or_of_lt b.isLt, Nat.shiftLeft_eq]

/-- The two bytes of LEN, in numbers (R111). -/
theorem word16_toNat (a b : Byte) : (word16 a b).toNat = a.toNat * 256 + b.toNat :=
  append_byte_toNat a b

/-- The commands that exist for one stream only fix S; every other row leaves exactly its defined bits free (R117, R118). -/
theorem row_flags {o : Op} (h : o ∉ [Op.bsPush, .bsClose, .bsPeek, .bsPop]) :
    o.row.mask.extractLsb' 16 8 = ~~~ definedFlags o ∧ o.row.word.extractLsb' 16 8 = 0#8 := by
  revert h
  cases o <;> decide

theorem streamRight_obs {o : Op} (h : o ∈ [Op.bsPush, .bsClose]) (f : Byte) : StreamRight o f ↔ f.getLsbD 0 = true := by
  have hne : o ∉ [Op.bsPeek, .bsPop] := by
    revert h
    cases o <;> decide
  exact ⟨fun hs => hs.1 h, fun hb => ⟨fun _ => hb, fun h' => absurd h' hne⟩⟩

theorem streamRight_ibs {o : Op} (h : o ∈ [Op.bsPeek, .bsPop]) (f : Byte) : StreamRight o f ↔ f.getLsbD 0 = false := by
  have hne : o ∉ [Op.bsPush, .bsClose] := by
    revert h
    cases o <;> decide
  exact ⟨fun hs => hs.2 h, fun hb => ⟨fun h' => absurd h' hne, fun _ => hb⟩⟩

theorem streamRight_any {o : Op} (h : o ∉ [Op.bsPush, .bsClose, .bsPeek, .bsPop]) (f : Byte) : StreamRight o f := by
  simp only [List.mem_cons, List.not_mem_nil, or_false, not_or] at h
  obtain ⟨hpush, hclose, hpeek, hpop⟩ := h
  exact ⟨fun h' => by simp_all, fun h' => by simp_all⟩

/-- Where the row fixes S, FLAGS pass when bit 0 is that S and no other bit is set. -/
theorem flags_fixed_iff (b : Bool) (f : Byte) :
    f &&& 0xFF#8 = flagBits b false false ↔ f.getLsbD 0 = b ∧ f &&& 0xFE#8 = 0#8 := by
  constructor
  · intro h
    rw [flags_of_fixed h]
    cases b <;> decide
  · rintro ⟨rfl, hu⟩
    rw [flagBits_of_bit0 hu]
    exact BitVec.and_allOnes

theorem flags_pass_iff_of_any {o : Op} (h : o ∉ [Op.bsPush, .bsClose, .bsPeek, .bsPop]) (f : Byte) :
    f &&& o.row.mask.extractLsb' 16 8 = o.row.word.extractLsb' 16 8 ↔
      StreamRight o f ∧ f &&& ~~~ definedFlags o = 0#8 := by
  obtain ⟨hm, hw⟩ := row_flags h
  rw [hm, hw, and_iff_right (streamRight_any h f)]

/-- FLAGS pass the row's mask exactly when they name a stream the command exists for and set no undefined bit. -/
theorem flags_pass_iff (o : Op) (f : Byte) :
    f &&& o.row.mask.extractLsb' 16 8 = o.row.word.extractLsb' 16 8 ↔
      StreamRight o f ∧ f &&& ~~~ definedFlags o = 0#8 := by
  cases o
  case bsPush | bsClose =>
    rw [streamRight_obs (by decide)]
    exact flags_fixed_iff true f
  case bsPeek | bsPop =>
    rw [streamRight_ibs (by decide)]
    exact flags_fixed_iff false f
  all_goals exact flags_pass_iff_of_any (by decide) f

/-- The commands with a payload are the five of R118. -/
theorem hasPayload_iff (o : Op) :
    o.row.hasPayload = true ↔ o ∈ [Op.bsPush, .raInsert, .rxReceive, .niSendDgram, .niRecvFrame] := by
  cases o <;> decide

/-- A header selects the row of its UNIT and FUNC exactly when its FLAGS and LEN are right. -/
theorem selects_iff_headerRight (o : Op) (f b2 b3 : Byte) :
    word32 o.code f b2 b3 &&& o.row.mask = o.row.word ↔ HeaderRight o f (b2.toNat * 256 + b3.toNat) := by
  have hzero : word16 b2 b3 = 0#16 ↔ b2.toNat * 256 + b3.toNat = 0 := by
    rw [← word16_toNat, ← BitVec.toNat_inj]
    rfl
  have hnone : o.row.hasPayload = false ↔ o ∉ [Op.bsPush, .raInsert, .rxReceive, .niSendDgram, .niRecvFrame] := by
    rw [← hasPayload_iff, Bool.not_eq_true]
  constructor
  · intro h
    obtain ⟨-, hf, hl⟩ := fields_of_selects h
    obtain ⟨hs, hu⟩ := (flags_pass_iff o f).1 hf
    exact ⟨hs, hu, fun ho => hzero.1 (hl (hnone.2 ho))⟩
  · rintro ⟨hs, hu, hl⟩
    rw [word32_eq_header]
    exact header_selects o f _ ((flags_pass_iff o f).2 ⟨hs, hu⟩) fun hp => hzero.2 (hl (hnone.1 hp))

/-- A header that names a row and does not select it is refused for its mismatch. -/
theorem decode_of_mismatch (nIf : Nat) {o : Op} {f b2 b3 : Byte} (rest : List Byte)
    (h : ¬ HeaderRight o f (b2.toNat * 256 + b3.toNat)) :
    decode nIf (o.code :: f :: b2 :: b3 :: rest) = .error (mismatch o (word32 o.code f b2 b3)) := by
  apply decode_of_selects_none
  have hsel := mt (selects_iff_headerRight o f b2 b3).1 h
  simp only [selectRow, header_top, ofCode_code, if_neg hsel]

/-- Two words differ nowhere under a mask exactly when they are equal under it. -/
theorem xor_and_eq_zero_iff (f w m : Byte) : (f ^^^ w) &&& m = 0#8 ↔ f &&& m = w &&& m := by
  have hdistrib : (f ^^^ w) &&& m = (f &&& m) ^^^ (w &&& m) := by
    ext i
    simp only [BitVec.getElem_and, BitVec.getElem_xor, Bool.and_xor_distrib_right]
  rw [hdistrib, BitVec.xor_eq_zero_iff]

/-- The decoder's test of FLAGS against the row. -/
theorem flags_agree_iff (o : Op) (f : Byte) :
    (f ^^^ o.row.word.extractLsb' 16 8) &&& o.row.mask.extractLsb' 16 8 = 0#8 ↔
      StreamRight o f ∧ f &&& ~~~ definedFlags o = 0#8 := by
  have hw : o.row.word.extractLsb' 16 8 &&& o.row.mask.extractLsb' 16 8 = o.row.word.extractLsb' 16 8 := by
    cases o <;> decide
  rw [← flags_pass_iff, xor_and_eq_zero_iff, hw]

/-- What is wrong with FLAGS that are not right: first the stream, then an undefined bit. -/
theorem mismatch_wrongStream {o : Op} {h : U32} (hs : ¬ StreamRight o (headerFlags h)) : mismatch o h = .wrongStream := by
  have hne := mt (fun heq => ((flags_agree_iff o (headerFlags h)).1 heq).1) hs
  cases o
  case bsPush | bsClose =>
    rw [streamRight_obs (by decide)] at hs
    exact (if_neg hne).trans (if_neg hs)
  case bsPeek | bsPop =>
    rw [streamRight_ibs (by decide), Bool.not_eq_false] at hs
    exact (if_neg hne).trans (if_pos hs)
  all_goals exact absurd (streamRight_any (by decide) _) hs

theorem mismatch_reservedFlags {o : Op} {h : U32} (hs : StreamRight o (headerFlags h))
    (hu : headerFlags h &&& ~~~ definedFlags o ≠ 0#8) : mismatch o h = .reservedFlags := by
  have hne := mt (fun heq => ((flags_agree_iff o (headerFlags h)).1 heq).2) hu
  cases o
  case bsPush | bsClose =>
    rw [streamRight_obs (by decide)] at hs
    exact (if_neg hne).trans (if_pos hs)
  case bsPeek | bsPop =>
    rw [streamRight_ibs (by decide), ← Bool.not_eq_true] at hs
    exact (if_neg hne).trans (if_neg hs)
  all_goals exact if_neg hne

theorem mismatch_nonzeroLen {o : Op} {h : U32} (hs : StreamRight o (headerFlags h))
    (hu : headerFlags h &&& ~~~ definedFlags o = 0#8) : mismatch o h = .nonzeroLen :=
  if_pos ((flags_agree_iff o (headerFlags h)).2 ⟨hs, hu⟩)

/-! Operand words -/

theorem ifaceOperand_refused {nIf : Nat} {w : U32} {k : U32 → Instr} (h : nIf ≤ w.toNat) :
    ifaceOperand nIf w k = .error .noSuchInterface :=
  if_neg (Nat.not_lt.2 h)

theorem windowOperand_refused {w : U32} {k : U16 → Instr} (h : 65536 ≤ w.toNat) :
    windowOperand w k = .error .windowHighBits :=
  if_neg fun hz => Nat.not_lt.2 h (windowOperand_ok.1 (if_pos hz : windowOperand w k = .ok _)).1

theorem prefixLenOperand_refused {w : U32} {k : Fin 33 → Except IllFormed Instr} (h : 32 < w.toNat) :
    prefixLenOperand w k = .error .prefixLenRange :=
  dif_neg (Nat.not_lt.2 h)

theorem prefixLenOperand_passes {w : U32} {k : Fin 33 → Except IllFormed Instr} (h : w.toNat ≤ 32) :
    prefixLenOperand w k = k ⟨w.toNat, Nat.lt_succ_of_le h⟩ :=
  dif_pos (Nat.lt_succ_of_le h)

theorem optOperand_refused {present : Bool} {w : U32} {k : Option U32 → Except IllFormed Instr}
    (hp : present = false) (hw : w ≠ 0#32) : optOperand present w k = .error .absentOperand := by
  subst hp
  exact if_neg hw

theorem optOperand_passes {present : Bool} {w : U32} {k : Option U32 → Except IllFormed Instr}
    (h : present = false → w = 0#32) : optOperand present w k = k (if present then some w else none) := by
  cases present
  · exact if_pos (h rfl)
  · rfl

/-- A right header of the right length leaves only the operand words to check. -/
theorem decode_of_headerRight (nIf : Nat) {o : Op} {f b2 b3 : Byte} {rest : List Byte}
    (h : HeaderRight o f (b2.toNat * 256 + b3.toNat))
    (hlen : rest.length = 4 * o.row.operandWords + (b2.toNat * 256 + b3.toNat)) :
    decode nIf (o.code :: f :: b2 :: b3 :: rest) =
      assemble nIf o f (wordsOf o.row.operandWords rest) (rest.drop (4 * o.row.operandWords)) := by
  rw [decode_of_selects nIf _ _ _ _ _ o ((selects_iff_headerRight o f b2 b3).2 h), word16_toNat, if_pos hlen]

theorem decode_of_wrongLength (nIf : Nat) {o : Op} {f b2 b3 : Byte} {rest : List Byte}
    (h : HeaderRight o f (b2.toNat * 256 + b3.toNat))
    (hlen : rest.length ≠ 4 * o.row.operandWords + (b2.toNat * 256 + b3.toNat)) :
    decode nIf (o.code :: f :: b2 :: b3 :: rest) = .error .wrongLength := by
  rw [decode_of_selects nIf _ _ _ _ _ o ((selects_iff_headerRight o f b2 b3).2 h), word16_toNat, if_neg hlen]

theorem decode_truncated (nIf : Nat) {d : List Byte} (h : d.length < 4) : decode nIf d = .error .truncatedHeader := by
  match d, h with
  | [], _ | [_], _ | [_, _], _ | [_, _, _], _ => rfl
  | _ :: _ :: _ :: _ :: _, h => simp only [List.length_cons] at h; omega

/-- What is refused of the operand words of TX.RECEIVE: an absent ackno that is not 0, then the window. -/
theorem assemble_txReceive_refused (nIf : Nat) (f : Byte) (ws : List U32) (p : List Byte) :
    (f.getLsbD 0 = false → ws.getD 0 0#32 ≠ 0#32 → assemble nIf .txReceive f ws p = .error .absentOperand) ∧
      ((f.getLsbD 0 = false → ws.getD 0 0#32 = 0#32) → 65536 ≤ (ws.getD 1 0#32).toNat →
        assemble nIf .txReceive f ws p = .error .windowHighBits) := by
  rw [assemble_txReceive]
  refine ⟨fun hp hw => optOperand_refused hp hw, fun hack hwin => ?_⟩
  rw [optOperand_passes hack, windowOperand_refused hwin]

/-- What is refused of the operand words of RT.ADD_ROUTE: the length, an absent next hop that is not 0, the interface. -/
theorem assemble_rtAddRoute_refused (nIf : Nat) (f : Byte) (ws : List U32) (p : List Byte) :
    (32 < (ws.getD 1 0#32).toNat → assemble nIf .rtAddRoute f ws p = .error .prefixLenRange) ∧
      ((ws.getD 1 0#32).toNat ≤ 32 → f.getLsbD 0 = false → ws.getD 2 0#32 ≠ 0#32 →
        assemble nIf .rtAddRoute f ws p = .error .absentOperand) ∧
      ((ws.getD 1 0#32).toNat ≤ 32 → (f.getLsbD 0 = false → ws.getD 2 0#32 = 0#32) → nIf ≤ (ws.getD 3 0#32).toNat →
        assemble nIf .rtAddRoute f ws p = .error .noSuchInterface) := by
  rw [assemble_rtAddRoute]
  refine ⟨fun hlen => prefixLenOperand_refused hlen, fun hlen hp hw => ?_, fun hlen hhop hif => ?_⟩
  · rw [prefixLenOperand_passes hlen, optOperand_refused hp hw]
  · rw [prefixLenOperand_passes hlen, optOperand_passes hhop, ifaceOperand_refused hif]

theorem assemble_iface_refused {nIf : Nat} {o : Op} (f : Byte) {ws : List U32} (p : List Byte)
    (ho : o ∈ [Op.niSendDgram, .niRecvFrame, .niTick, .niMaybeSend]) (h : nIf ≤ (ws.getD 0 0#32).toNat) :
    assemble nIf o f ws p = .error .noSuchInterface := by
  simp only [List.mem_cons, List.not_mem_nil, or_false] at ho
  rcases ho with rfl | rfl | rfl | rfl <;> exact if_neg (Nat.not_lt.2 h)

/-- Settles O13: UNIT and FUNC are looked up first, then FLAGS and LEN are held against the row, then the length, then the
operand words. -/
theorem reservedRefusedByName : Obligations.ReservedRefusedByName := by
  intro nIf b0 b1 b2 b3 rest
  refine ⟨fun d hd => decode_truncated nIf hd, fun hunit => ?_, fun hunit hfunc => ?_, ?_⟩
  · have hne : ∀ o : Op, b0 ≠ o.code := by
      rintro o rfl
      exact Nat.not_lt.2 hunit (code_defined o).1
    exact (decode_of_reserved nIf b1 b2 b3 rest hne).trans (by rw [if_pos hunit])
  · have hne : ∀ o : Op, b0 ≠ o.code := by
      rintro o rfl
      exact Nat.not_lt.2 hfunc (code_defined o).2
    exact (decode_of_reserved nIf b1 b2 b3 rest hne).trans (by rw [if_neg (Nat.not_le.2 hunit)])
  rintro o rfl
  have hflags : headerFlags (word32 o.code b1 b2 b3) = b1 := by rw [word32_eq_header, headerFlags_header]
  refine ⟨fun hs => ?_, fun hs hu => ?_, fun hs hu ho hl => ?_, fun hr hl => decode_of_wrongLength nIf hr hl, fun hr hl => ?_⟩
  · exact (decode_of_mismatch nIf rest (fun h => hs h.1)).trans
      (congrArg _ (mismatch_wrongStream (by rwa [hflags])))
  · exact (decode_of_mismatch nIf rest (fun h => hu h.2.1)).trans
      (congrArg _ (mismatch_reservedFlags (by rwa [hflags]) (by rwa [hflags])))
  · exact (decode_of_mismatch nIf rest (fun h => hl (h.2.2 ho))).trans
      (congrArg _ (mismatch_nonzeroLen (by rwa [hflags]) (by rwa [hflags])))
  · have hdec := decode_of_headerRight nIf hr hl
    refine ⟨?_, ?_, ?_, ?_, ?_, fun ho hif => hdec.trans (assemble_iface_refused b1 _ ho hif)⟩
    · rintro rfl hp hw
      exact hdec.trans ((assemble_txReceive_refused _ _ _ _).1 hp hw)
    · rintro rfl hack hwin
      exact hdec.trans ((assemble_txReceive_refused _ _ _ _).2 hack hwin)
    · rintro rfl hlen
      exact hdec.trans ((assemble_rtAddRoute_refused _ _ _ _).1 hlen)
    · rintro rfl hlen hp hw
      exact hdec.trans ((assemble_rtAddRoute_refused _ _ _ _).2.1 hlen hp hw)
    · rintro rfl hlen hhop hif
      exact hdec.trans ((assemble_rtAddRoute_refused _ _ _ _).2.2 hlen hhop hif)

end Sys2Proof.Proofs
end

section
/-! SUPPORT. The encoding family, what leaves the block (spec/30_encoding.md R115, R116, R122, R125): the form of a response,
the frame layout, and descriptors written out byte by byte. -/

namespace Sys2Proof.Proofs

open Sys2Proof.Machine Sys2Proof.Safety Sys2Proof.Laws

/-! Responses -/

/-- A response has its command's form: only defined RFLAGS bits, and `J` result words (R116). -/
structure HasForm (r : Response) (o : Op) : Prop where
  flags : r.flags &&& ~~~ resultFlags o = 0#8
  words : r.words.length = resultWords o

theorem rflagBool_defined (b : Bool) : rflagBool b &&& ~~~ 1#8 = 0#8 := by
  cases b <;> decide

theorem rflagSegment_defined (syn fin : Bool) : rflagSegment syn fin &&& ~~~ 7#8 = 0#8 := by
  cases syn <;> cases fin <;> decide

theorem segment_hasForm {o : Op} (hf : resultFlags o = 7#8) (hw : resultWords o = 1) (g : Option Segment) :
    HasForm (Response.segment o g) o := by
  cases g with
  | none => exact ⟨BitVec.zero_and, hw.symm⟩
  | some g => exact ⟨hf ▸ rflagSegment_defined g.syn g.fin, hw.symm⟩

theorem optBytes_hasForm {o : Op} (hf : resultFlags o = 1#8) (hw : resultWords o = 0) (p : Option (List Byte)) :
    HasForm (Response.optBytes o p) o := by
  cases p with
  | none => exact ⟨BitVec.zero_and, hw.symm⟩
  | some p => exact ⟨hf ▸ rflagBool_defined true, hw.symm⟩

theorem unflagged_hasForm {r : Response} {o : Op} (hf : r.flags = 0#8) (hw : r.words.length = resultWords o) :
    HasForm r o :=
  ⟨by rw [hf]; exact BitVec.zero_and, hw⟩

/-- NI.RECV_FRAME and NI.MAYBE_SEND answer VALID and at most a payload. -/
theorem reply_niRecvFrame (k : U32) (f : List Byte) (q : Bool) (s : State) :
    ∃ p, reply (.niRecvFrame k f q) s = Response.optBytes .niRecvFrame p := by
  cases h : s.ni[k.toNat]? with
  | none => exact ⟨none, by simp only [reply, h]; rfl⟩
  | some n => exact ⟨_, by simp only [reply, h]; rfl⟩

theorem reply_niMaybeSend (k : U32) (s : State) :
    ∃ p, reply (.niMaybeSend k) s = Response.optBytes .niMaybeSend p := by
  cases h : s.ni[k.toNat]? with
  | none => exact ⟨none, by simp only [reply, h]; rfl⟩
  | some n => exact ⟨_, by simp only [reply, h]; rfl⟩

/-- Every command's reply has the command's form, in every state. -/
theorem reply_hasForm (i : Instr) (s : State) : HasForm (reply i s) i.op := by
  cases i
  case bsIsClosed | bsIsFinished | bsHasError | rxSend => exact ⟨rflagBool_defined _, rfl⟩
  case txMaybeSend => exact segment_hasForm (o := .txMaybeSend) rfl rfl _
  case txSendEmpty => exact segment_hasForm (o := .txSendEmpty) rfl rfl (some (emptySegment s.tx))
  case niRecvFrame k f q =>
    obtain ⟨p, hp⟩ := reply_niRecvFrame k f q s
    rw [hp]
    exact optBytes_hasForm (o := .niRecvFrame) rfl rfl p
  case niMaybeSend k =>
    obtain ⟨p, hp⟩ := reply_niMaybeSend k s
    rw [hp]
    exact optBytes_hasForm (o := .niMaybeSend) rfl rfl p
  all_goals exact unflagged_hasForm rfl rfl

/-- RLEN counts a payload that 16 bits can count (R115). -/
theorem rlen_toNat {r : Response} (h : r.payload.length < 65536) (draws : Nat) : (r.rlen draws).toNat = r.payload.length := by
  rw [Response.rlen, if_pos h]
  exact Nat.mod_eq_of_lt h

/-- SYS.RESET keeps the list of responses, and no other command's effect writes it. -/
theorem effect_resps {i : Instr} {s : State} (h : stops i s = none) : (effect i s).resps = s.resps := by
  cases i
  case bsSetError sel => exact setStream_resps _ _ _
  case raInsert f d l =>
    rw [effect_raInsert_frame]
    rfl
  case rxReceive q d syn fin =>
    rw [effect_rxReceive_frame]
    rfl
  case txPush =>
    rw [effect_txPush_frame]
    rfl
  case niSendDgram | niRecvFrame | niTick | niMaybeSend =>
    rw [effect_iface_frame (by simp [Instr.op]) h, setNi_resps]
  all_goals rfl

/-- Settles O15: a command that completes has its effect, which gives no response, and then gives its reply. -/
theorem oneResponsePerCommand : Obligations.OneResponsePerCommand := by
  intro i s t h
  obtain ⟨hstop, rfl⟩ := exec_next h
  obtain ⟨hflags, hwords⟩ := reply_hasForm i s
  refine ⟨(reply i s).flags, (reply i s).rlen (effect i s).draws, (reply i s).words, (reply i s).payload, ?_, hflags, hwords,
    fun hlen => rlen_toNat hlen _⟩
  rw [respond_resps, effect_resps hstop, response_bytes, reply_op]

/-! Frames -/

/-- The bytes of a word and a byte behind it: the word's bytes, then that byte. -/
theorem extract_front {n : Nat} (w : BitVec n) (b : Byte) (k : Nat) :
    (w ++ b).extractLsb' (k + 8) 8 = w.extractLsb' k 8 :=
  BitVec.extractLsb'_append_eq_of_le (Nat.le_add_left 8 k)

theorem extract_last {n : Nat} (w : BitVec n) (b : Byte) : (w ++ b).extractLsb' 0 8 = b :=
  BitVec.extractLsb'_append_eq_right

theorem bytes48_word48 (a b c d e f : Byte) : bytes48 (word48 a b c d e f) = [a, b, c, d, e, f] := by
  simp only [bytes48, word48, extract_last, extract_front _ _ 0, extract_front _ _ 8, extract_front _ _ 16,
    extract_front _ _ 24, extract_front _ _ 32, BitVec.extractLsb'_eq_self]

/-- A piece of a word and the byte below it, put together again. -/
theorem extract_join {m : Nat} (w : BitVec m) (k n : Nat) :
    w.extractLsb' (k + 8) n ++ w.extractLsb' k 8 = w.extractLsb' k (n + 8) :=
  BitVec.extractLsb'_append_extractLsb'_eq_extractLsb' rfl

theorem word48_bytes (e : EthAddr) :
    word48 (e.extractLsb' 40 8) (e.extractLsb' 32 8) (e.extractLsb' 24 8) (e.extractLsb' 16 8) (e.extractLsb' 8 8)
      (e.extractLsb' 0 8) = e := by
  simp only [word48, extract_join e 32 8, extract_join e 24 16, extract_join e 16 24, extract_join e 8 32,
    extract_join e 0 40, BitVec.extractLsb'_eq_self]

theorem bytes16_word16 (a b : Byte) : bytes16 (word16 a b) = [a, b] := by
  rw [bytes16, word16_hi, word16_lo]

/-- Fourteen bytes make a header, and what follows is the payload (R125). -/
theorem parseFrame_cons (d0 d1 d2 d3 d4 d5 s0 s1 s2 s3 s4 s5 t0 t1 : Byte) (payload : List Byte) :
    parseFrame (d0 :: d1 :: d2 :: d3 :: d4 :: d5 :: s0 :: s1 :: s2 :: s3 :: s4 :: s5 :: t0 :: t1 :: payload) =
      some ⟨word48 d0 d1 d2 d3 d4 d5, word48 s0 s1 s2 s3 s4 s5, word16 t0 t1, payload⟩ := rfl

theorem parseFrame_serializeFrame (f : Frame) : parseFrame (serializeFrame f) = some f := by
  refine (parseFrame_cons _ _ _ _ _ _ _ _ _ _ _ _ _ _ f.payload).trans ?_
  rw [word48_bytes, word48_bytes, word16_bytes]

/-- What parses has a header's fourteen bytes, and they are those of the frame. -/
theorem serializeFrame_of_parseFrame {x : List Byte} {f : Frame} (h : parseFrame x = some f) : serializeFrame f = x := by
  unfold parseFrame at h
  split at h
  · cases h
    rw [serializeFrame, bytes48_word48, bytes48_word48, bytes16_word16]
    rfl
  · cases h

theorem serializeFrame_length (f : Frame) : (serializeFrame f).length = 14 + f.payload.length := by
  rw [serializeFrame, List.length_append]
  rfl

/-- Fourteen bytes or more parse (R125). -/
theorem parseFrame_isSome {x : List Byte} (h : 14 ≤ x.length) : ∃ f, parseFrame x = some f := by
  rcases x with _ | ⟨d0, _ | ⟨d1, _ | ⟨d2, _ | ⟨d3, _ | ⟨d4, _ | ⟨d5, _ | ⟨s0, _ | ⟨s1, _ | ⟨s2, _ | ⟨s3, _ | ⟨s4, _ |
    ⟨s5, _ | ⟨t0, _ | ⟨t1, payload⟩⟩⟩⟩⟩⟩⟩⟩⟩⟩⟩⟩⟩⟩
  case cons => exact ⟨_, parseFrame_cons d0 d1 d2 d3 d4 d5 s0 s1 s2 s3 s4 s5 t0 t1 payload⟩
  all_goals
    simp only [List.length_cons, List.length_nil] at h
    omega

theorem parseFrame_eq_none_iff (x : List Byte) : parseFrame x = none ↔ x.length < 14 := by
  constructor
  · intro h
    by_contra hlen
    obtain ⟨f, hf⟩ := parseFrame_isSome (Nat.not_lt.1 hlen)
    rw [h] at hf
    cases hf
  · intro hlen
    cases h : parseFrame x with
    | none => rfl
    | some f =>
      have hx := congrArg List.length (serializeFrame_of_parseFrame h)
      rw [serializeFrame_length] at hx
      omega

/-- Settles O52: the two functions invert each other on frames and on byte strings that hold a header. -/
theorem frameRoundTrip : Obligations.FrameRoundTrip :=
  ⟨parseFrame_serializeFrame, fun _ _ h => serializeFrame_of_parseFrame h, parseFrame_eq_none_iff⟩

/-! Descriptors written out -/

/-- Settles O14: the decoder computes each of the five. -/
theorem writtenOutDescriptorsDecode : Obligations.WrittenOutDescriptorsDecode := by
  unfold Obligations.WrittenOutDescriptorsDecode
  decide

end Sys2Proof.Proofs
end

section
/-! SUPPORT. The encoding family, a fragment in two inserts (spec/30_encoding.md R113, spec/42_reassembler.md R191): what an insert
leaves on an open stream is fixed by what the store reads as after step 4, and step 4 of the second insert goes on where the
first one stopped. -/

namespace Sys2Proof.Proofs

open Sys2Proof.Machine Sys2Proof.Safety Sys2Proof.Laws

/-! What an insert leaves on an open stream -/

/-- What index `i` reads as once a fragment has been stored: a filled slot keeps its byte, an unfilled one inside the window
takes the fragment's (R191 steps 3 and 4). -/
def filled (s : State) (f : Nat) (d : List Byte) (i : Nat) : Option Byte :=
  (Memory.read s.ra.store i).or (if f ≤ i ∧ s.windowStart ≤ i ∧ i < s.windowEnd then d[i - f]? else none)

theorem raKeep_read_filled (s : State) (f : Nat) (d : List Byte) (i : Nat) :
    Memory.read (raKeep s f d).ra.store i = filled s f d i := by
  rw [raKeep_read, filled]
  cases Memory.read s.ra.store i <;> rfl

theorem raMark_windowStart (s : State) (f : Nat) (d : List Byte) (l : Bool) :
    (raMark s f d l).windowStart = s.windowStart := by
  rw [State.windowStart, State.windowStart, raMark_ibs]

theorem raMark_windowEnd (s : State) (f : Nat) (d : List Byte) (l : Bool) :
    (raMark s f d l).windowEnd = s.windowEnd := by
  rw [State.windowEnd, State.windowEnd, raMark_ibs]

/-- The terminator enters neither the store nor the window. -/
theorem filled_raMark (s : State) (f : Nat) (d : List Byte) (l : Bool) (f' : Nat) (d' : List Byte) :
    filled (raMark s f d l) f' d' = filled s f' d' := by
  funext i
  rw [filled, filled, raMark_store, raMark_windowStart, raMark_windowEnd]

/-- `run` is the longest run of filled slots from `u` on, and `store` holds the rest (R191 step 5). -/
structure Flushed (fill : Nat → Option Byte) (u : Nat) (run : List Byte) (store : Memory) : Prop where
  run_get : ∀ j, j < run.length → run[j]? = fill (u + j)
  stop : fill (u + run.length) = none
  wf : Memory.wf store = true
  read : ∀ i, Memory.read store i = if u ≤ i ∧ i < u + run.length then none else fill i

/-- A run and what it leaves are determined by what the store read as. -/
theorem Flushed.unique {fill : Nat → Option Byte} {u : Nat} {run run' : List Byte} {store store' : Memory}
    (h : Flushed fill u run store) (h' : Flushed fill u run' store') : run = run' ∧ store = store' := by
  have hle : ∀ {r r' : List Byte} {m m' : Memory}, Flushed fill u r m → Flushed fill u r' m' → r.length ≤ r'.length := by
    intro r r' m m' hr hr'
    by_contra hlt
    have hget := hr.run_get r'.length (Nat.not_le.1 hlt)
    rw [hr'.stop, List.getElem?_eq_getElem (Nat.not_le.1 hlt)] at hget
    cases hget
  have hlen : run.length = run'.length := Nat.le_antisymm (hle h h') (hle h' h)
  constructor
  · apply List.ext_getElem? 
    intro j
    by_cases hj : j < run.length
    · rw [h.run_get j hj, h'.run_get j (hlen ▸ hj)]
    · rw [List.getElem?_eq_none (Nat.not_lt.1 hj), List.getElem?_eq_none (hlen ▸ Nat.not_lt.1 hj)]
  · apply memory_ext h.wf h'.wf
    intro i
    rw [h.read, h'.read, hlen]

/-- What RaInsert leaves on an open stream: the run is appended to IBS, the store keeps the rest, and the close condition is
evaluated (R191, R192). -/
structure Inserted (s : State) (f : Nat) (d : List Byte) (l : Bool) (run : List Byte) (store : Memory) (t : State) :
    Prop where
  flushed : Flushed (filled s f d) s.windowStart run store
  ibs : t.ibs =
    { s.ibs with
      buffer := s.ibs.buffer ++ run
      pushed := s.ibs.pushed + run.length
      closed := (s.ra.lastSeen || l) && store.length == 0 &&
        s.ibs.pushed + run.length == if l then f + d.length else s.ra.lastIndex }
  ra : t.ra =
    { store := store
      pending := store.length
      lastSeen := s.ra.lastSeen || l
      lastIndex := if l then f + d.length else s.ra.lastIndex }

theorem reassembler_eq {r : Reassembler} {pending lastIndex : Nat} {lastSeen : Bool} (hp : r.pending = pending)
    (hs : r.lastSeen = lastSeen) (hi : r.lastIndex = lastIndex) :
    r = { store := r.store, pending := pending, lastSeen := lastSeen, lastIndex := lastIndex } := by
  subst hp hs hi
  rfl

theorem raInsert_inserted {s : State} (h : StoreOk s) (hclosed : s.ibs.closed = false) (herror : s.ibs.error = false)
    (f : Nat) (d : List Byte) (l : Bool) :
    ∃ run store, Inserted s f d l run store (raInsert s f d l) := by
  have hM := storeOk_raMark h f d l
  have hwf := raKeep_wf hM.1 f d
  have hacc := accepts_flushRun hM f d
  have hpending := raFlush_pending hwf (raKeep_pending hM.1 hM.2.1 f d)
  have hstart : (raKeep (raMark s f d l) f d).windowStart = s.windowStart := raMark_windowStart s f d l
  have hfill : ∀ i, Memory.read (raKeep (raMark s f d l) f d).ra.store i = filled s f d i := by
    intro i
    rw [raKeep_read_filled, filled_raMark]
  rw [raInsert_steps h]
  set s2 := raKeep (raMark s f d l) f d with hs2
  have hibs : s2.ibs = s.ibs := by rw [hs2, raKeep_ibs, raMark_ibs]
  rw [raMark_ibs, hclosed, herror] at hacc
  have hpush : s.ibs.push (flushRun s2) =
      { s.ibs with buffer := s.ibs.buffer ++ flushRun s2, pushed := s.ibs.pushed + (flushRun s2).length } := by
    rw [ByteStream.push, hacc, Bool.or_false, if_neg Bool.false_ne_true, List.take_length]
  refine ⟨flushRun s2, (raFlush s2).ra.store, ⟨?_, ?_, raFlush_wf hwf, ?_⟩, ?_, ?_⟩
  · intro j hj
    rw [← flushRun_read _ j hj, hfill, hstart]
  · rw [← hfill, ← hstart]
    exact flushRun_maximal _
  · intro i
    rw [raFlush_read hwf, hstart, hfill]
  · rw [raCloseCheck_eq, setIbs_ibs, raFlush_ibs, hibs, hpush, hpending, raFlush_lastSeen, raFlush_lastIndex, hs2,
      raKeep_lastSeen, raKeep_lastIndex, raMark_lastSeen, raMark_lastIndex, hclosed, Bool.false_or]
  · rw [raCloseCheck_eq, setIbs_ra]
    refine reassembler_eq hpending ?_ ?_
    · rw [raFlush_lastSeen, hs2, raKeep_lastSeen, raMark_lastSeen]
    · rw [raFlush_lastIndex, hs2, raKeep_lastIndex, raMark_lastIndex]

/-! Two adjacent inserts -/

/-- The store after step 4 of the second insert, from where the first run ended, is the one after step 4 of the single insert. -/
theorem filled_second {s t : State} {f : Nat} {a b run : List Byte} {store : Memory}
    (h : Flushed (filled s f a) s.windowStart run store) (hstore : t.ra.store = store)
    (hstart : t.windowStart = s.windowStart + run.length) (hend : t.windowEnd = s.windowEnd) (i : Nat) :
    filled t (f + a.length) b i =
      if s.windowStart ≤ i ∧ i < s.windowStart + run.length then none else filled s f (a ++ b) i := by
  have hread := h.read i
  rw [filled, hstore, hstart, hend, hread]
  by_cases hin : s.windowStart ≤ i ∧ i < s.windowStart + run.length
  · rw [if_pos hin, if_pos hin, if_neg (by omega), Option.or_none]
  · rw [if_neg hin, if_neg hin, filled, filled]
    cases Memory.read s.ra.store i with
    | some c => rfl
    | none =>
      simp only [Option.none_or]
      by_cases hw : f ≤ i ∧ s.windowStart ≤ i ∧ i < s.windowEnd
      · rw [if_pos hw, if_pos hw]
        by_cases ha : i - f < a.length
        · rw [List.getElem?_append_left ha, List.getElem?_eq_getElem ha]
          rfl
        · rw [List.getElem?_append_right (Nat.not_lt.1 ha), List.getElem?_eq_none (Nat.not_lt.1 ha), Option.none_or,
            if_pos (by omega), Nat.sub_sub]
      · rw [if_neg hw, if_neg hw, if_neg (by omega)]
        rfl

/-- What the first insert flushes is what the single insert reads there. -/
theorem filled_first {s : State} {f : Nat} {a : List Byte} (b : List Byte) {i : Nat} {c : Byte}
    (h : filled s f a i = some c) : filled s f (a ++ b) i = some c := by
  rw [filled] at h ⊢
  cases hm : Memory.read s.ra.store i with
  | some c' => rwa [hm] at h
  | none =>
    rw [hm] at h
    rw [Option.none_or] at h ⊢
    split at h
    · rename_i hw
      rw [if_pos hw]
      rw [List.getElem?_append_left (List.getElem?_eq_some_iff.1 h).1, h]
    · cases h

/-- The two runs, one after the other, are the run of the single insert. -/
theorem flushed_append {s t : State} {f : Nat} {a b run run' : List Byte} {store store' : Memory}
    (h : Flushed (filled s f a) s.windowStart run store)
    (h' : Flushed (filled t (f + a.length) b) t.windowStart run' store') (hstore : t.ra.store = store)
    (hstart : t.windowStart = s.windowStart + run.length) (hend : t.windowEnd = s.windowEnd) :
    Flushed (filled s f (a ++ b)) s.windowStart (run ++ run') store' := by
  have hsecond := filled_second (b := b) h hstore hstart hend
  have hbeyond : ∀ j, filled t (f + a.length) b (t.windowStart + j) =
      filled s f (a ++ b) (s.windowStart + run.length + j) := by
    intro j
    rw [hsecond, hstart, if_neg (by omega)]
  refine ⟨?_, ?_, h'.wf, ?_⟩
  · intro j hj
    by_cases hjr : j < run.length
    · have hget := h.run_get j hjr
      rw [List.getElem?_eq_getElem hjr] at hget
      rw [List.getElem?_append_left hjr, List.getElem?_eq_getElem hjr]
      exact (filled_first b hget.symm).symm
    · rw [List.length_append] at hj
      rw [List.getElem?_append_right (Nat.not_lt.1 hjr), h'.run_get _ (by omega), hbeyond]
      congr 1
      omega
  · rw [List.length_append, ← Nat.add_assoc, ← hbeyond]
    exact h'.stop
  · intro i
    rw [h'.read, hsecond, hstart, List.length_append]
    by_cases h1 : s.windowStart ≤ i ∧ i < s.windowStart + run.length
    · rw [if_pos h1, if_pos (by omega : s.windowStart ≤ i ∧ i < s.windowStart + (run.length + run'.length)), ite_self]
    · rw [if_neg h1]
      exact if_congr (by omega) rfl rfl

/-- On an open stream whose terminator is not known yet, an insert and one that goes on where it ends leave what the two fragments
in one insert leave. -/
theorem inserted_append {s t1 t2 t : State} {f : Nat} {a b run1 run2 run : List Byte} {store1 store2 store : Memory}
    {l : Bool} (hseen : s.ra.lastSeen = false) (hs : StreamOk s.ibs) (ht1 : StreamOk t1.ibs)
    (h1 : Inserted s f a false run1 store1 t1) (h2 : Inserted t1 (f + a.length) b l run2 store2 t2)
    (h : Inserted s f (a ++ b) l run store t) : t2.ibs = t.ibs ∧ t2.ra = t.ra := by
  have hstart : t1.windowStart = s.windowStart + run1.length := by
    rw [State.windowStart, h1.ibs]
    rfl
  have hend : t1.windowEnd = s.windowEnd := by
    rw [windowEnd_eq ht1, windowEnd_eq hs, h1.ibs]
  have hstore : t1.ra.store = store1 := by rw [h1.ra]
  have hjoin := flushed_append h1.flushed h2.flushed hstore hstart hend
  obtain ⟨rfl, rfl⟩ := hjoin.unique h.flushed
  rw [h2.ibs, h2.ra, h.ibs, h.ra, h1.ibs, h1.ra, hseen]
  simp only [Bool.false_or, Bool.false_eq_true, if_false, List.append_assoc, List.length_append, Nat.add_assoc, and_self]

/-- Settles O29: the runs join, what is left in the store is the same, and the terminator stands at the same index. -/
theorem raInsertSplits : Obligations.RaInsertSplits := by
  intro s t1 t2 t first a b isLast hok hroom hfit hclosed herror hseen he1 he2 he
  obtain ⟨hstop, rfl⟩ := exec_next he1
  obtain ⟨-, rfl⟩ := exec_next he2
  obtain ⟨-, rfl⟩ := exec_next he
  have hsecond : (first + BitVec.ofNat 64 a.length).toNat = first.toNat + a.length := by
    simp only [BitVec.toNat_add, BitVec.toNat_ofNat]
    omega
  set t1 := (effect (.raInsert first a false) s).respond (reply (.raInsert first a false) s)
  have hok1 : InboundOk t1 := inboundOk_effect hok hstop
  obtain ⟨run1, store1, h1⟩ := raInsert_inserted hok.2 hclosed herror first.toNat a false
  replace h1 : Inserted s first.toNat a false run1 store1 t1 := ⟨h1.flushed, h1.ibs, h1.ra⟩
  have hopen : t1.ibs.closed = false := by
    rw [h1.ibs, hseen]
    rfl
  have hsound : t1.ibs.error = false := by rw [h1.ibs, herror]
  obtain ⟨run2, store2, h2⟩ := raInsert_inserted hok1.2 hopen hsound (first.toNat + a.length) b isLast
  obtain ⟨run, store, h⟩ := raInsert_inserted hok.2 hclosed herror first.toNat (a ++ b) isLast
  have hsplit := inserted_append hseen hok.1 hok1.1 h1 h2 h
  rw [← hsecond] at hsplit
  exact hsplit

end Sys2Proof.Proofs
end

section
/-! SUPPORT. The encoding family, what stops a command (spec/30_encoding.md R119, spec/20_memory.md R81, spec/40_wrap32.md R157,
spec/92_eei_decisions.md D11). -/

namespace Sys2Proof.Proofs

open Sys2Proof.Machine Sys2Proof.Safety Sys2Proof.Laws

/-! The two reasons -/

theorem exec_refused_iff {i : Instr} {s : State} {r : Refusal} : exec i s = .refused r ↔ stops i s = some r := by
  rw [exec_eq]
  cases stops i s <;> simp

theorem of_stops_unless {c : Prop} [Decidable c] {a r : Refusal} (h : (if c then none else some a) = some r) :
    ¬ c ∧ r = a := by
  by_cases hc : c
  · rw [if_pos hc] at h
    cases h
  · rw [if_neg hc] at h
    cases h
    exact ⟨hc, rfl⟩

theorem of_stops_if {c : Prop} [Decidable c] {a r : Refusal} (h : (if c then some a else none) = some r) : r = a := by
  by_cases hc : c
  · rw [if_pos hc] at h
    cases h
    rfl
  · rw [if_neg hc] at h
    cases h

/-- What stops a command: an interface that does not exist, or one of the four commands that count meets 2^64. -/
theorem stops_cases {i : Instr} {s : State} {r : Refusal} (h : stops i s = some r) :
    (r = .noSuchInterface ∧ ∃ k : U32, i.iface = some k ∧ s.ni.length ≤ k.toNat) ∨
      (r = .counterOverflow ∧ i.op ∈ [Op.bsPush, .raInsert, .rxReceive, .txPush]) := by
  cases i
  case bsPush d => exact .inr ⟨(of_stops_unless h).2, by simp [Instr.op]⟩
  case raInsert f d l => exact .inr ⟨of_stops_if h, by simp [Instr.op]⟩
  case rxReceive q d syn fin =>
    cases hx : rxIndex (rxMark s q syn) q syn with
    | none =>
      simp only [stops, hx] at h
      cases h
    | some idx =>
      simp only [stops, hx] at h
      exact .inr ⟨of_stops_if h, by simp [Instr.op]⟩
  case txPush => exact .inr ⟨(of_stops_unless h).2, by decide⟩
  case niSendDgram k _ _ | niRecvFrame k _ _ | niTick k _ | niMaybeSend k | rtAddRoute _ _ _ k =>
    obtain ⟨hk, hr⟩ := of_stops_unless h
    exact .inl ⟨hr, k, rfl, Nat.not_lt.1 hk⟩
  all_goals cases h

theorem stops_noSuchInterface {i : Instr} {s : State} {k : U32} (hi : i.iface = some k) (hk : s.ni.length ≤ k.toNat) :
    stops i s = some .noSuchInterface := by
  cases i
  case niSendDgram | niRecvFrame | niTick | niMaybeSend | rtAddRoute =>
    cases hi
    exact if_neg (Nat.not_lt.2 hk)
  all_goals cases hi

/-! RA.INSERT -/

theorem stops_raInsert {s : State} {first : U64} {d : List Byte} {l : Bool}
    (h : raOverflows s first.toNat d l = true) : stops (.raInsert first d l) s = some .counterOverflow :=
  if_pos h

/-- A byte would be stored at index 2^64 or above. -/
theorem raOverflows_of_stored {s : State} {f : Nat} {d : List Byte} (l : Bool)
    (hkept : max f s.windowStart < min (f + d.length) s.windowEnd) (hbeyond : 2 ^ 64 < min (f + d.length) s.windowEnd) :
    raOverflows s f d l = true := by
  rw [raOverflows, decide_eq_true hkept, decide_eq_true (show two64 < _ from hbeyond)]
  rfl

/-- The run that the insert flushes would bring `bytes_pushed` to 2^64: no slot below it stays unfilled. -/
theorem raOverflows_of_filled {s : State} {f : Nat} {d : List Byte} (l : Bool) (h : InboundOk s)
    (hclosed : s.ibs.closed = false) (herror : s.ibs.error = false)
    (hfull : ∀ k, s.windowStart ≤ k → k < 2 ^ 64 → (filled s f d k).isSome = true) : raOverflows s f d l = true := by
  obtain ⟨run, store, hins⟩ := raInsert_inserted h.2 hclosed herror f d l
  have hreach : 2 ^ 64 ≤ s.windowStart + run.length := by
    by_contra hlt
    have hsome := hfull _ (Nat.le_add_right _ run.length) (Nat.not_le.1 hlt)
    rw [hins.flushed.stop] at hsome
    cases hsome
  have hpushed : two64 ≤ (raInsert s f d l).ibs.pushed := by
    rw [hins.ibs]
    exact hreach
  rw [raOverflows, decide_eq_true hpushed, Bool.or_true]

/-- Inside the window a slot is filled by the store or by the fragment. -/
theorem filled_isSome {s : State} {f k : Nat} {d : List Byte} (hlow : s.windowStart ≤ k) (hhigh : k < s.windowEnd)
    (h : (∃ b, Memory.read s.ra.store k = some b) ∨ f ≤ k ∧ k < f + d.length) : (filled s f d k).isSome = true := by
  rw [filled, Option.isSome_or, Bool.or_eq_true]
  rcases h with ⟨b, hb⟩ | ⟨hf, hd⟩
  · rw [hb]
    exact .inl rfl
  · rw [if_pos ⟨hf, hlow, hhigh⟩, List.getElem?_eq_getElem (by omega)]
    exact .inr rfl

/-! TX.PUSH -/

theorem stops_txPush_iff (s : State) :
    stops .txPush s = some .counterOverflow ↔
      2 ^ 64 ≤ s.tx.cursor + (if s.tx.finSent then 0 else min (effWindow s.tx) (unitsDue s)) := by
  rw [← txPushState_cursor]
  constructor
  · intro h
    exact Nat.not_lt.1 (of_stops_unless h).1
  · intro h
    exact if_neg (Nat.not_lt.2 h)

/-- Settles O58: `stops` names every refusal, RA.INSERT overflows by what it stores or by what it flushes, TX.PUSH by how far the
cursor moves, and there is no fault to answer. -/
theorem refusalsByName : Obligations.RefusalsByName := by
  refine ⟨fun s i r h => stops_cases (exec_refused_iff.1 h),
    fun s i k hi hk => exec_refused_iff.2 (stops_noSuchInterface hi hk),
    fun s first d l hkept hbeyond => exec_refused_iff.2 (stops_raInsert (raOverflows_of_stored l hkept hbeyond)),
    fun s first d l hok hclosed herror hend hfull => ?_,
    fun s => exec_refused_iff.trans (stops_txPush_iff s), fun s f => nomatch f⟩
  refine exec_refused_iff.2 (stops_raInsert (raOverflows_of_filled l hok hclosed herror fun k hlow hhigh => ?_))
  exact filled_isSome hlow (hend ▸ hhigh) (hfull k hlow hhigh)

end Sys2Proof.Proofs
end

section
/-! SUPPORT. The Wrap32 family (spec/40_wrap32.md R150 to R156): what the three W32 commands answer, and which of the congruent
numbers `unwrap` picks. -/

namespace Sys2Proof.Proofs

open Sys2Proof.Machine Sys2Proof.Safety Sys2Proof.Laws

/-! What the commands answer -/

theorem exec_w32Add (raw k : U32) (s : State) :
    exec (.w32Add raw k) s = .next (answered s ([0x10#8, 0#8, 0#8, 0#8] ++ bytes32 (add32 raw k.toNat))) :=
  (exec_of_not_stops rfl).trans (congrArg Host.Outcome.next (respond_word s .w32Add _))

theorem exec_w32Wrap (n : U64) (zero : U32) (s : State) :
    exec (.w32Wrap n zero) s = .next (answered s ([0x11#8, 0#8, 0#8, 0#8] ++ bytes32 (wrap n.toNat zero))) :=
  (exec_of_not_stops rfl).trans (congrArg Host.Outcome.next (respond_word s .w32Wrap _))

theorem exec_w32Unwrap (raw zero : U32) (checkpoint : U64) (s : State) :
    exec (.w32Unwrap raw zero checkpoint) s =
      .next (answered s ([0x12#8, 0#8, 0#8, 0#8] ++
        bytes32 ((BitVec.ofNat 64 (unwrap raw zero checkpoint.toNat)).extractLsb' 32 32) ++
        bytes32 ((BitVec.ofNat 64 (unwrap raw zero checkpoint.toNat)).extractLsb' 0 32))) :=
  (exec_of_not_stops rfl).trans (congrArg Host.Outcome.next (respond_nat64 s .w32Unwrap _))

/-- R150 in numbers. -/
theorem add32_eq_ofNat (a : U32) (k : Nat) : add32 a k = BitVec.ofNat 32 ((a.toNat + k) % 2 ^ 32) := by
  apply BitVec.eq_of_toNat_eq
  rw [BitVec.toNat_ofNat, Nat.mod_mod]
  exact add32_toNat a k

/-- Settles O16: the answer is `add32`, the sum modulo 2^32. -/
theorem w32AddResult : Obligations.W32AddResult := by
  intro raw k s
  rw [exec_w32Add, add32_eq_ofNat]

/-- Settles O17: `wrap` is `add32` of the ISN. -/
theorem w32WrapResult : Obligations.W32WrapResult := by
  intro n zero s
  rw [exec_w32Wrap, wrap, add32_eq_ofNat]

/-! Congruent numbers and distances -/

/-- Two numbers congruent modulo 2^32 are the same or at least 2^32 apart. -/
theorem eq_or_apart_of_congruent {u v : Nat} (h : u % two32 = v % two32) : u = v ∨ u + two32 ≤ v ∨ v + two32 ≤ u := by
  simp only [two32] at *
  omega

theorem absDiff_lt_iff (a b k : Nat) : absDiff a b < k ↔ a < b + k ∧ b < a + k := by
  rw [absDiff]
  split <;> omega

/-- Of two numbers the higher is strictly nearer to `c` exactly when their midpoint lies below `c`. -/
theorem absDiff_lt_absDiff_iff {u v : Nat} (h : u < v) (c : Nat) : absDiff v c < absDiff u c ↔ u + v < 2 * c := by
  rw [absDiff, absDiff]
  split <;> split <;> omega

/-! Which number `unwrap` picks -/

/-- `unwrap` picks the congruent number nearest to the checkpoint (R153): the midpoint between it and a lower one lies below the
checkpoint, and the midpoint between it and a higher one does not. -/
theorem unwrap_nearest (raw zero : U32) {c : Nat} (hc : c < two64) {u : Nat} (hu : u < two64)
    (hmod : u % two32 = (raw - zero).toNat) :
    absDiff (unwrap raw zero c) c < absDiff u c ∨
      absDiff (unwrap raw zero c) c = absDiff u c ∧ unwrap raw zero c ≤ u := by
  obtain ⟨_, hvmod, hhigh, hlow⟩ := unwrap_spec raw zero c hc.le
  generalize unwrap raw zero c = v at *
  rcases eq_or_apart_of_congruent (hmod.trans hvmod.symm) with rfl | hbelow | habove
  · exact .inr ⟨rfl, le_rfl⟩
  · simp only [two32] at *
    exact .inl ((absDiff_lt_absDiff_iff (by omega) c).2 (by omega))
  · simp only [two32, two64] at *
    have hnotFarther : ¬ absDiff u c < absDiff v c := by
      rw [absDiff_lt_absDiff_iff (by omega)]
      omega
    exact (lt_or_eq_of_le (not_lt.1 hnotFarther)).imp_right fun heq => ⟨heq, by omega⟩

/-- Settles O18: the two words answered hold `unwrap`'s number, which is below 2^64. -/
theorem w32UnwrapNearest : Obligations.W32UnwrapNearest := by
  intro raw zero checkpoint s
  obtain ⟨hlt, hmod, -, -⟩ := unwrap_spec raw zero checkpoint.toNat checkpoint.isLt.le
  have hword : (BitVec.ofNat 64 (unwrap raw zero checkpoint.toNat)).toNat = unwrap raw zero checkpoint.toNat :=
    (BitVec.toNat_ofNat _ _).trans (Nat.mod_eq_of_lt hlt)
  refine ⟨BitVec.ofNat 64 (unwrap raw zero checkpoint.toNat), exec_w32Unwrap raw zero checkpoint s, ?_, ?_⟩
  · rw [hword]
    exact hmod
  · intro u hu humod
    rw [hword]
    exact unwrap_nearest raw zero checkpoint.isLt hu humod

/-- A congruent number in the window of 2^32 around the checkpoint is the one `unwrap` picks; below 2^32 there is no lower
candidate, so that the window's upper edge does not matter. -/
theorem unwrap_eq_of_window {raw zero : U32} {n c : Nat} (hn : n < two64) (hc : c < two64)
    (hmod : n % two32 = (raw - zero).toNat) (hlow : c ≤ n + 2 ^ 31) (hhigh : n < c + 2 ^ 31 ∨ n < two32) :
    unwrap raw zero c = n := by
  obtain ⟨_, hvmod, hvhigh, hvlow⟩ := unwrap_spec raw zero c hc.le
  have happart := eq_or_apart_of_congruent (hvmod.trans hmod.symm)
  simp only [two32, two64] at *
  omega

/-- Settles O19: inside the window, and at its lower edge, the number itself is picked; at its upper edge the number 2^32
below, which is congruent and stands at the lower edge, when there is one. -/
theorem unwrapInvertsWrap : Obligations.UnwrapInvertsWrap := by
  intro n c zero hn hc
  have hmod : n % two32 = (wrap n zero - zero).toNat := (wrap_sub_toNat n zero).symm
  refine ⟨fun hnear => ?_, fun hlower => ?_, fun hupper => ?_⟩
  · obtain ⟨hhigh, hlow⟩ := (absDiff_lt_iff n c _).1 hnear
    exact unwrap_eq_of_window hn hc hmod hlow.le (.inl hhigh)
  · exact unwrap_eq_of_window hn hc hmod hlower.ge (.inl (by omega))
  · split
    next hge =>
      have hedge : c = n - two32 + 2 ^ 31 := by
        simp only [two32] at *
        omega
      have hmodBelow : (n - two32) % two32 = (wrap n zero - zero).toNat := (Nat.mod_eq_sub_mod hge).symm.trans hmod
      exact unwrap_eq_of_window ((Nat.sub_le _ _).trans_lt hn) hc hmodBelow hedge.le (.inl (by omega))
    next hlt => exact unwrap_eq_of_window hn hc hmod (by omega) (.inr (not_le.1 hlt))

end Sys2Proof.Proofs
end

section
/-! SUPPORT. The ByteStream family (spec/41_bytestream.md): what moves bytes through a stream (R173), and the results of the BS
commands (R161 to R172). -/

namespace Sys2Proof.Proofs

open Sys2Proof.Machine Sys2Proof.Safety Sys2Proof.Laws

/-! Streams as FIFOs -/

/-- `b'` is `b` after bytes were appended at the tail and then removed at the head, the counters having counted exactly them
(R173). -/
def FifoMove (b b' : ByteStream) : Prop :=
  ∃ (added : List Byte) (n : Nat), n ≤ (b.buffer ++ added).length ∧ b'.buffer = (b.buffer ++ added).drop n ∧
    b'.pushed = b.pushed + added.length ∧ b'.popped = b.popped + n ∧ b'.cap = b.cap

/-- The flags have no part in it. -/
theorem fifoMove_of_kept {b b' : ByteStream} (hbuffer : b'.buffer = b.buffer) (hpushed : b'.pushed = b.pushed)
    (hpopped : b'.popped = b.popped) (hcap : b'.cap = b.cap) : FifoMove b b' :=
  ⟨[], 0, Nat.zero_le _, by rw [hbuffer, List.append_nil, List.drop_zero], hpushed, hpopped, hcap⟩

/-- Bytes removed by the first move were in its own buffer, so it makes no difference that the second appends before they
go. -/
theorem FifoMove.trans {a b c : ByteStream} (h : FifoMove a b) (h' : FifoMove b c) : FifoMove a c := by
  obtain ⟨added, n, hle, hbuffer, hpushed, hpopped, hcap⟩ := h
  obtain ⟨added', n', hle', hbuffer', hpushed', hpopped', hcap'⟩ := h'
  have hboth : b.buffer ++ added' = (a.buffer ++ (added ++ added')).drop n := by
    rw [hbuffer, ← List.drop_append_of_le_length hle, List.append_assoc]
  rw [hboth] at hle' hbuffer'
  refine ⟨added ++ added', n + n', ?_, by rw [hbuffer', List.drop_drop], ?_, by omega, hcap'.trans hcap⟩
  · rw [List.length_append] at hle
    simp only [List.length_drop, List.length_append] at hle' ⊢
    omega
  · rw [List.length_append]
    omega

theorem fifoMove_push (b : ByteStream) (data : List Byte) : FifoMove b (b.push data) := by
  have hcount : (data.take (b.accepts data)).length = b.accepts data := List.length_take_of_le (accepts_le b data)
  exact ⟨data.take (b.accepts data), 0, Nat.zero_le _, rfl, by rw [push_pushed, hcount], rfl, rfl⟩

theorem fifoMove_pop (b : ByteStream) (n : Nat) : FifoMove b (b.pop n) := by
  refine ⟨[], min n b.buffer.length, ?_, ?_, rfl, rfl, rfl⟩ <;> rw [List.append_nil]
  · exact Nat.min_le_right _ _
  · exact pop_buffer b n

/-- RaInsert pushes at most (R191). -/
theorem fifoMove_raInsert (s : State) (f : Nat) (d : List Byte) (l : Bool) : FifoMove s.ibs (raInsert s f d l).ibs := by
  obtain ⟨run, closes, h⟩ := raInsert_ibs_cases s f d l
  rw [h]
  exact fifoMove_push s.ibs run

/-- Every round of TX.PUSH pops its payload (R231). -/
theorem fifoMove_txPush (s : State) : FifoMove s.obs (txPushState s).obs :=
  txPushState_keeps (P := fun u => FifoMove s.obs u.obs)
    (fun _ _ hu _ _ _ => hu.trans (fifoMove_pop _ _)) (fifoMove_of_kept rfl rfl rfl rfl)

/-- RA.INSERT and RX.RECEIVE push to IBS, BS.POP pops it, and no other command moves its bytes. -/
theorem fifoMove_ibs_effect {i : Instr} {s : State} (hi : i ≠ .sysReset) (h : stops i s = none) :
    FifoMove s.ibs (effect i s).ibs := by
  have hkept : i.op ∉ [Op.raInsert, .rxReceive, .bsPop] → FifoMove s.ibs (effect i s).ibs := fun hop => by
    have hlist := inboundListed_effect hi h
    obtain ⟨hpushed, -, -⟩ := hlist.accepted fun hmem => hop (List.mem_append_left [Op.bsPop] hmem)
    exact fifoMove_of_kept (hlist.buffer hop) hpushed (hlist.popped fun he => hop (by simp [he])) hlist.forward.cap
  cases i
  case bsPop n => exact fifoMove_pop s.ibs n.toNat
  case raInsert f d l => exact fifoMove_raInsert s f.toNat d l
  case rxReceive q d syn fin =>
    have hibs := rxMark_ibs s q syn
    rcases effect_rxReceive_cases s q d syn fin with he | ⟨idx, -, he⟩
    · rw [he, hibs]
      exact fifoMove_of_kept rfl rfl rfl rfl
    · rw [he, ← hibs]
      exact fifoMove_raInsert _ idx d fin
  all_goals exact hkept (by simp [Instr.op])

/-- BS.PUSH pushes to OBS, TX.PUSH pops it, and no other command moves its bytes. -/
theorem fifoMove_obs_effect {i : Instr} {s : State} (hi : i ≠ .sysReset) (h : stops i s = none) :
    FifoMove s.obs (effect i s).obs := by
  have hkept : i.op ∉ [Op.bsPush, .txPush] → FifoMove s.obs (effect i s).obs := fun hop => by
    have hlist := outboundListed_effect hi h
    obtain ⟨hpopped, -⟩ := hlist.sent fun he => hop (by simp [he])
    exact fifoMove_of_kept (hlist.buffer hop) (hlist.pushed fun he => hop (by simp [he])) hpopped hlist.forward.cap
  cases i
  case bsPush data => exact fifoMove_push s.obs data
  case txPush => exact fifoMove_txPush s
  all_goals exact hkept (by simp [Instr.op])

/-- Settles O26: whatever a command does to a stream is made of pushes and pops, and responses touch neither stream. -/
theorem streamsAreFifo : Obligations.StreamsAreFifo := by
  intro i s t hi he
  obtain ⟨hstop, rfl⟩ := exec_next he
  exact ⟨fifoMove_ibs_effect hi hstop, fifoMove_obs_effect hi hstop⟩

/-! The commands that write a stream -/

/-- A command without results answers its bare header over its effect (R116). -/
theorem exec_bare (op : Op) {i : Instr} {s : State} (hstop : stops i s = none) (hreply : reply i s = Response.bare op) :
    exec i s = .next (answered (effect i s) [op.code, 0#8, 0#8, 0#8]) := by
  rw [exec_of_not_stops hstop, hreply, respond_bare]

/-- The model's bound on what is appended, in the terms of R161. -/
theorem accepts_eq (b : ByteStream) (data : List Byte) :
    b.accepts data = if b.closed || b.error then 0 else min (b.cap.toNat - b.buffer.length) data.length := rfl

theorem stops_bsPush (data : List Byte) (s : State) :
    stops (.bsPush data) s = if s.obs.pushed + s.obs.accepts data < two64 then none else some .counterOverflow := rfl

/-- Settles O20: the stream takes `accepts` bytes, and the counter's new value decides between the two answers. -/
theorem bsPushResult : Obligations.BsPushResult := by
  intro data s
  rw [← accepts_eq]
  refine ⟨fun hfits => ?_, fun hover => ?_⟩
  · exact exec_bare .bsPush ((stops_bsPush data s).trans (if_pos hfits)) rfl
  · exact exec_refused_iff.2 ((stops_bsPush data s).trans (if_neg (Nat.not_lt.2 hover)))

/-- Settles O21: nothing stops BS.CLOSE. -/
theorem bsCloseResult : Obligations.BsCloseResult := fun _ => exec_bare .bsClose rfl rfl

/-- Settles O22: nothing stops BS.SET_ERROR, and the select names the stream it writes. -/
theorem bsSetErrorResult : Obligations.BsSetErrorResult := fun _ =>
  ⟨exec_bare .bsSetError rfl rfl, exec_bare .bsSetError rfl rfl⟩

/-- Settles O24: nothing stops BS.POP, and `pop` bounds the count by the buffer. -/
theorem bsPopResult : Obligations.BsPopResult := fun _ _ => exec_bare .bsPop rfl rfl

/-! The commands that only read a stream -/

theorem exec_observer_reply {i : Instr} (hi : i.op ∈ observers) (s : State) : exec i s = .next (s.respond (reply i s)) := by
  obtain ⟨hstop, heffect, -⟩ := observer_spec hi s
  rw [exec_of_not_stops hstop, heffect]

/-- An observer of one number answers it in two words, high first (R115, R116). -/
theorem exec_observer_nat64 (op : Op) {i : Instr} {s : State} {v : Nat} (hi : i.op ∈ observers)
    (hreply : reply i s = Response.nat64 op v) :
    exec i s =
      .next (answered s ([op.code, 0#8, 0#8, 0#8] ++
        (bytes32 ((BitVec.ofNat 64 v).extractLsb' 32 32) ++ bytes32 ((BitVec.ofNat 64 v).extractLsb' 0 32)))) := by
  rw [exec_observer_reply hi, hreply, respond_nat64, List.append_assoc]

/-- An observer of one truth value answers it in RFLAGS bit 0 (R116). -/
theorem exec_observer_bool (op : Op) {i : Instr} {s : State} {c : Bool} (hi : i.op ∈ observers)
    (hreply : reply i s = Response.bool op c) :
    exec i s = .next (answered s [op.code, if c then 1#8 else 0#8, 0#8, 0#8]) := by
  rw [exec_observer_reply hi, hreply, respond_bool]

/-- An observer of bytes answers them with their number in RLEN (R115, R116). -/
theorem exec_observer_bytes (op : Op) {i : Instr} {s : State} {p : List Byte} (hi : i.op ∈ observers)
    (hreply : reply i s = ⟨op, 0#8, [], p⟩) (hshort : p.length < 65536) :
    exec i s =
      .next (answered s ([op.code, 0#8, BitVec.ofNat 8 (p.length / 256), BitVec.ofNat 8 p.length] ++ p)) := by
  rw [exec_observer_reply hi, hreply, respond_short _ _ hshort, List.flatMap_nil, List.append_nil]

theorem peek_length (b : ByteStream) : b.peek.length = min b.buffer.length 65535 :=
  List.length_take_of_le (Nat.min_le_left _ _)

/-- Settles O23: `peek` takes no more than RLEN can count, so that RLEN is its length. -/
theorem bsPeekResult : Obligations.BsPeekResult := by
  intro s
  have h := exec_observer_bytes .bsPeek (i := .bsPeek) (s := s) (by decide) rfl (peek_length_lt s.ibs)
  rw [peek_length] at h
  exact h

theorem finished_eq (b : ByteStream) : b.finished = (b.closed && b.buffer.length == 0) := by
  rw [ByteStream.finished]
  cases b.buffer <;> rfl

/-- Settles O25: each observer answers one number or one truth value of the stream its select names. -/
theorem bsObserverResults : Obligations.BsObserverResults := by
  intro sel s
  have hfinished := finished_eq (s.stream sel)
  cases sel <;>
    exact ⟨exec_observer_nat64 .bsAvail (by decide) rfl, exec_observer_nat64 .bsPushed (by decide) rfl,
      exec_observer_nat64 .bsPopped (by decide) rfl, exec_observer_nat64 .bsBuffered (by decide) rfl,
      exec_observer_bool .bsIsClosed (by decide) rfl,
      exec_observer_bool .bsIsFinished (by decide) (congrArg (Response.bool .bsIsFinished) hfinished),
      exec_observer_bool .bsHasError (by decide) rfl⟩

end Sys2Proof.Proofs
end

section
/-! SUPPORT. The reassembler family (spec/42_reassembler.md): the whole effect of RA.INSERT on any stream, open or shut (R191, R192,
R194), that a fragment inserted again changes nothing (R193), and RA.PENDING with its bound (R195, R197). -/

namespace Sys2Proof.Proofs

open Sys2Proof.Machine Sys2Proof.Safety Sys2Proof.Laws

/-! What an insert leaves -/

/-- The part of a run that IBS takes: all of it, or nothing when the stream is closed or in error (R194, D15). -/
def taken (b : ByteStream) (run : List Byte) : List Byte := if b.closed || b.error then [] else run

theorem taken_of_shut {b : ByteStream} (h : (b.closed || b.error) = true) (run : List Byte) : taken b run = [] := if_pos h

theorem taken_of_open {b : ByteStream} (h : (b.closed || b.error) = false) (run : List Byte) : taken b run = run :=
  if_neg (Bool.eq_false_iff.1 h)

/-- A run that fits is pushed as far as the stream takes it. -/
theorem push_taken {b : ByteStream} {run : List Byte} (hfit : run.length ≤ b.avail) :
    b.push run =
      { b with buffer := b.buffer ++ taken b run, pushed := b.pushed + (taken b run).length } := by
  cases h : b.closed || b.error with
  | true => rw [ByteStream.push, accepts_of_shut h, taken_of_shut h, List.take_zero, List.length_nil]
  | false => rw [ByteStream.push, accepts_of_open h, Nat.min_eq_right hfit, List.take_length, taken_of_open h]

/-- Step 5 splits what the store reads as into the run from `U` and the rest (R191). -/
theorem flushed_raFlush {s : State} (hwf : Memory.wf s.ra.store = true) :
    Flushed (Memory.read s.ra.store) s.windowStart (flushRun s) (raFlush s).ra.store where
  run_get j hj := (flushRun_read s j hj).symm
  stop := flushRun_maximal s
  wf := raFlush_wf hwf
  read := raFlush_read hwf

/-- What RaInsert leaves on any stream: IBS takes the run or loses it, the store keeps the rest, and the close condition is
evaluated (R191, R192, R194). -/
structure Delivered (s : State) (f : Nat) (d : List Byte) (l : Bool) (run : List Byte) (store : Memory) (t : State) :
    Prop where
  flushed : Flushed (filled s f d) s.windowStart run store
  ibs : t.ibs =
    { s.ibs with
      buffer := s.ibs.buffer ++ taken s.ibs run
      pushed := s.ibs.pushed + (taken s.ibs run).length
      closed := s.ibs.closed || ((s.ra.lastSeen || l) && store.isEmpty &&
        decide (s.ibs.pushed + (taken s.ibs run).length = if l then f + d.length else s.ra.lastIndex)) }
  ra : t.ra =
    { store := store
      pending := store.length
      lastSeen := s.ra.lastSeen || l
      lastIndex := if l then f + d.length else s.ra.lastIndex }

theorem length_beq_zero {α : Type} (m : List α) : (m.length == 0) = m.isEmpty := by
  cases m <;> rfl

theorem raInsert_delivered {s : State} (h : StoreOk s) (f : Nat) (d : List Byte) (l : Bool) :
    ∃ run store, Delivered s f d l run store (raInsert s f d l) := by
  have hmarked := storeOk_raMark h f d l
  have hwf := raKeep_wf hmarked.1 f d
  have hpending := raFlush_pending hwf (raKeep_pending hmarked.1 hmarked.2.1 f d)
  have hpush := push_taken (flushRun_le_avail hmarked f d)
  have hflushed := flushed_raFlush hwf
  have hread : Memory.read (raKeep (raMark s f d l) f d).ra.store = filled s f d := by
    funext i
    rw [raKeep_read_filled, filled_raMark]
  have hstart : (raKeep (raMark s f d l) f d).windowStart = s.windowStart := raMark_windowStart s f d l
  rw [hread, hstart] at hflushed
  rw [raMark_ibs] at hpush
  refine ⟨_, _, hflushed, ?_, ?_⟩
  · rw [raInsert_steps h, raCloseCheck_eq, setIbs_ibs, raFlush_ibs, raKeep_ibs, raMark_ibs, hpush, hpending,
      length_beq_zero, raFlush_lastSeen, raFlush_lastIndex, raKeep_lastSeen, raKeep_lastIndex, raMark_lastSeen,
      raMark_lastIndex]
    rfl
  · rw [raInsert_steps h, raCloseCheck_ra]
    refine reassembler_eq hpending ?_ ?_
    · rw [raFlush_lastSeen, raKeep_lastSeen, raMark_lastSeen]
    · rw [raFlush_lastIndex, raKeep_lastIndex, raMark_lastIndex]

/-- With the window's end below 2^64 nothing stops RA.INSERT (D11). -/
theorem exec_raInsert {s : State} (h : InboundOk s) (hroom : s.ibs.popped + s.ibs.cap.toNat < 2 ^ 64) (first : U64)
    (d : List Byte) (l : Bool) :
    exec (.raInsert first d l) s = .next (answered (raInsert s first.toNat d l) [0x30#8, 0#8, 0#8, 0#8]) := by
  have hstop : stops (.raInsert first d l) s = none :=
    if_neg (Bool.eq_false_iff.1 (not_raOverflows h hroom first.toNat d l))
  exact exec_bare .raInsert hstop rfl

/-- Settles O27: what `Delivered` says of the insert is the statement's, with the window's end in its terms. -/
theorem raInsertResult : Obligations.RaInsertResult := by
  intro s first data isLast hok hroom u e fill
  have hfill : fill = filled s first.toNat data := by
    funext i
    simp only [fill, u, e, filled, windowEnd_eq hok.1, State.windowStart]
    cases Memory.read s.ra.store i <;> rfl
  obtain ⟨run, store, hflushed, hibs, hra⟩ := raInsert_delivered hok.2 first.toNat data isLast
  refine ⟨run, store, ?_, ?_, hflushed.wf, ?_, ?_⟩
  · rw [hfill]
    exact hflushed.run_get
  · rw [hfill]
    exact hflushed.stop
  · rw [hfill]
    exact hflushed.read
  · rw [exec_raInsert hok hroom, raInsert_eq_set, hibs, hra]
    rfl

/-! A fragment inserted again -/

/-- The byte a fragment offers at index `i` of the window (R191 step 3). -/
def offered (s : State) (f : Nat) (d : List Byte) (i : Nat) : Option Byte :=
  if f ≤ i ∧ s.windowStart ≤ i ∧ i < s.windowEnd then d[i - f]? else none

theorem filled_eq (s : State) (f : Nat) (d : List Byte) (i : Nat) :
    filled s f d i = (Memory.read s.ra.store i).or (offered s f d i) := rfl

theorem offered_eq_none_iff (s : State) (f : Nat) (d : List Byte) (i : Nat) :
    offered s f d i = none ↔ ¬ (f ≤ i ∧ s.windowStart ≤ i ∧ i < s.windowEnd ∧ i < f + d.length) := by
  rw [offered, ite_eq_right_iff, List.getElem?_eq_none_iff]
  omega

/-- The slot at `U` is unfilled between commands, so that only a fragment that reaches `U` starts a run (R31 (b)). -/
theorem filled_windowStart {s : State} (h : StoreOk s) (f : Nat) (d : List Byte) :
    filled s f d s.windowStart = offered s f d s.windowStart := by
  have hread : Memory.read s.ra.store s.windowStart = none :=
    (table_read_none_iff _ _).2 fun c hc => Nat.ne_of_gt (h.2.2 c hc).1
  rw [filled_eq, hread, Option.none_or]

section

variable {s t : State} {f : Nat} {d run : List Byte} {l : Bool} {store : Memory}

theorem Delivered.windowStart (h : Delivered s f d l run store t) :
    t.windowStart = s.windowStart + (taken s.ibs run).length := by
  rw [State.windowStart, h.ibs]
  rfl

theorem Delivered.windowEnd (h : Delivered s f d l run store t) (hs : StreamOk s.ibs) (ht : StreamOk t.ibs) :
    t.windowEnd = s.windowEnd := by
  rw [windowEnd_eq ht, windowEnd_eq hs, h.ibs]

/-- A second time the fragment finds its bytes stored, but for those of the run: these are below the window on an open stream,
and are offered again on a shut one. -/
theorem Delivered.filled_again (h : Delivered s f d l run store t) (hend : t.windowEnd = s.windowEnd) (i : Nat) :
    filled t f d i =
      if s.windowStart ≤ i ∧ i < s.windowStart + run.length then offered t f d i else filled s f d i := by
  have hread := h.flushed.read i
  have hstart := h.windowStart
  rw [filled_eq t, h.ra, hread]
  split
  · rw [Option.none_or]
  · rename_i hout
    cases hi : filled s f d i with
    | some b => rfl
    | none =>
      rw [filled_eq, Option.or_eq_none_iff, offered_eq_none_iff] at hi
      rw [Option.none_or, offered_eq_none_iff]
      omega

theorem taken_length_le (b : ByteStream) (run : List Byte) : (taken b run).length ≤ run.length := by
  unfold taken
  split <;> simp

section

variable {run' : List Byte} {store' : Memory}

/-- The second run ends where the first one ended, or before. -/
theorem Delivered.run_again_le (h : Delivered s f d l run store t) (hend : t.windowEnd = s.windowEnd)
    (h' : Flushed (filled t f d) t.windowStart run' store') :
    t.windowStart + run'.length ≤ s.windowStart + run.length := by
  by_contra hlt
  have hstart := h.windowStart
  have htaken := taken_length_le s.ibs run
  have hstop : filled t f d (s.windowStart + run.length) = none := by
    rw [h.filled_again hend, if_neg (by omega), h.flushed.stop]
  have hget := h'.run_get (s.windowStart + run.length - t.windowStart) (by omega)
  rw [Nat.add_sub_of_le (by omega), hstop, List.getElem?_eq_none_iff] at hget
  omega

/-- Of the slots of the first run the second one leaves none that the fragment still offers: what the fragment has of them
reaches from `U` on without a gap. -/
theorem Delivered.offered_beyond (h : Delivered s f d l run store t) (hs : StoreOk s)
    (hend : t.windowEnd = s.windowEnd) (h' : Flushed (filled t f d) t.windowStart run' store') {i : Nat}
    (hin : s.windowStart ≤ i ∧ i < s.windowStart + run.length)
    (hout : ¬ (t.windowStart ≤ i ∧ i < t.windowStart + run'.length)) : offered t f d i = none := by
  have hstart := h.windowStart
  have hfirst := h.flushed.run_get 0 (by omega)
  rw [Nat.add_zero, filled_windowStart hs, List.getElem?_eq_getElem (by omega)] at hfirst
  have hreach : offered s f d s.windowStart ≠ none := by simp [← hfirst]
  rw [Ne, offered_eq_none_iff] at hreach
  rw [offered_eq_none_iff]
  by_cases hlow : t.windowStart ≤ i
  · have hstop := h'.stop
    rw [h.filled_again hend, if_pos (by omega), offered_eq_none_iff] at hstop
    omega
  · omega

/-- What the second run leaves in the store is what the first one left. -/
theorem Delivered.store_again (h : Delivered s f d l run store t) (hs : StoreOk s) (hend : t.windowEnd = s.windowEnd)
    (h' : Flushed (filled t f d) t.windowStart run' store') : store' = store := by
  apply memory_ext h'.wf h.flushed.wf
  intro i
  have hle := h.run_again_le hend h'
  have hstart := h.windowStart
  rw [h'.read, h.flushed.read, h.filled_again hend]
  by_cases hin : s.windowStart ≤ i ∧ i < s.windowStart + run.length
  · rw [if_pos hin, if_pos hin, ite_eq_left_iff]
    exact h.offered_beyond hs hend h' hin
  · rw [if_neg hin, if_neg hin, if_neg (by omega)]

/-- IBS takes nothing of the second run: on an open stream it is empty, on a shut one it is lost. -/
theorem Delivered.taken_again (h : Delivered s f d l run store t) (hend : t.windowEnd = s.windowEnd)
    (h' : Flushed (filled t f d) t.windowStart run' store') : taken t.ibs run' = [] := by
  have hle := h.run_again_le hend h'
  have hstart := h.windowStart
  cases hshut : s.ibs.closed || s.ibs.error with
  | true =>
    apply taken_of_shut
    rw [Bool.or_eq_true] at hshut ⊢
    rw [h.ibs]
    exact hshut.imp_left fun hclosed => by rw [hclosed, Bool.true_or]
  | false =>
    rw [taken_of_open hshut] at hstart
    rw [List.eq_nil_of_length_eq_zero (l := run') (by omega), taken, ite_self]

/-- The second insert leaves the state as it is (R193). -/
theorem Delivered.again {u : State} (h : Delivered s f d l run store t) (hs : StoreOk s)
    (hend : t.windowEnd = s.windowEnd) (h' : Delivered t f d l run' store' u) : u.ibs = t.ibs ∧ u.ra = t.ra := by
  have hstore := h.store_again hs hend h'.flushed
  have hseen : (s.ra.lastSeen || l || l) = (s.ra.lastSeen || l) := by rw [Bool.or_assoc, Bool.or_self]
  have hlast : ∀ a b : Nat, (if l then a else if l then a else b) = if l then a else b := fun a b => by
    cases l <;> rfl
  constructor
  · rw [h'.ibs, h.taken_again hend h'.flushed, hstore, h.ra, List.append_nil, List.length_nil, Nat.add_zero, hseen,
      hlast, h.ibs, Bool.or_assoc, Bool.or_self]
  · rw [h'.ra, hstore, h.ra, hseen, hlast]

end

/-- A byte that was stored stays stored or leaves in the run; in neither case does the fragment's byte take its place (R193). -/
theorem Delivered.first_wins (h : Delivered s f d l run store t) (hopen : (s.ibs.closed || s.ibs.error) = false)
    (hs : StreamOk s.ibs) {i : Nat} {b : Byte} (hi : Memory.read s.ra.store i = some b) :
    Memory.read t.ra.store i = some b ∨
      s.ibs.pushed ≤ i ∧ i < t.ibs.pushed ∧ t.ibs.buffer[i - s.ibs.popped]? = some b := by
  have hkept : filled s f d i = some b := by rw [filled_eq, hi, Option.some_or]
  have hread := h.flushed.read i
  by_cases hin : s.windowStart ≤ i ∧ i < s.windowStart + run.length
  · right
    obtain ⟨hlow, hhigh⟩ := hin
    have hcount := hs.1
    rw [State.windowStart] at hlow hhigh
    rw [h.ibs, taken_of_open hopen]
    refine ⟨hlow, hhigh, ?_⟩
    have hget := h.flushed.run_get (i - s.ibs.pushed) (by omega)
    rw [State.windowStart, Nat.add_sub_of_le hlow, hkept] at hget
    rw [List.getElem?_append_right (by omega), ← hget]
    congr 1
    omega
  · left
    rw [h.ra, hread, if_neg hin, hkept]

end

/-- Settles O28: the second insert delivers what `Delivered.again` says, and the first one only appends to IBS. -/
theorem raDuplicateIdempotent : Obligations.RaDuplicateIdempotent := by
  intro s t first data isLast hok hroom he
  obtain ⟨run, store, h⟩ := raInsert_delivered hok.2 first.toNat data isLast
  have hfits := not_raOverflows hok hroom first.toNat data isLast
  have hok' := inboundOk_raInsert hok first.toNat data isLast hfits
  rw [exec_raInsert hok hroom] at he
  cases he
  set t := answered (raInsert s first.toNat data isLast) [0x30#8, 0#8, 0#8, 0#8]
  replace h : Delivered s first.toNat data isLast run store t := ⟨h.flushed, h.ibs, h.ra⟩
  replace hok' : InboundOk t := hok'
  obtain ⟨run', store', h'⟩ := raInsert_delivered hok'.2 first.toNat data isLast
  have hend := h.windowEnd hok.1 hok'.1
  obtain ⟨hibs, hra⟩ := h.again hok.2 hend h'
  refine ⟨?_, ?_, ?_⟩
  · have hroom' : t.ibs.popped + t.ibs.cap.toNat < 2 ^ 64 := by rwa [h.ibs]
    rw [exec_raInsert hok' hroom', raInsert_eq_set, hibs, hra]
    rfl
  · rw [h.ibs]
    exact ⟨_, rfl⟩
  · intro hclosed herror i b hi
    exact h.first_wins (by rw [hclosed, herror, Bool.or_false]) hok.1 hi

/-! RA.PENDING -/

/-- What is stored lies in the part of the window that IBS does not buffer (R195). -/
theorem store_length_le_avail {s : State} (h : StoreOk s) : s.ra.store.length ≤ s.ibs.avail :=
  table_count_range h.1 s.windowStart _ fun c hc =>
    have hwindow := h.2.2 c hc
    ⟨hwindow.1.le, hwindow.2.1⟩

/-- Settles O30: RA.PENDING is an observer of one number, and that number counts the store. -/
theorem raPendingResult : Obligations.RaPendingResult := by
  intro s
  refine ⟨?_, fun ⟨hstream, hstore⟩ => ?_⟩
  · rw [exec_observer_nat64 .raPending (by decide) rfl, List.append_assoc]
    rfl
  · obtain ⟨-, hbuffer, -⟩ := hstream
    have hlen := store_length_le_avail hstore
    rw [ByteStream.avail] at hlen
    rw [hstore.2.1]
    omega

end Sys2Proof.Proofs
end

section
/-! SUPPORT. The TCPReceiver family (spec/43_tcp_receiver.md): which segments RX.RECEIVE hands to the Reassembler and at
which index (R220, R221), what becomes of the next segment in order, and the answer of RX.SEND (R222). -/

namespace Sys2Proof.Proofs

open Sys2Proof.Machine Sys2Proof.Safety Sys2Proof.Laws

/-! Which index a segment has -/

theorem rxIndex_of_noSyn {s : State} (h : s.rx.isnReceived = false) (q : U32) (syn : Bool) : rxIndex s q syn = none := by
  rw [rxIndex, h]
  rfl

/-- Without SYN, a segment that claims the SYN's own number is dropped (D18). -/
theorem rxIndex_of_stray {s : State} {q : U32} (h : rxAbs s q = 0) : rxIndex s q false = none := by
  rw [rxIndex, h]
  cases s.rx.isnReceived <;> rfl

theorem rxIndex_of_taken {s : State} {q : U32} {syn : Bool} (hisn : s.rx.isnReceived = true)
    (htaken : syn = true ∨ rxAbs s q ≠ 0) :
    rxIndex s q syn = some (if syn then rxAbs s q else rxAbs s q - 1) := by
  have hnotStray : (!syn && rxAbs s q == 0) = false := by
    rw [Bool.and_eq_false_iff, Bool.not_eq_false', beq_eq_false_iff_ne]
    exact htaken
  rw [rxIndex, hisn, hnotStray]
  rfl

@[simp] theorem rxMark_resps (s : State) (q : U32) (syn : Bool) : (rxMark s q syn).resps = s.resps := by
  rw [rxMark_eq_set, setRx_resps]

/-- The number a segment is unwrapped to, in the terms of R220: the stream's counter is not the SYN's to change. -/
theorem rxAbs_rxMark (s : State) (q : U32) (syn : Bool) :
    rxAbs (rxMark s q syn) q = unwrap q (rxMark s q syn).rx.zero (s.ibs.pushed + 1) := by
  rw [rxAbs, rxMark_ibs]

/-! The two ways RX.RECEIVE goes -/

/-- A segment that is dropped carries no SYN, so that step 1 leaves the state as it is. -/
theorem exec_rxReceive_dropped {s : State} {q : U32} {syn : Bool} (h : rxIndex (rxMark s q syn) q syn = none)
    (d : List Byte) (fin : Bool) :
    exec (.rxReceive q d syn fin) s = .next (answered s [0x40#8, 0#8, 0#8, 0#8]) := by
  have hstop : stops (.rxReceive q d syn fin) s = none := by rw [stops, h]
  have heffect : effect (.rxReceive q d syn fin) s = rxMark s q syn := by rw [effect, h]
  rw [exec_bare .rxReceive hstop rfl, heffect]
  cases syn with
  | false => rfl
  | true =>
    rw [rxIndex_of_taken rfl (.inl rfl)] at h
    cases h

section

variable {s : State} {q : U32} {syn : Bool} {idx : Nat}

/-- A segment that is taken stops exactly as the insert at its index does, after step 1. -/
theorem stops_rxReceive_taken (h : rxIndex (rxMark s q syn) q syn = some idx) (hidx : idx < two64) (d : List Byte)
    (fin : Bool) :
    stops (.rxReceive q d syn fin) s = stops (.raInsert (BitVec.ofNat 64 idx) d fin) (rxMark s q syn) := by
  have hword : (BitVec.ofNat 64 idx).toNat = idx := (BitVec.toNat_ofNat _ _).trans (Nat.mod_eq_of_lt hidx)
  rw [stops, stops, h, hword]

/-- With the window's end below 2^64 a segment that is taken is inserted (D11). -/
theorem exec_rxReceive_taken (h : rxIndex (rxMark s q syn) q syn = some idx) (hok : InboundOk s)
    (hroom : s.ibs.popped + s.ibs.cap.toNat < 2 ^ 64) (d : List Byte) (fin : Bool) :
    exec (.rxReceive q d syn fin) s =
      .next (answered (raInsert (rxMark s q syn) idx d fin) [0x40#8, 0#8, 0#8, 0#8]) := by
  have hokMark : InboundOk (rxMark s q syn) := inboundOk_congr (rxMark_ibs s q syn) (rxMark_ra s q syn) hok
  have hfits := not_raOverflows hokMark ((rxMark_ibs s q syn).symm ▸ hroom) idx d fin
  have hstop : stops (.rxReceive q d syn fin) s = none := by
    rw [stops, h]
    exact if_neg (Bool.eq_false_iff.1 hfits)
  have heffect : effect (.rxReceive q d syn fin) s = raInsert (rxMark s q syn) idx d fin := by rw [effect, h]
  rw [exec_bare .rxReceive hstop rfl, heffect]
  rfl

end

theorem raInsert_resps (s : State) (f : Nat) (d : List Byte) (l : Bool) : (raInsert s f d l).resps = s.resps := by
  rw [raInsert_eq_set, setRa_resps, setIbs_resps]

/-- The index of a segment fits the operand of RA.INSERT. -/
theorem rxIndex_lt {s : State} (h : StreamOk s.ibs) {q : U32} {syn : Bool} {idx : Nat}
    (hidx : rxIndex s q syn = some idx) : idx < two64 := by
  have habs : rxAbs s q < two64 := (unwrap_spec q s.rx.zero (s.ibs.pushed + 1) h.2.2).1
  unfold rxIndex at hidx
  split at hidx
  · cases hidx
  · split at hidx
    · cases hidx
    · cases hidx
      split <;> omega

/-- Settles O33: the index decides. A segment without one is dropped; at its index RX.RECEIVE does what RA.INSERT does
there, its refusals included, and answers its own header. -/
theorem rxReceiveResult : Obligations.RxReceiveResult := by
  intro s q d syn fin s1 a idx
  have hs1 : s1 = rxMark s q syn := rfl
  have ha : a = rxAbs (rxMark s q syn) q := (rxAbs_rxMark s q syn).symm
  clear_value s1
  subst hs1
  have hindex (hisn : (rxMark s q syn).rx.isnReceived = true) (htaken : syn = true ∨ a ≠ 0) :
      rxIndex (rxMark s q syn) q syn = some (if syn then a else a - 1) := ha ▸ rxIndex_of_taken hisn (ha ▸ htaken)
  have hbound (hstream : StreamOk s.ibs) {k : Nat} (hk : rxIndex (rxMark s q syn) q syn = some k) : k < two64 :=
    rxIndex_lt ((rxMark_ibs s q syn).symm ▸ hstream) hk
  refine ⟨fun hisn => ?_, fun _ hsyn hzero => ?_, fun hisn htaken hok hroom => ?_, fun hisn htaken hstream r hr => ?_⟩
  · exact exec_rxReceive_dropped (rxIndex_of_noSyn hisn q syn) d fin
  · subst hsyn
    exact exec_rxReceive_dropped (rxIndex_of_stray (ha ▸ hzero)) d fin
  · have hk := hindex hisn htaken
    have hword : idx.toNat = if syn then a else a - 1 :=
      (BitVec.toNat_ofNat _ _).trans (Nat.mod_eq_of_lt (hbound hok.1 hk))
    have hokMark : InboundOk (rxMark s q syn) := inboundOk_congr (rxMark_ibs s q syn) (rxMark_ra s q syn) hok
    refine ⟨_, exec_raInsert hokMark ((rxMark_ibs s q syn).symm ▸ hroom) idx d fin, ?_⟩
    rw [exec_rxReceive_taken hk hok hroom, hword, answered, raInsert_resps, rxMark_resps]
    rfl
  · have hk := hindex hisn htaken
    rw [exec_refused_iff] at hr ⊢
    rw [stops_rxReceive_taken hk (hbound hstream hk)]
    exact hr

/-! The next segment in order -/

/-- The next segment in order is taken, at the index IBS expects. At the very end of the number space, where only an empty
payload fits, it is taken at an index that does not matter. -/
theorem rxIndex_next {s : State} (h : s.ibs.pushed < two64) (hisn : s.rx.isnReceived = true) :
    ∃ idx, rxIndex s (wrap (s.ibs.pushed + 1) s.rx.zero) false = some idx ∧
      (s.ibs.pushed + 1 < two64 → idx = s.ibs.pushed) := by
  have hmod := wrap_sub_toNat (s.ibs.pushed + 1) s.rx.zero
  by_cases hlt : s.ibs.pushed + 1 < two64
  · have habs : rxAbs s (wrap (s.ibs.pushed + 1) s.rx.zero) = s.ibs.pushed + 1 :=
      unwrap_eq_of_window hlt hlt hmod.symm (by omega) (.inl (by omega))
    refine ⟨_, rxIndex_of_taken hisn (.inr ?_), fun _ => ?_⟩
    · rw [habs]
      exact Nat.succ_ne_zero _
    · rw [habs]
      rfl
  · have hhigh := (unwrap_spec (wrap (s.ibs.pushed + 1) s.rx.zero) s.rx.zero (s.ibs.pushed + 1) h).2.2.2
    refine ⟨_, rxIndex_of_taken hisn (.inr ?_), fun hlt' => absurd hlt' hlt⟩
    rw [rxAbs]
    simp only [two32, two64] at *
    omega

/-- A fragment that starts at `U` and fits is the whole run, when nothing was stored, and nothing of it is left. -/
theorem flushed_next {s : State} {f : Nat} {d : List Byte} (hstore : s.ra.store = []) (hfit : d.length ≤ s.ibs.avail)
    (hf : d = [] ∨ f = s.windowStart) : Flushed (filled s f d) s.windowStart d [] := by
  have hend : s.windowEnd = s.windowStart + s.ibs.avail := rfl
  have hfill : ∀ i, s.windowStart ≤ i → filled s f d i = d[i - s.windowStart]? := by
    intro i hi
    rw [filled_eq, hstore, Memory.read, table_read_nil, Option.none_or, offered]
    rcases hf with rfl | rfl
    · rw [List.getElem?_nil, List.getElem?_nil, ite_self]
    · split
      · rfl
      · rw [List.getElem?_eq_none (by omega)]
  have hbelow : ∀ i, i < s.windowStart → filled s f d i = none := by
    intro i hi
    rw [filled_eq, hstore, Memory.read, table_read_nil, Option.none_or, offered_eq_none_iff]
    omega
  refine ⟨fun j _ => ?_, ?_, rfl, fun i => ?_⟩
  · rw [hfill _ (Nat.le_add_right _ _), Nat.add_sub_cancel_left]
  · rw [hfill _ (Nat.le_add_right _ _), Nat.add_sub_cancel_left, List.getElem?_eq_none le_rfl]
  · rw [Memory.read, table_read_nil]
    split
    · rfl
    · rcases Nat.lt_or_ge i s.windowStart with hlow | hhigh
      · rw [hbelow i hlow]
      · rw [hfill i hhigh, List.getElem?_eq_none (by omega)]

/-- On an open stream whose terminator is not known such a fragment is appended to IBS, whose other fields stay. -/
theorem raInsert_next_ibs {s : State} {f : Nat} {d : List Byte} (h : StoreOk s) (hclosed : s.ibs.closed = false)
    (herror : s.ibs.error = false) (hstore : s.ra.store = []) (hseen : s.ra.lastSeen = false)
    (hfit : d.length ≤ s.ibs.avail) (hf : d = [] ∨ f = s.windowStart) :
    (raInsert s f d false).ibs =
      { s.ibs with buffer := s.ibs.buffer ++ d, pushed := s.ibs.pushed + d.length } := by
  obtain ⟨run, store, hins⟩ := raInsert_inserted h hclosed herror f d false
  obtain ⟨rfl, rfl⟩ := hins.flushed.unique (flushed_next hstore hfit hf)
  rw [hins.ibs, hseen, ByteStream.mk.injEq]
  exact ⟨rfl, rfl, rfl, rfl, hclosed.symm, rfl⟩

/-- The acknowledgement of a receiver that has seen the SYN of a stream still open (R222). -/
theorem rxAck_ackno_of_open {s : State} (hisn : s.rx.isnReceived = true) (hclosed : s.ibs.closed = false) :
    (rxAck s).ackno = some (wrap (s.ibs.pushed + 1) s.rx.zero) := by
  rw [rxAck, hisn, hclosed, wrap, Nat.add_comm s.ibs.pushed 1]
  rfl

/-- The window is clamped to what its field can hold (R222). -/
theorem rxAck_windowSize_toNat (s : State) : (rxAck s).windowSize.toNat = min s.ibs.avail 65535 :=
  (BitVec.toNat_ofNat _ _).trans (Nat.mod_eq_of_lt ((Nat.min_le_right _ _).trans_lt (Nat.lt_succ_self 65535)))

/-- Settles O34: the segment is taken at the index IBS expects, where the whole of it is the run. -/
theorem rxDeliversInOrder : Obligations.RxDeliversInOrder := by
  intro s d hok hisn hclosed herror hstore hseen hfit hroom
  obtain ⟨hcount, hbuffer, hpushed⟩ := hok.1
  obtain ⟨idx, hidx, hnext⟩ := rxIndex_next hpushed hisn
  have hf : d = [] ∨ idx = s.windowStart := by
    rcases Nat.eq_zero_or_pos d.length with hnil | hpos
    · exact .inl (List.eq_nil_of_length_eq_zero hnil)
    · exact .inr (hnext (by simp only [two64]; omega))
  have hibs := raInsert_next_ibs hok.2 hclosed herror hstore hseen hfit hf
  have hrx := raInsert_rx s idx d false
  refine ⟨_, exec_rxReceive_taken (syn := false) hidx hok hroom d false, hibs, ?_, ?_⟩
  · refine (rxAck_ackno_of_open (s := raInsert s idx d false) ?_ ?_).trans ?_
    · rw [hrx, hisn]
    · rw [hibs, hclosed]
    · rw [hibs, hrx]
  · refine (rxAck_windowSize_toNat (raInsert s idx d false)).trans ?_
    rw [hibs, ByteStream.avail, List.length_append, Nat.sub_add_eq]

/-! RX.SEND -/

theorem rflagBool_eq (b : Bool) : rflagBool b = if b then 1#8 else 0#8 := by
  cases b <;> rfl

/-- The answer that carries an AckMsg, in bytes (R116). -/
theorem respond_ackMsg (s : State) (op : Op) (m : AckMsg) :
    s.respond (Response.ackMsg op m) =
      answered s ([op.code, if m.ackno.isSome then 1#8 else 0#8, 0#8, 0#8] ++ bytes32 (optWord m.ackno) ++
        bytes32 (m.windowSize.setWidth 32)) := by
  rw [← rflagBool_eq]
  exact respond_noPayload s op _ _

/-- The window as a result word, zero-extended (R116). -/
theorem rxAck_windowSize_word (s : State) :
    (rxAck s).windowSize.setWidth 32 = BitVec.ofNat 32 (min s.ibs.avail 65535) := by
  rw [← rxAck_windowSize_toNat, BitVec.ofNat_toNat]

/-- R150 in numbers, the reduction left to the width. -/
theorem add32_eq_ofNat_add (a : U32) (k : Nat) : add32 a k = BitVec.ofNat 32 (a.toNat + k) := by
  rw [add32, BitVec.ofNat_add, BitVec.ofNat_toNat, BitVec.setWidth_eq]

/-- The acknowledgement number in numbers, once a SYN has been received (R222). -/
theorem rxAck_ackno_eq (s : State) :
    (rxAck s).ackno =
      if s.rx.isnReceived then
        some (BitVec.ofNat 32 (s.rx.zero.toNat + (1 + s.ibs.pushed + if s.ibs.closed then 1 else 0)))
      else none := by
  rw [rxAck, add32_eq_ofNat_add]

/-- Settles O35: RX.SEND is an observer, and what it answers is `rxAck`, with or without a number. -/
theorem rxSendResult : Obligations.RxSendResult := by
  intro s window ackno
  rw [exec_observer_reply (by decide), reply, respond_ackMsg, rxAck_windowSize_word, rxAck_ackno_eq]
  cases s.rx.isnReceived <;> rfl

end Sys2Proof.Proofs
end

section
/-! SUPPORT. The TCPSender family, what the sender answers and takes (spec/44_tcp_sender.md R232 to R237): the results of
TX.MAYBE_SEND, TX.RECEIVE, TX.TICK and of the commands that only observe the sender. -/

namespace Sys2Proof.Proofs

open Sys2Proof.Machine Sys2Proof.Safety Sys2Proof.Laws

/-! Segments at the response port -/

theorem rflagSegment_eq (syn fin : Bool) :
    rflagSegment syn fin = 1#8 ||| (if syn then 2#8 else 0#8) ||| (if fin then 4#8 else 0#8) := by
  cases syn <;> cases fin <;> rfl

theorem exec_txMaybeSend (s : State) :
    exec .txMaybeSend s =
      .next ((s.setTx { s.tx with ready := s.tx.ready.tail }).respond (Response.segment .txMaybeSend s.tx.ready.head?)) :=
  exec_of_not_stops rfl

/-- Settles O40: the head of `ready` decides between the two answers; RLEN counts a payload below 65536 bytes. -/
theorem txMaybeSendResult : Obligations.TxMaybeSendResult := by
  intro s
  refine ⟨fun hnil => ?_, ?_⟩
  · have hkept : s.setTx { s.tx with ready := s.tx.ready.tail } = s := by rw [hnil, List.tail_nil, ← hnil]; rfl
    rw [exec_txMaybeSend, hkept, hnil]
    exact congrArg Host.Outcome.next (respond_noPayload s .txMaybeSend 0#8 [0#32])
  · intro g rest hcons flags n
    have hexec : exec .txMaybeSend s =
        .next (State.respond { s with tx := { s.tx with ready := rest } }
          { op := .txMaybeSend, flags := flags, words := [g.seqno], payload := g.payload }) := by
      rw [exec_txMaybeSend, hcons, List.head?_cons, Response.segment, rflagSegment_eq]
      rfl
    refine ⟨fun hshort => ?_, hexec⟩
    have hcode : Op.txMaybeSend.code = 0x51#8 := rfl
    rw [hexec, respond_short _ _ hshort, List.flatMap_singleton, hcode]

/-! The observers -/

/-- The next sequence number in numbers (R45). -/
theorem nextSeqno_eq (t : Sender) : nextSeqno t = BitVec.ofNat 32 (t.isn.toNat + t.cursor) := add32_eq_ofNat_add _ _

theorem exec_txSendEmpty (s : State) :
    exec .txSendEmpty s = .next (answered s ([0x54#8, 1#8, 0#8, 0#8] ++ bytes32 (nextSeqno s.tx))) := by
  rw [exec_observer_reply (by decide)]
  have hflags : rflagSegment false false = 1#8 := rflagSegment_eq false false
  refine congrArg Host.Outcome.next ((respond_noPayload s .txSendEmpty _ [nextSeqno s.tx]).trans ?_)
  rw [List.flatMap_singleton, emptySegment, hflags]
  rfl

/-- Settles O44: the three observe, TX.SEND_EMPTY answers one word and the other two a number each. -/
theorem txObserverResults : Obligations.TxObserverResults := by
  intro s long
  refine ⟨?_, exec_observer_nat64 .txInFlight (by decide) rfl, ?_⟩
  · rw [exec_txSendEmpty, nextSeqno_eq]
  · have h := exec_observer_nat64 .txRetx (i := .txRetx) (s := s) (by decide) rfl
    rw [BitVec.ofNat_toNat, BitVec.setWidth_eq] at h
    exact h

/-! The acknowledgement -/

/-- An acknowledgement beyond the cursor leaves only the window behind (R233). -/
theorem ackSender_of_beyond {t : Sender} {ackno : U32} (window : U16) (h : t.cursor < unwrap ackno t.isn t.cursor) :
    ackSender t ⟨some ackno, window⟩ = { t with win := window } := by
  simp only [ackSender, if_pos h, drop_eq]

theorem retire_of_kept {t : Sender} {a : Nat} (h : t.outstanding.dropWhile (covered a) = t.outstanding) :
    retire t a = t := by
  rcases retire_cases t a with ⟨he, -⟩ | ⟨-, hne⟩
  · exact he
  · exact absurd h hne

theorem retire_of_moved {t : Sender} {a : Nat} (h : t.outstanding.dropWhile (covered a) ≠ t.outstanding) :
    retire t a =
      { t with outstanding := t.outstanding.dropWhile (covered a), rtoCur := t.rto0, t := 0#64, retx := 0#64 } := by
  rcases retire_cases t a with ⟨-, hkept⟩ | ⟨he, -⟩
  · exact absurd hkept h
  · exact he

/-- TX.RECEIVE answers its bare header over the sender that `ackSender` gives. -/
theorem exec_txReceive_of_eq {s : State} {ackno : Option U32} {window : U16} {t : Sender}
    (h : ackSender s.tx ⟨ackno, window⟩ = t) :
    exec (.txReceive ackno window) s = .next (answered { s with tx := t } [0x52#8, 0#8, 0#8, 0#8]) :=
  h ▸ exec_bare .txReceive rfl rfl

/-- Settles O41: the acknowledgement is absent, beyond the cursor, or retires a front part of `outstanding`, which may be
empty. -/
theorem txReceiveResult : Obligations.TxReceiveResult := by
  intro s window
  refine ⟨exec_txReceive_of_eq rfl, ?_⟩
  intro ackno a kept
  refine ⟨fun hbeyond => ?_, fun hle hkept => ?_, fun hle hmoved => ?_⟩
  · exact exec_txReceive_of_eq (ackSender_of_beyond window hbeyond)
  · exact exec_txReceive_of_eq ((ackSender_of_le window hle).trans (retire_of_kept (t := { s.tx with win := window }) hkept))
  · exact exec_txReceive_of_eq ((ackSender_of_le window hle).trans (retire_of_moved (t := { s.tx with win := window }) hmoved))

/-! The retransmission timer -/

/-- Before the timeout, or with nothing outstanding, only time passes (R234). -/
theorem tickSender_of_quiet {t : Sender} {delta : U64}
    (h : t.outstanding = [] ∨ (addTime t.t delta).toNat < t.rtoCur.toNat) :
    tickSender t delta = { t with t := addTime t.t delta } := by
  unfold tickSender
  cases hout : t.outstanding with
  | nil => rfl
  | cons oldest rest =>
    rw [hout] at h
    exact if_neg (Nat.not_le.2 (h.resolve_left (List.cons_ne_nil _ _)))

/-- At the timeout the alarm goes off for the oldest segment (R234). -/
theorem tickSender_of_timeout {t : Sender} {delta : U64} {oldest : InFlight} {rest : List InFlight}
    (hout : t.outstanding = oldest :: rest) (h : t.rtoCur.toNat ≤ (addTime t.t delta).toNat) :
    tickSender t delta = alarm { t with t := addTime t.t delta } oldest := by
  simp only [tickSender, hout]
  exact if_pos h

/-- Under a zero stored window the alarm does not back off (R346). -/
theorem alarm_of_zeroWindow {t : Sender} (h : t.win = 0#16) (oldest : InFlight) :
    alarm t oldest = { t with ready := oldest.seg :: t.ready, t := 0#64 } := if_pos h

theorem alarm_of_openWindow {t : Sender} (h : t.win ≠ 0#16) (oldest : InFlight) :
    alarm t oldest =
      { t with
        ready := oldest.seg :: t.ready
        t := 0#64
        retx := sat64 (t.retx.toNat + 1)
        rtoCur := sat64 (2 * t.rtoCur.toNat) } := if_neg h

theorem alarm_ready (t : Sender) (oldest : InFlight) : (alarm t oldest).ready = oldest.seg :: t.ready := by
  by_cases h : t.win = 0#16
  · rw [alarm_of_zeroWindow h]
  · rw [alarm_of_openWindow h]

/-- TX.TICK answers its bare header over the sender that `tickSender` gives. -/
theorem exec_txTick_of_eq {s : State} {delta : U64} {t : Sender} (h : tickSender s.tx delta = t) :
    exec (.txTick delta) s = .next (answered { s with tx := t } [0x53#8, 0#8, 0#8, 0#8]) :=
  h ▸ exec_bare .txTick rfl rfl

/-- Settles O43: the saturated sum is held against the timeout, and the stored window decides on the back-off. -/
theorem txTickResult : Obligations.TxTickResult := by
  intro delta s now
  have hnow : (addTime s.tx.t delta).toNat = now := addTime_toNat _ _
  refine ⟨fun hquiet => ?_, fun oldest rest hout hdue => ?_⟩
  · exact exec_txTick_of_eq (tickSender_of_quiet (hnow ▸ hquiet))
  · have htick := tickSender_of_timeout hout (hnow ▸ hdue)
    exact ⟨fun hwin => exec_txTick_of_eq (htick.trans (alarm_of_zeroWindow hwin oldest)),
      fun hwin => exec_txTick_of_eq (htick.trans (alarm_of_openWindow hwin oldest))⟩

end Sys2Proof.Proofs
end

section
/-! SUPPORT. The TCPSender family, TX.PUSH (spec/44_tcp_sender.md R231): the round in the rule's own numbers, what the loop may
change, and why it stops. -/

namespace Sys2Proof.Proofs

open Sys2Proof.Machine Sys2Proof.Safety Sys2Proof.Laws

/-! One round -/

/-- A round never pulls more than OBS buffers, so that what is left is what lies behind the bytes pulled. -/
theorem pop_pullCount (s : State) (eff : Nat) :
    s.obs.pop (pullCount s eff) =
      { s.obs with buffer := s.obs.buffer.drop (pullCount s eff), popped := s.obs.popped + pullCount s eff } := by
  rw [ByteStream.pop, Nat.min_eq_left (pullCount_le_buffer s eff)]

/-- The segment of a round in numbers (R231). -/
theorem nextSegment_eq (s : State) (eff : Nat) :
    nextSegment s eff =
      { seqno := BitVec.ofNat 32 (s.tx.isn.toNat + s.tx.cursor)
        syn := !s.tx.synSent
        payload := s.obs.buffer.take (pullCount s eff)
        fin := s.obs.closed && (s.obs.buffer.drop (pullCount s eff)).isEmpty &&
          decide (1 ≤ roomForPayload s eff - pullCount s eff) } := by
  rw [nextSegment, nextSeqno_eq, pop_pullCount]
  rfl

/-- The state a round leaves while FIN has not been sent: SYN has been sent by now, FIN exactly when this segment has it. -/
theorem commitSegment_eq {s : State} (hfin : s.tx.finSent = false) (eff : Nat) :
    commitSegment s (nextSegment s eff) =
      { s with
        obs := { s.obs with buffer := s.obs.buffer.drop (pullCount s eff), popped := s.obs.popped + pullCount s eff }
        tx := { s.tx with
                  synSent := true
                  finSent := (nextSegment s eff).fin
                  ready := s.tx.ready ++ [nextSegment s eff]
                  outstanding := s.tx.outstanding ++ [{ abs := s.tx.cursor, seg := nextSegment s eff }]
                  cursor := s.tx.cursor + seqlen (nextSegment s eff) } } := by
  have hsyn : (s.tx.synSent || (nextSegment s eff).syn) = true := Bool.or_not_self _
  rw [commitSegment, nextSegment_payload_length, pop_pullCount, hsyn, hfin, Bool.false_or]
  rfl

/-! The command -/

theorem exec_txPush {s : State} (h : (txPushState s).tx.cursor < two64) :
    exec .txPush s = .next (answered (txPushState s) [0x50#8, 0#8, 0#8, 0#8]) :=
  exec_bare .txPush (if_pos h) rfl

/-- TX.PUSH depends on the state its loop reaches, and on nothing else. -/
theorem exec_txPush_congr {s u : State} (h : txPushState s = txPushState u) : exec .txPush s = exec .txPush u := by
  have harm (v : State) : exec .txPush v = execTxPush v := rfl
  rw [harm, harm, execTxPush, execTxPush, h]

/-- Settles O36: the rule's numbers are `effWindow`, `roomForPayload`, `pullCount` and `nextSegment`; the loop stops or is
unrolled by one round. -/
theorem txPushRound : Obligations.TxPushRound := by
  intro s inFlight eff room n seg
  have hseg : nextSegment s (effWindow s.tx) = seg := nextSegment_eq s _
  refine ⟨fun hcursor hstop => ?_, fun heff hfin hpos => ?_⟩
  · have hstays : txPushState s = s := txPushState_stops s (hseg ▸ hstop)
    rw [exec_txPush (hstays.symm ▸ hcursor), hstays]
  · rw [exec_txPush_congr (txPushState_round s heff hfin (hseg ▸ hpos)), commitSegment_eq hfin, hseg]
    rfl

/-! What the loop moves -/

/-- `u` is `s` after the first `k` bytes of OBS have gone into the segments `sent`, which stand at the end of `ready` and of
`outstanding`. -/
structure Sends (s u : State) (sent : List InFlight) (k : Nat) : Prop where
  bound : k ≤ s.obs.buffer.length
  bytes : (sent.map (fun e => e.seg.payload)).flatten = s.obs.buffer.take k
  obs : u.obs = { s.obs with buffer := s.obs.buffer.drop k, popped := s.obs.popped + k }
  tx : u.tx =
    { s.tx with
      synSent := u.tx.synSent
      finSent := u.tx.finSent
      ready := s.tx.ready ++ sent.map (fun e => e.seg)
      outstanding := s.tx.outstanding ++ sent
      cursor := s.tx.cursor + (sent.map (fun e => seqlen e.seg)).sum }
  afterFin : s.tx.finSent = true → sent = [] ∧ u.tx.finSent = true

theorem Sends.refl (s : State) : Sends s s [] 0 :=
  ⟨Nat.zero_le _, rfl, rfl, by simp, fun h => ⟨rfl, h⟩⟩

/-- A round moves the next bytes of OBS into one more segment. -/
theorem Sends.round {s u : State} {sent : List InFlight} {k : Nat} (h : Sends s u sent k) (hfin : u.tx.finSent = false)
    (eff : Nat) :
    Sends s (commitSegment u (nextSegment u eff)) (sent ++ [{ abs := u.tx.cursor, seg := nextSegment u eff }])
      (k + pullCount u eff) := by
  obtain ⟨hbound, hbytes, hobs, htx, hafter⟩ := h
  have hle : pullCount u eff ≤ s.obs.buffer.length - k := by
    have hpull := pullCount_le_buffer u eff
    rwa [hobs, List.length_drop] at hpull
  have hpayload : (nextSegment u eff).payload = (s.obs.buffer.drop k).take (pullCount u eff) := by
    rw [nextSegment_eq, hobs]
  refine ⟨by omega, ?_, ?_, ?_, fun hs => absurd (hafter hs).2 (by simp [hfin])⟩
  · rw [List.map_append, List.flatten_append, hbytes, List.take_add]
    simp [hpayload]
  · rw [commitSegment_eq hfin, hobs, List.drop_drop, Nat.add_assoc]
  · rw [commitSegment_tx, htx]
    simp [Nat.add_assoc]

theorem txPushState_sends (s : State) : ∃ sent k, Sends s (txPushState s) sent k :=
  txPushState_keeps (P := fun u => ∃ sent k, Sends s u sent k)
    (fun _ eff ⟨_, _, h⟩ _ hfin _ => ⟨_, _, h.round hfin eff⟩) ⟨[], 0, .refl s⟩

/-- Settles O37: a round moves what `Sends` says, and the cursor, which counts the sequence space used, moves no further than
the window. -/
theorem txPushFrame : Obligations.TxPushFrame := by
  intro s hroom
  obtain ⟨sent, k, h⟩ := txPushState_sends s
  have hcursor : (txPushState s).tx.cursor = s.tx.cursor + (sent.map (fun e => seqlen e.seg)).sum := by rw [h.tx]
  have hsum : (sent.map (fun e => seqlen e.seg)).sum ≤ effWindow s.tx := by
    have hmoved := hcursor.symm.trans (txPushState_cursor s)
    split at hmoved <;> omega
  have hfits : (txPushState s).tx.cursor < two64 := by
    have hwindow := effWindow_le s.tx
    simp only [two64]
    omega
  refine ⟨sent, k, (txPushState s).tx.synSent, (txPushState s).tx.finSent, h.bound, h.bytes, hsum,
    (pushKeeps_txPush s).sender.synSent, h.afterFin, ?_⟩
  rw [exec_txPush hfits, txPushState_eq_set, h.obs, h.tx]
  rfl

/-! Why the loop stops -/

/-- A round that builds nothing although a unit of window is left finds the SYN sent, and OBS empty and open (R231 corners
(f), (g)). -/
theorem nothing_due_of_seqlen_eq_zero {s : State} {eff : Nat} (heff : 0 < eff) (h : seqlen (nextSegment s eff) = 0) :
    s.tx.synSent = true ∧ s.obs.buffer = [] ∧ s.obs.closed = false := by
  have hfin := nextSegment_fin s eff
  rw [seqlen_nextSegment] at h
  have hsyn : s.tx.synSent = true := by
    by_contra hs
    simp [hs] at h
  have hroom : roomForPayload s eff = eff := if_pos hsyn
  have hnil : s.obs.buffer.length = 0 := by
    have hpull : pullCount s eff = min (roomForPayload s eff) (min Config.maxPayloadSize s.obs.buffer.length) := rfl
    have hmax : Config.maxPayloadSize = 1452 := rfl
    omega
  refine ⟨hsyn, List.eq_nil_of_length_eq_zero hnil, ?_⟩
  by_contra hclosed
  rw [hfin.2 ⟨by simpa using hclosed, by omega, by omega⟩] at h
  simp at h

/-- When the loop is done another round would stop at once. -/
theorem txPushState_done (s : State) :
    effWindow (txPushState s).tx = 0 ∨ (txPushState s).tx.finSent = true ∨
      seqlen (nextSegment (txPushState s) (effWindow (txPushState s).tx)) = 0 := by
  induction hw : effWindow s.tx using Nat.strong_induction_on generalizing s with
  | _ w ih =>
    by_cases hstop : effWindow s.tx = 0 ∨ s.tx.finSent = true ∨ seqlen (nextSegment s (effWindow s.tx)) = 0
    · rwa [txPushState_stops s hstop]
    · simp only [not_or, Bool.not_eq_true] at hstop
      obtain ⟨heff, hfin, hpos⟩ := hstop
      rw [txPushState_round s (Nat.pos_of_ne_zero heff) hfin (Nat.pos_of_ne_zero hpos)]
      exact ih _ (by rw [effWindow_commit]; omega) _ rfl

/-- Settles O38: of the three reasons to stop, the third is spelled out by `nothing_due_of_seqlen_eq_zero`. -/
theorem txPushSendsAllItCan : Obligations.TxPushSendsAllItCan := by
  intro s t he
  obtain ⟨-, rfl⟩ := exec_next he
  rcases Nat.eq_zero_or_pos (effWindow (txPushState s).tx) with hzero | hpos
  · exact .inl hzero
  · rcases txPushState_done s with hzero | hfin | hnothing
    · exact .inl hzero
    · exact .inr (.inl hfin)
    · exact .inr (.inr (nothing_due_of_seqlen_eq_zero hpos hnothing))

/-! The first segment -/

/-- Under a window of 1 the SYN takes the only unit there is (R231 corner (a)). -/
theorem nextSegment_one_of_synDue {s : State} (hsyn : s.tx.synSent = false) :
    pullCount s 1 = 0 ∧
      nextSegment s 1 = { seqno := nextSeqno s.tx, syn := true, payload := [], fin := false } := by
  have hroom : roomForPayload s 1 = 0 := by
    rw [roomForPayload, hsyn]
    rfl
  have hpull : pullCount s 1 = 0 := by rw [pullCount, hroom, Nat.zero_min]
  refine ⟨hpull, ?_⟩
  have hfin : ((s.obs.pop 0).finished && decide (1 ≤ 0 - 0)) = false := Bool.and_false _
  rw [nextSegment, hpull, hroom, hsyn, List.take_zero, hfin]
  rfl

/-- Settles O39: the first round builds the SYN, and with it the window is used up. -/
theorem txFirstPushIsSynAlone : Obligations.TxFirstPushIsSynAlone := by
  intro s hwin hsyn hfin hcursor hout syn
  obtain ⟨hpull, hnext⟩ := nextSegment_one_of_synDue hsyn
  have hseg : nextSegment s 1 = syn := by
    rw [hnext, nextSeqno_eq, hcursor, Nat.add_zero, BitVec.ofNat_toNat, BitVec.setWidth_eq]
  have heff : effWindow s.tx = 1 := by
    rw [effWindow, inflight, hwin, hout]
    rfl
  have hlen : seqlen syn = 1 := rfl
  have hround : txPushState s = commitSegment s syn := by
    rw [txPushState_round s (by omega) hfin (by rw [heff, hseg, hlen]; exact Nat.one_pos), heff, hseg]
    exact txPushState_stops _ (.inl (by rw [effWindow_commit, heff, hlen]))
  have hfits : (txPushState s).tx.cursor < two64 := by
    have hcount : (commitSegment s syn).tx.cursor = s.tx.cursor + seqlen syn := rfl
    rw [hround, hcount, hcursor, hlen]
    decide
  have hkept : syn.fin = s.tx.finSent := hfin.symm
  rw [exec_txPush hfits, hround, ← hseg, commitSegment_eq hfin, hpull, hseg, hcursor, hlen, hout, hkept]
  rfl

end Sys2Proof.Proofs
end

section
/-! SUPPORT. The TCPSender family, the outbound side as a piece of one stream (spec/44_tcp_sender.md R238). -/

namespace Sys2Proof.Proofs

open Sys2Proof.Machine Sys2Proof.Safety Sys2Proof.Laws

section

variable {x : Nat → Byte}

theorem sendsStream_resetWith (p : Config.Params) (draws : Nat) : SendsStream x (State.resetWith p draws) :=
  ⟨carriesAt_nil _, rfl, fun _ he => absurd he List.not_mem_nil, fun _ hg => absurd hg List.not_mem_nil⟩

/-! BS.PUSH -/

/-- What BS.PUSH appends continues the buffer where it ends, at `bytes_pushed` (R24, R238). -/
theorem sendsStream_push {s : State} {d : List Byte} (hok : StreamOk s.obs) (h : SendsStream x s)
    (hd : CarriesAt x s.obs.pushed (d.take (s.obs.accepts d))) : SendsStream x (s.setObs (s.obs.push d)) := by
  obtain ⟨hbuffer, hrest⟩ := h
  exact ⟨carriesAt_append hbuffer (hok.1 ▸ hd), hrest⟩

/-! TX.PUSH -/

/-- A round's segment starts where the cursor stands: at 0 with the SYN, else one past the bytes popped so far (R231, R238). -/
theorem segmentCarries_nextSegment {s : State} (hsyn : s.tx.synSent = true ↔ 0 < s.tx.cursor)
    (hfin : s.tx.finSent = false) (h : SendsStream x s) (eff : Nat) :
    SegmentCarries x s.tx.isn s.tx.cursor (nextSegment s eff) := by
  obtain ⟨hbuffer, hcursor, -⟩ := h
  have hflag : (nextSegment s eff).syn = !s.tx.synSent := rfl
  have hstart : (if (nextSegment s eff).syn then 0 else s.tx.cursor - 1) = s.obs.popped := by
    cases hs : s.tx.synSent <;> grind
  refine ⟨rfl, ?_, hstart ▸ carriesAt_take hbuffer _⟩
  rw [hflag, Bool.not_eq_true', ← Bool.not_eq_true, hsyn, Nat.pos_iff_ne_zero, not_not]

/-- The cursor counts a round's SYN, its bytes, which are popped, and its FIN. -/
theorem cursor_commit {s : State} (hfin : s.tx.finSent = false)
    (h : s.tx.cursor = (if s.tx.synSent then 1 else 0) + s.obs.popped + (if s.tx.finSent then 1 else 0)) (eff : Nat) :
    let u := commitSegment s (nextSegment s eff)
    u.tx.cursor = (if u.tx.synSent then 1 else 0) + u.obs.popped + (if u.tx.finSent then 1 else 0) := by
  have hlen := seqlen_nextSegment s eff
  rw [commitSegment_eq hfin, hlen, h]
  grind

/-- A round carries the stream on: the bytes it pops from OBS are those of the segment it queues. -/
theorem sendsStream_commit {s : State} (hsyn : s.tx.synSent = true ↔ 0 < s.tx.cursor) (hfin : s.tx.finSent = false)
    (h : SendsStream x s) (eff : Nat) : SendsStream x (commitSegment s (nextSegment s eff)) := by
  have hseg := segmentCarries_nextSegment hsyn hfin h eff
  obtain ⟨hbuffer, hcursor, hout, hready⟩ := h
  refine ⟨carriesAt_drop hbuffer _, cursor_commit hfin hcursor eff, fun e he => ?_, fun g hg => ?_⟩
  · rcases List.mem_append.1 he with he | he
    · exact hout e he
    · rw [List.mem_singleton.1 he]
      exact hseg
  · rcases List.mem_append.1 hg with hg | hg
    · exact hready g hg
    · rw [List.mem_singleton.1 hg]
      exact ⟨s.tx.cursor, hseg⟩

/-- The loop takes the sender's shape along: a round needs to know that the SYN is due exactly at 0. -/
theorem sendsStream_txPush {s : State} (hok : SenderShape s.tx) (h : SendsStream x s) : SendsStream x (txPushState s) :=
  (txPushState_keeps (P := fun u => SenderShape u.tx ∧ SendsStream x u)
    (fun _ eff ⟨hu, hx⟩ _ hfin hpos => by
      have ⟨_, _, hsyn, _⟩ := hu
      exact ⟨senderShape_commit hu hfin hpos, sendsStream_commit hsyn hfin hx eff⟩)
    ⟨hok, h⟩).2

/-! The other commands -/

/-- A command that moves neither the bytes of OBS nor the cursor, leaves no entry outstanding but old ones, and queues no
segment but those queued or outstanding before, keeps the stream. -/
theorem sendsStream_of_listed {i : Instr} {s t : State} (hlist : OutboundListed i s t) (hop : i.op ∉ [Op.bsPush, .txPush])
    (hout : ∀ e ∈ t.tx.outstanding, e ∈ s.tx.outstanding)
    (hready : ∀ g ∈ t.tx.ready, g ∈ s.tx.ready ∨ ∃ e ∈ s.tx.outstanding, g = e.seg) (h : SendsStream x s) :
    SendsStream x t := by
  obtain ⟨hbuffer, hcount, hentries, hqueue⟩ := h
  obtain ⟨hpopped, hcursor, hsyn, hfin⟩ := hlist.sent fun he => hop (by simp [he])
  have hisn := hlist.sender.isn
  refine ⟨?_, ?_, fun e he => ?_, fun g hg => ?_⟩
  · rw [hlist.buffer hop, hpopped]
    exact hbuffer
  · rw [hcursor, hsyn, hpopped, hfin, hcount]
  · rw [hisn]
    exact hentries e (hout e he)
  · rw [hisn]
    rcases hready g hg with hold | ⟨e, he, rfl⟩
    · exact hqueue g hold
    · exact ⟨e.abs, hentries e he⟩

/-- A command that writes neither `outstanding` nor `ready` needs no more than that. -/
theorem sendsStream_of_frame {i : Instr} {s t : State} (hlist : OutboundListed i s t)
    (hop : i.op ∉ [Op.bsPush, .txPush, .txReceive, .txMaybeSend, .txTick]) (h : SendsStream x s) : SendsStream x t := by
  simp only [List.mem_cons, not_or] at hop
  obtain ⟨hpush, hsend, hack, hdequeue, htick, -⟩ := hop
  refine sendsStream_of_listed hlist (by simp [hpush, hsend]) ?_ ?_ h
  · rw [hlist.outstanding (by simp [hsend, hack])]
    exact fun _ he => he
  · rw [hlist.ready (by simp [hsend, hdequeue, htick])]
    exact fun _ hg => .inl hg

/-- An acknowledgement leaves a rear part of `outstanding` (R233). -/
theorem ackSender_outstanding_subset (t : Sender) (m : AckMsg) : (ackSender t m).outstanding ⊆ t.outstanding := by
  rcases ackSender_cases t m with he | ⟨a, he⟩
  · rw [he]
    exact List.Subset.refl _
  · rw [he, retire_outstanding]
    exact (List.dropWhile_suffix _).subset

/-- TX.TICK queues at most the oldest outstanding segment (R234). -/
theorem tickSender_ready (t : Sender) (delta : U64) :
    ∀ g ∈ (tickSender t delta).ready, g ∈ t.ready ∨ ∃ e ∈ t.outstanding, g = e.seg := by
  intro g hg
  by_cases hquiet : t.outstanding = [] ∨ (addTime t.t delta).toNat < t.rtoCur.toNat
  · rw [tickSender_of_quiet hquiet] at hg
    exact .inl hg
  · simp only [not_or, not_lt] at hquiet
    obtain ⟨hne, hdue⟩ := hquiet
    obtain ⟨oldest, rest, hout⟩ := List.exists_cons_of_ne_nil hne
    rw [tickSender_of_timeout hout hdue, alarm_ready] at hg
    rcases List.mem_cons.1 hg with rfl | hold
    · exact .inr ⟨oldest, by rw [hout]; exact List.mem_cons_self, rfl⟩
    · exact .inl hold

theorem sendsStream_effect {i : Instr} {s : State} (hok : OutboundOk s) (h : SendsStream x s)
    (hpush : ∀ d, i = .bsPush d → CarriesAt x s.obs.pushed (d.take (s.obs.accepts d))) (hi : i ≠ .sysReset)
    (hstop : stops i s = none) : SendsStream x (effect i s) := by
  have hlist := outboundListed_effect hi hstop
  obtain ⟨hstream, hsender, -⟩ := hok
  cases i
  case bsPush d => exact sendsStream_push hstream h (hpush d rfl)
  case txPush => exact sendsStream_txPush ((senderOk_iff _).1 hsender).1 h
  case txReceive ackno window =>
    have hready := hlist.ready (by simp [Instr.op])
    exact sendsStream_of_listed hlist (by simp [Instr.op]) (ackSender_outstanding_subset s.tx ⟨ackno, window⟩)
      (fun _ hg => .inl (hready ▸ hg)) h
  case txMaybeSend =>
    exact sendsStream_of_listed hlist (by simp [Instr.op]) (fun _ he => he) (fun _ hg => .inl (List.mem_of_mem_tail hg)) h
  case txTick delta =>
    have hout := hlist.outstanding (by simp [Instr.op])
    exact sendsStream_of_listed hlist (by simp [Instr.op]) (fun _ he => hout ▸ he) (tickSender_ready s.tx delta) h
  all_goals exact sendsStream_of_frame hlist (by simp [Instr.op]) h

end

/-- Settles O46: BS.PUSH continues the stream at its end, TX.PUSH moves bytes from OBS into a segment that starts at the
cursor, and whatever else is queued or kept was outstanding or queued before. -/
theorem outboundCarriesTheStream : Obligations.OutboundCarriesTheStream := by
  refine ⟨fun _ => sendsStream_resetWith, fun x i s t hok h hpush hi he => ?_⟩
  obtain ⟨hstop, rfl⟩ := exec_next he
  exact sendsStream_effect hok h hpush hi hstop

end Sys2Proof.Proofs
end

section
/-! SUPPORT. The NetworkInterface family (spec/45_network_interface.md R270 to R277): one equation per case of NiSend, of
NI.RECV_FRAME and of the tick, and from them the result of each command. -/

namespace Sys2Proof.Proofs

open Sys2Proof.Machine Sys2Proof.Safety Sys2Proof.Laws

/-! Commands addressed to an interface -/

theorem setIf_self {s : State} {k : Nat} {n : NetIf} (hn : s.ni[k]? = some n) : s.setIf k n = s := by
  obtain ⟨hk, rfl⟩ := List.getElem?_eq_some_iff.1 hn
  rw [State.setIf, List.set_getElem_self]
  rfl

/-- A command addressed to an interface that exists is not refused (R119). -/
theorem stops_niIface {i : Instr} {s : State} {w : U32} {n : NetIf}
    (hop : i.op ∈ [Op.niSendDgram, .niRecvFrame, .niTick, .niMaybeSend]) (hw : i.iface = some w)
    (hn : s.ni[w.toNat]? = some n) : stops i s = none := by
  obtain ⟨hlt, -⟩ := List.getElem?_eq_some_iff.1 hn
  cases i
  case niSendDgram | niRecvFrame | niTick | niMaybeSend =>
    cases hw
    exact if_pos hlt
  all_goals simp [Instr.op] at hop

section

variable {s : State} {i : U32} {n : NetIf}

theorem exec_niSendDgram (hn : s.ni[i.toNat]? = some n) {ip : U32} {dgram : List Byte} {n' : NetIf}
    (h : n.send s.params.codec dgram ip = n') :
    exec (.niSendDgram i ip dgram) s = .next (answered (s.setIf i.toNat n') [0x60#8, 0#8, 0#8, 0#8]) := by
  have heffect : effect (.niSendDgram i ip dgram) s = s.setIf i.toNat n' := by simp only [effect, hn, h]
  exact heffect ▸ exec_bare .niSendDgram (stops_niIface (by simp [Instr.op]) rfl hn) rfl

theorem exec_niTick (hn : s.ni[i.toNat]? = some n) (delta : U64) :
    exec (.niTick i delta) s = .next (answered (s.setIf i.toNat (n.tick delta)) [0x62#8, 0#8, 0#8, 0#8]) := by
  have heffect : effect (.niTick i delta) s = s.setIf i.toNat (n.tick delta) := by simp only [effect, hn]
  exact heffect ▸ exec_bare .niTick (stops_niIface (by simp [Instr.op]) rfl hn) rfl

theorem exec_niRecvFrame (hn : s.ni[i.toNat]? = some n) {bytes : List Byte} {q : Bool} {n' : NetIf} {d : Option Datagram}
    (h : n.receive s.params.codec bytes q = (n', d)) :
    exec (.niRecvFrame i bytes q) s =
      .next ((s.setIf i.toNat n').respond (Response.optBytes .niRecvFrame (d.map (serializeIpv4 s.params.codec)))) := by
  rw [exec_of_not_stops (stops_niIface (by simp [Instr.op]) rfl hn)]
  simp only [effect, reply, hn, h]

theorem exec_niMaybeSend (hn : s.ni[i.toNat]? = some n) :
    exec (.niMaybeSend i) s =
      .next ((s.setIf i.toNat { n with outQueue := n.outQueue.tail }).respond
        (Response.optBytes .niMaybeSend (n.outQueue.head?.map serializeFrame))) := by
  rw [exec_of_not_stops (stops_niIface (by simp [Instr.op]) rfl hn)]
  simp only [effect, reply, hn]

end

/-- Nothing to give: VALID is clear and there is no payload (R116). -/
theorem respond_optBytes_none (s : State) (op : Op) :
    s.respond (Response.optBytes op none) = answered s [op.code, 0#8, 0#8, 0#8] := respond_noPayload s op 0#8 []

/-- A payload that RLEN can count, behind a header with VALID set (R115, R116). -/
theorem respond_optBytes_some (s : State) (op : Op) {p : List Byte} (hshort : p.length < 65536) :
    s.respond (Response.optBytes op (some p)) =
      answered s ([op.code, 1#8, BitVec.ofNat 8 (p.length / 256), BitVec.ofNat 8 p.length] ++ p) := by
  refine (respond_short s (Response.optBytes op (some p)) hshort).trans ?_
  rw [Response.optBytes, List.flatMap_nil, List.append_nil, rflagBool_eq]
  rfl

/-! NI.SEND_DGRAM -/

section

variable {n : NetIf} {ip : U32} (c : Config.Codec) (d : List Byte)

/-- A cached next hop, of whatever age, is used at once (R271). -/
theorem send_of_cached {e : ArpEntry} (h : Table.read n.arpCache ip.toNat = some e) :
    n.send c d ip = n.enqueue (ipv4Frame n e.eth d) := by
  simp only [NetIf.send, h]

/-- While a request cools down the datagram is only parked (R271). -/
theorem send_of_coolingDown (h : Table.read n.arpCache ip.toNat = none) (hcool : Table.has n.arpInflight ip.toNat = true) :
    n.send c d ip =
      { n with pending := Table.write n.pending ip.toNat (n.parkedFor ip ++ [parkedFrame n d]) } := by
  simp only [NetIf.send, h, hcool, if_true]

/-- With no request in its cool-down the datagram is parked and the address asked for (R271, R275). -/
theorem send_of_unresolved (h : Table.read n.arpCache ip.toNat = none)
    (hcool : Table.has n.arpInflight ip.toNat = false) :
    n.send c d ip =
      { n with
        pending := Table.write n.pending ip.toNat (n.parkedFor ip ++ [parkedFrame n d])
        outQueue := n.outQueue ++ [arpRequestFor c n ip]
        arpInflight := Table.write n.arpInflight ip.toNat 0#64 } := by
  simp only [NetIf.send, h, hcool, Bool.false_eq_true, if_false, NetIf.enqueue]

end

/-- Settles O47: the cache and then the cool-down table decide among the three cases of NiSend. -/
theorem niSendDgramResult : Obligations.NiSendDgramResult := by
  intro s i ip dgram n hn put parked request
  refine ⟨fun e he => ?_, fun hmiss hcool => ?_, fun hmiss hcool => ?_⟩
  · exact exec_niSendDgram hn (send_of_cached _ _ he)
  · exact exec_niSendDgram hn (send_of_coolingDown _ _ hmiss hcool)
  · exact exec_niSendDgram hn (send_of_unresolved _ _ hmiss hcool)

/-! NI.RECV_FRAME -/

/-- Only a request for the interface's own address is answered (R272, R276). -/
theorem answer_outQueue (c : Config.Codec) (n : NetIf) (m : ArpMessage) :
    (n.answer c m).outQueue =
      n.outQueue ++ (if m.opcode = Config.arpRequest ∧ m.targetIp = n.ip then [arpReplyTo c n m] else []) := by
  unfold NetIf.answer
  split
  · rfl
  · exact (List.append_nil _).symm

section

variable {n : NetIf} {c : Config.Codec} {bytes : List Byte} {q : Bool}

theorem receive_of_unparsed (h : parseFrame bytes = none) : n.receive c bytes q = (n, none) := by
  simp only [NetIf.receive, h, drop_eq]

variable {f : Frame}

theorem receive_of_notForUs (h : parseFrame bytes = some f) (hown : f.dst ≠ n.eth) (hall : f.dst ≠ Config.ethBroadcast) :
    n.receive c bytes q = (n, none) := by
  simp only [NetIf.receive, h]
  exact if_pos ⟨hown, hall⟩

/-- A frame for this interface is told apart by its ethertype (R272). -/
theorem receive_of_forUs (h : parseFrame bytes = some f) (hus : f.dst = n.eth ∨ f.dst = Config.ethBroadcast) :
    (f.etype ≠ Config.ethertypeIpv4 → f.etype ≠ Config.ethertypeArp → n.receive c bytes q = (n, none)) ∧
    (f.etype = Config.ethertypeIpv4 →
      n.receive c bytes q =
        ((parseIpv4 c f.payload).elim (n, none)
          (fun d => if q then ({ n with rxQueue := n.rxQueue ++ [d] }, none) else (n, some d)))) ∧
    (f.etype = Config.ethertypeArp →
      n.receive c bytes q = ((parseArp c f.payload).elim n (fun m => (n.learn m).answer c m), none)) := by
  have hpass : ¬ (f.dst ≠ n.eth ∧ f.dst ≠ Config.ethBroadcast) := fun ⟨hown, hall⟩ => hus.elim hown hall
  simp only [NetIf.receive, h, if_neg hpass, drop_eq]
  refine ⟨fun hip harp => ?_, fun hip => ?_, fun harp => ?_⟩
  · rw [if_neg hip, if_neg harp]
  · rw [if_pos hip]
    cases parseIpv4 c f.payload <;> rfl
  · have hip : f.etype ≠ Config.ethertypeIpv4 := by rw [harp]; decide
    rw [if_neg hip, if_pos harp]
    cases parseArp c f.payload <;> rfl

end

section

variable {s : State} {i : U32} {n : NetIf} {bytes : List Byte} {q : Bool}

/-- With nothing for the host the answer is the bare header over the interface that `receive` leaves. -/
theorem exec_niRecvFrame_silent (hn : s.ni[i.toNat]? = some n) {n' : NetIf}
    (h : n.receive s.params.codec bytes q = (n', none)) :
    exec (.niRecvFrame i bytes q) s = .next (answered (s.setIf i.toNat n') [0x61#8, 0#8, 0#8, 0#8]) := by
  rw [exec_niRecvFrame hn h, Option.map_none, respond_optBytes_none]
  rfl

theorem exec_niRecvFrame_ignored (hn : s.ni[i.toNat]? = some n) (h : n.receive s.params.codec bytes q = (n, none)) :
    exec (.niRecvFrame i bytes q) s = .next (answered s [0x61#8, 0#8, 0#8, 0#8]) := by
  rw [exec_niRecvFrame_silent hn h, setIf_self hn]

/-- A datagram for the host leaves the interface as it is. -/
theorem exec_niRecvFrame_given (hn : s.ni[i.toNat]? = some n) {d : Datagram}
    (h : n.receive s.params.codec bytes q = (n, some d)) :
    exec (.niRecvFrame i bytes q) s =
      .next (s.respond (Response.optBytes .niRecvFrame (some (serializeIpv4 s.params.codec d)))) := by
  rw [exec_niRecvFrame hn h, Option.map_some, setIf_self hn]

end

/-- Settles O48: address, ethertype and payload decide what `receive` does, and only a datagram for the host makes the
answer more than a bare header. -/
theorem niRecvFrameResult : Obligations.NiRecvFrameResult := by
  intro s i bytes q n hn c ignored put
  refine ⟨fun hnone => exec_niRecvFrame_ignored hn (receive_of_unparsed hnone), fun f hf =>
    ⟨fun hown hall => ?_, fun hus => ?_⟩⟩
  · exact exec_niRecvFrame_ignored hn (receive_of_notForUs hf hown hall)
  obtain ⟨hother, hipv4, harp⟩ := receive_of_forUs (c := c) (q := q) hf hus
  refine ⟨fun hnip hnarp => ?_, fun htype hbad => ?_, fun htype hbad => ?_, fun htype d hd => ⟨?_, ?_⟩,
    fun htype m hm => ?_⟩
  · exact exec_niRecvFrame_ignored hn (hother hnip hnarp)
  · exact exec_niRecvFrame_ignored hn (by rw [hipv4 htype, hbad]; rfl)
  · exact exec_niRecvFrame_ignored hn (by rw [harp htype, hbad]; rfl)
  · rintro rfl out
    have hexec := exec_niRecvFrame_given hn (d := d) (by rw [hipv4 htype, hd]; rfl)
    exact ⟨fun hshort => by rw [hexec, respond_optBytes_some _ _ hshort]; rfl, hexec⟩
  · rintro rfl
    exact exec_niRecvFrame_silent hn (by rw [hipv4 htype, hd]; rfl)
  · intro released reply
    have hrecv : n.receive c bytes q = ((n.learn m).answer c m, none) := by rw [harp htype, hm]; rfl
    rw [answer_eq, answer_outQueue] at hrecv
    exact exec_niRecvFrame_silent hn hrecv

/-- Settles O49: learning writes the cache entry that the next NiSend reads, and answering writes `out_queue` only. -/
theorem niLearnedAddressIsUsed : Obligations.NiLearnedAddressIsUsed := by
  intro n c m dgram
  have hcache : ∀ k, Table.read ((n.learn m).answer c m).arpCache k =
      if k = m.senderIp.toNat then some { eth := m.senderEth, age := 0#64 } else Table.read n.arpCache k := by
    rw [answer_eq]
    exact table_read_write _ _ _
  have hpending : ∀ k, Table.read ((n.learn m).answer c m).pending k =
      if k = m.senderIp.toNat then none else Table.read n.pending k := by
    rw [answer_eq]
    exact table_read_remove _ _
  have heth : ((n.learn m).answer c m).eth = n.eth := by rw [answer_eq]; rfl
  refine ⟨?_, (hpending _).trans (if_pos rfl), fun k hk =>
    ⟨(hpending k).trans (if_neg hk), (hcache k).trans (if_neg hk)⟩⟩
  rw [send_of_cached c dgram ((hcache _).trans (if_pos rfl)), ipv4Frame, heth]
  rfl

/-! NI.TICK -/

theorem expires_iff (e : ArpEntry) (delta : U64) :
    e.expires delta = true ↔ 30000 < min (e.age.toNat + delta.toNat) (2 ^ 64 - 1) := by
  rw [ArpEntry.expires, decide_eq_true_eq, ArpEntry.aged, addTime_toNat]
  rfl

theorem expires_eq_false_iff (e : ArpEntry) (delta : U64) :
    e.expires delta = false ↔ min (e.age.toNat + delta.toNat) (2 ^ 64 - 1) ≤ 30000 := by
  rw [← Bool.not_eq_true, expires_iff, Nat.not_lt]

theorem cooledDown_iff (age delta : U64) :
    cooledDown age delta = true ↔ 5000 < min (age.toNat + delta.toNat) (2 ^ 64 - 1) := by
  rw [cooledDown, decide_eq_true_eq, addTime_toNat]
  rfl

section

variable {n : NetIf} {delta : U64} {k : Nat}

/-- What is parked for an address stays unless the address's cache entry expires (R273). -/
theorem tick_pending_of_kept (h : NetIfOk n) (hkept : ∀ e, Table.read n.arpCache k = some e → e.expires delta = false) :
    Table.read (n.tick delta).pending k = Table.read n.pending k := by
  obtain ⟨hcache, -, hpending, -⟩ := h
  have hstay : (n.evicted delta).contains k = false := by
    rw [← Bool.not_eq_true, evicted_contains hcache]
    rintro ⟨e, he, hexp⟩
    exact Bool.false_ne_true ((hkept e he).symm.trans hexp)
  rw [tick_pending_read hpending, hstay]
  cases Table.read n.pending k <;> rfl

theorem tick_pending_of_evicted (h : NetIfOk n) {e : ArpEntry} (he : Table.read n.arpCache k = some e)
    (hexp : e.expires delta = true) : Table.read (n.tick delta).pending k = none := by
  obtain ⟨hcache, -, hpending, -⟩ := h
  rw [tick_pending_read hpending, (evicted_contains hcache delta k).2 ⟨e, he, hexp⟩]
  cases Table.read n.pending k <;> rfl

/-- A cool-down entry stays, older by the tick, up to 5000 ms of age (R273, D26). -/
theorem tick_arpInflight_of_some (h : Table.wf n.arpInflight = true) {age : U64}
    (hage : Table.read n.arpInflight k = some age) :
    Table.read (n.tick delta).arpInflight k =
      if min (age.toNat + delta.toNat) (2 ^ 64 - 1) ≤ 5000 then
        some (BitVec.ofNat 64 (min (age.toNat + delta.toNat) (2 ^ 64 - 1)))
      else none := by
  rw [tick_arpInflight_read h, hage, Option.filter_some]
  cases hcool : cooledDown age delta with
  | true => exact (if_neg (Nat.not_le.2 ((cooledDown_iff age delta).1 hcool))).symm
  | false =>
    rw [← Bool.not_eq_true, cooledDown_iff, Nat.not_lt] at hcool
    exact (if_pos hcool).symm

end

/-- Settles O50: a cache entry's own age decides whether it and what is parked for it leave, a cool-down entry's own age
whether it leaves. -/
theorem niTickResult : Obligations.NiTickResult := by
  intro s i delta n hn hok grown
  have ⟨hcacheWf, hinflightWf, _⟩ := hok
  have hcache := tick_arpCache_read hcacheWf delta
  refine ⟨n.tick delta, exec_niTick hn delta, netIfOk_tick hok delta, rfl, rfl, rfl, rfl, fun k =>
    ⟨fun hnone => ?_, fun e he => ⟨fun hyoung => ?_, fun hold => ?_⟩, fun hnone => ?_, fun age =>
      tick_arpInflight_of_some hinflightWf⟩⟩
  · refine ⟨by rw [hcache, hnone]; rfl, tick_pending_of_kept hok fun e he => ?_⟩
    rw [hnone] at he
    cases he
  · have hkeep : e.expires delta = false := (expires_eq_false_iff e delta).2 hyoung
    refine ⟨by rw [hcache, he, Option.filter_some, hkeep]; rfl, tick_pending_of_kept hok fun e' he' => ?_⟩
    rwa [← Option.some.inj (he.symm.trans he')]
  · have hexp : e.expires delta = true := (expires_iff e delta).2 hold
    exact ⟨by rw [hcache, he, Option.filter_some, hexp]; rfl, tick_pending_of_evicted hok he hexp⟩
  · rw [tick_arpInflight_read hinflightWf, hnone]
    rfl

/-! NI.MAYBE_SEND -/

/-- Settles O51: the head of `out_queue` decides between the two answers; RLEN counts a frame below 65536 bytes. -/
theorem niMaybeSendResult : Obligations.NiMaybeSendResult := by
  intro s i n hn
  refine ⟨fun hnil => ?_, ?_⟩
  · have hkept : ({ n with outQueue := n.outQueue.tail } : NetIf) = n := by rw [hnil, List.tail_nil, ← hnil]
    rw [exec_niMaybeSend hn, hkept, setIf_self hn, hnil, List.head?_nil, Option.map_none, respond_optBytes_none]
    rfl
  · intro f rest hcons out
    have hexec : exec (.niMaybeSend i) s =
        .next ((s.setIf i.toNat { n with outQueue := rest }).respond
          (Response.optBytes .niMaybeSend (some (serializeFrame f)))) := by
      rw [exec_niMaybeSend hn, hcons]
      rfl
    refine ⟨fun hshort => ?_, hexec⟩
    rw [← serializeFrame_length] at hshort ⊢
    rw [hexec, respond_optBytes_some _ _ hshort]
    rfl

end Sys2Proof.Proofs
end

section
/-! SUPPORT. The Router family (spec/46_router.md): where a route is put, the match predicate in numbers, the longest match
in a sorted list, and RT.ROUTE one datagram at a time. -/

namespace Sys2Proof.Proofs

open Sys2Proof.Machine Sys2Proof.Safety Sys2Proof.Laws

/-! RT.ADD_ROUTE -/

theorem exec_rtAddRoute {s : State} {k : U32} (hk : k.toNat < s.ni.length) (pfx : U32) (len : Fin 33) (hop : Option U32)
    {routes : List RouteInfo}
    (h : insertRoute { pfx := pfx, prefixLen := len, nextHop := hop, ifaceIdx := k.toNat } s.rt.routes = routes) :
    exec (.rtAddRoute pfx len hop k) s =
      .next (answered { s with rt := { routes := routes } } [0x70#8, 0#8, 0#8, 0#8]) :=
  h ▸ exec_bare .rtAddRoute (if_pos hk) rfl

/-- Settles O53: `insertRoute_split` says where the route goes, and nothing stops the command. -/
theorem rtAddRouteResult : Obligations.RtAddRouteResult := by
  intro s pfx len hop k hk
  obtain ⟨front, back, hroutes, hins, hfront, hback⟩ :=
    insertRoute_split { pfx := pfx, prefixLen := len, nextHop := hop, ifaceIdx := k.toNat } s.rt.routes
  exact ⟨front, back, hroutes, hfront, hback, exec_rtAddRoute hk pfx len hop hins⟩

/-! The match predicate -/

/-- The masked destination in numbers (R313). -/
theorem and_prefixMask_toNat (dst : U32) (len : Nat) :
    (dst &&& prefixMask len).toNat = dst.toNat / 2 ^ (32 - len) * 2 ^ (32 - len) := by
  have hle : dst.toNat / 2 ^ (32 - len) * 2 ^ (32 - len) ≤ dst.toNat := Nat.div_mul_le_self _ _
  calc (dst &&& prefixMask len).toNat
    _ = ((dst >>> (32 - len)) <<< (32 - len)).toNat := congrArg BitVec.toNat BitVec.shiftLeft_ushiftRight.symm
    _ = dst.toNat / 2 ^ (32 - len) * 2 ^ (32 - len) % 2 ^ 32 := by
      rw [BitVec.toNat_shiftLeft, BitVec.toNat_ushiftRight, Nat.shiftLeft_eq, Nat.shiftRight_eq_div_pow]
    _ = dst.toNat / 2 ^ (32 - len) * 2 ^ (32 - len) := Nat.mod_eq_of_lt (hle.trans_lt dst.isLt)

/-- Settles O54: clearing the bits below the length is dividing and multiplying by the same power of two. -/
theorem routeMatchPredicate : Obligations.RouteMatchPredicate := by
  intro r dst
  rw [← and_prefixMask_toNat, BitVec.toNat_inj, routeMatches, Bool.or_eq_true, beq_iff_eq, beq_iff_eq]

/-! The longest match -/

theorem lookupRoute_eq_none_iff (routes : List RouteInfo) (dst : U32) :
    lookupRoute routes dst = none ↔ ∀ r ∈ routes, routeMatches r dst = false := by
  simp only [lookupRoute, List.find?_eq_none, Bool.not_eq_true]

theorem lookupRoute_eq_some_iff (routes : List RouteInfo) (dst : U32) (r : RouteInfo) :
    lookupRoute routes dst = some r ↔
      routeMatches r dst = true ∧
        ∃ front back, routes = front ++ r :: back ∧ ∀ x ∈ front, routeMatches x dst = false := by
  simp only [lookupRoute, List.find?_eq_some_iff_append, Bool.not_eq_true']

/-- Settles O55: what stands behind the first match in a descending list is no longer than it. -/
theorem longestPrefixChosen : Obligations.LongestPrefixChosen := by
  rintro s dst ⟨hsorted, -⟩
  refine ⟨lookupRoute_eq_none_iff _ dst, fun r hr => ?_⟩
  obtain ⟨hmatch, front, back, hroutes, hfront⟩ := (lookupRoute_eq_some_iff _ dst r).1 hr
  rw [hroutes, List.pairwise_append, List.pairwise_cons] at hsorted
  obtain ⟨-, ⟨hbehind, -⟩, -⟩ := hsorted
  exact ⟨hmatch, front, back, hroutes, hfront, fun x hx _ => hbehind x hx⟩

/-! RT.ROUTE: what waits in the `rx_queue`s -/

/-- The datagrams that wait for the Router on interface `i`, none where there is no such interface. -/
def waiting (ni : List NetIf) (i : Nat) : List Datagram := (ni.map NetIf.rxQueue).getD i []

/-- An interface with its `rx_queue` taken off. -/
def rxEmptied (n : NetIf) : NetIf := { n with rxQueue := [] }

theorem modify_of_getElem? {α : Type} {l : List α} {i : Nat} {a : α} (h : l[i]? = some a) (f : α → α) :
    l.modify i f = l.set i (f a) := by
  rw [List.modify_eq_set_getElem?, h]
  rfl

section

variable (c : Config.Codec) (routes : List RouteInfo) {ni ni' : List NetIf} {i j : Nat} {n : NetIf} {d : Datagram}

theorem waiting_of_getElem? (h : ni[i]? = some n) : waiting ni i = n.rxQueue := by
  simp [waiting, h]

theorem waiting_eq_nil_iff : waiting ni i = [] ↔ ∀ n, ni[i]? = some n → n.rxQueue = [] := by
  cases h : ni[i]? <;> simp [waiting, h]

theorem waiting_congr (h : ni'.map NetIf.rxQueue = ni.map NetIf.rxQueue) : waiting ni' = waiting ni := by
  funext k
  rw [waiting, h, waiting]

theorem waiting_rxEmptied (ni : List NetIf) (i j : Nat) :
    waiting (ni.modify i rxEmptied) j = if j = i then [] else waiting ni j := by
  by_cases h : j = i
  · subst h
    cases hj : ni[j]? <;> simp [waiting, hj, rxEmptied]
  · simp [waiting, h, Ne.symm h]

/-! One datagram -/

theorem routeOne_of_noRoute (h : lookupRoute routes d.dst = none) (ni : List NetIf) : routeOne c routes ni d = ni := by
  simp only [routeOne, h, drop_eq]

theorem routeOne_of_ttl_le_one {r : RouteInfo} (h : lookupRoute routes d.dst = some r) (httl : d.ttl.toNat ≤ 1)
    (ni : List NetIf) : routeOne c routes ni d = ni := by
  simp only [routeOne, h, httl, if_true, drop_eq]

theorem routeOne_of_forwarded {r : RouteInfo} (h : lookupRoute routes d.dst = some r) (httl : 1 < d.ttl.toNat)
    (ni : List NetIf) :
    routeOne c routes ni d = niSend c ni r.ifaceIdx (serializeIpv4 c (forwarded c d)) (r.nextHop.getD d.dst) := by
  simp only [routeOne, h, Nat.not_le.2 httl, if_false]

theorem niSend_of_getElem? {out : NetIf} (h : ni[i]? = some out) (bytes : List Byte) (ip : U32) :
    niSend c ni i bytes ip = ni.set i (out.send c bytes ip) :=
  modify_of_getElem? h _

/-- The ttl of a forwarded datagram in numbers (R312). -/
theorem forwarded_eq (h : 1 ≤ d.ttl.toNat) :
    forwarded c d =
      { d with
        ttl := BitVec.ofNat 8 (d.ttl.toNat - 1)
        cksum := computeChecksum c { d with ttl := BitVec.ofNat 8 (d.ttl.toNat - 1) } } := by
  have httl : d.ttl - 1#8 = BitVec.ofNat 8 (d.ttl.toNat - 1) := by bv_omega
  rw [forwarded, httl]

/-- Sending adds nothing to any `rx_queue` (R312 corner (d)). -/
theorem routeOne_rxQueue (ni : List NetIf) (d : Datagram) :
    (routeOne c routes ni d).map NetIf.rxQueue = ni.map NetIf.rxQueue := by
  rcases routeOne_cases c routes ni d with h | ⟨k, bytes, ip, h⟩
  · rw [h]
  · rw [h]
    apply List.ext_getElem?
    intro m
    simp only [List.getElem?_map, List.getElem?_modify]
    cases ni[m]? with
    | none => rfl
    | some n => by_cases hk : k = m <;> simp [hk]

theorem waiting_routeOne (ni : List NetIf) (d : Datagram) : waiting (routeOne c routes ni d) = waiting ni :=
  waiting_congr (routeOne_rxQueue c routes ni d)

theorem waiting_foldl_routeOne (ds : List Datagram) (ni : List NetIf) :
    waiting (ds.foldl (routeOne c routes) ni) = waiting ni := by
  induction ds generalizing ni with
  | nil => rfl
  | cons d ds ih => rw [List.foldl_cons, ih, waiting_routeOne]

/-- Sending looks at no `rx_queue`, so that one may as well be taken off first. -/
theorem niSend_rxEmptied (ni : List NetIf) (i k : Nat) (bytes : List Byte) (ip : U32) :
    (niSend c ni k bytes ip).modify i rxEmptied = niSend c (ni.modify i rxEmptied) k bytes ip := by
  have hcomm (n : NetIf) : rxEmptied (n.send c bytes ip) = (rxEmptied n).send c bytes ip :=
    (send_rxQueue c n [] bytes ip).symm
  apply List.ext_getElem?
  intro m
  simp only [niSend, List.getElem?_modify]
  cases ni[m]? with
  | none => rfl
  | some n => by_cases hi : i = m <;> by_cases hk : k = m <;> simp [hi, hk, hcomm]

theorem routeOne_rxEmptied (ni : List NetIf) (i : Nat) (d : Datagram) :
    (routeOne c routes ni d).modify i rxEmptied = routeOne c routes (ni.modify i rxEmptied) d := by
  cases h : lookupRoute routes d.dst with
  | none => simp only [routeOne_of_noRoute c routes h]
  | some r =>
    rcases Nat.lt_or_ge 1 d.ttl.toNat with httl | httl
    · simp only [routeOne_of_forwarded c routes h httl, niSend_rxEmptied]
    · simp only [routeOne_of_ttl_le_one c routes h httl]

/-! One interface -/

theorem drainIface_eq (ni : List NetIf) (i : Nat) :
    drainIface c routes ni i = (waiting ni i).foldl (routeOne c routes) (ni.modify i rxEmptied) := by
  cases h : ni[i]? with
  | none => simp [drainIface, waiting, h, List.modify_eq_set_getElem?]
  | some n =>
    rw [waiting_of_getElem? h, modify_of_getElem? h]
    simp only [drainIface, h, rxEmptied]

theorem drainIface_of_nil (h : waiting ni i = []) : drainIface c routes ni i = ni := by
  rw [drainIface_eq, h, List.foldl_nil]
  cases hn : ni[i]? with
  | none => rw [List.modify_eq_set_getElem?, hn]; rfl
  | some n =>
    have hkept : rxEmptied n = n := by rw [rxEmptied, ← waiting_eq_nil_iff.1 h n hn]
    obtain ⟨hi, rfl⟩ := List.getElem?_eq_some_iff.1 hn
    rw [modify_of_getElem? hn, hkept, List.set_getElem_self]

theorem waiting_drainIface (ni : List NetIf) (i j : Nat) :
    waiting (drainIface c routes ni i) j = if j = i then [] else waiting ni j := by
  rw [drainIface_eq, waiting_foldl_routeOne, waiting_rxEmptied]

/-- The first datagram of a queue can be routed by itself, with the rest still waiting (R312). -/
theorem drainIface_round (hn : ni[i]? = some n) {rest : List Datagram} (hq : n.rxQueue = d :: rest) :
    drainIface c routes (routeOne c routes (ni.set i { n with rxQueue := rest }) d) i = drainIface c routes ni i := by
  have hi : i < ni.length := (List.getElem?_eq_some_iff.1 hn).1
  have hrest : waiting (ni.set i { n with rxQueue := rest }) i = rest := by
    rw [waiting_of_getElem? (List.getElem?_set_self hi)]
  have hemptied : (ni.set i { n with rxQueue := rest }).modify i rxEmptied = ni.modify i rxEmptied := by
    rw [modify_of_getElem? (List.getElem?_set_self hi), modify_of_getElem? hn, List.set_set]
    rfl
  rw [drainIface_eq, drainIface_eq, waiting_routeOne, hrest, routeOne_rxEmptied, hemptied, waiting_of_getElem? hn, hq,
    List.foldl_cons]

/-! Every interface -/

/-- RT.ROUTE's outer loop over the interfaces below `k` (R312). -/
def drainBelow (ni : List NetIf) (k : Nat) : List NetIf := (List.range k).foldl (drainIface c routes) ni

theorem drainBelow_succ (ni : List NetIf) (k : Nat) :
    drainBelow c routes ni (k + 1) = drainIface c routes (drainBelow c routes ni k) k := by
  simp only [drainBelow, List.range_succ, List.foldl_append, List.foldl_cons, List.foldl_nil]

theorem drainBelow_of_nil {k : Nat} (h : ∀ j < k, waiting ni j = []) : drainBelow c routes ni k = ni := by
  induction k with
  | zero => rfl
  | succ k ih =>
    rw [drainBelow_succ, ih fun j hj => h j (Nat.lt_succ_of_lt hj), drainIface_of_nil c routes (h k k.lt_succ_self)]

theorem waiting_drainBelow (ni : List NetIf) {k : Nat} (hj : j < k) : waiting (drainBelow c routes ni k) j = [] := by
  induction k with
  | zero => exact absurd hj j.not_lt_zero
  | succ k ih =>
    rw [drainBelow_succ, waiting_drainIface]
    split
    · rfl
    · exact ih (by omega)

/-- The interfaces below `i` have been drained once nothing waits there, and the loop goes on from `i`. -/
theorem drainAll_eq_from (hi : i < ni.length) (h : ∀ j < i, waiting ni j = []) :
    drainAll c routes ni =
      ((List.range (ni.length - (i + 1))).map (i + 1 + ·)).foldl (drainIface c routes) (drainIface c routes ni i) := by
  have hlen : ni.length = i + 1 + (ni.length - (i + 1)) := by omega
  have hbelow : drainBelow c routes ni (i + 1) = drainIface c routes ni i := by
    rw [drainBelow_succ, drainBelow_of_nil c routes h]
  rw [drainAll, ← hbelow, drainBelow, ← List.foldl_append, ← List.range_add, ← hlen]

/-- Routing the first datagram of the first interface that has one leaves the rest of RT.ROUTE to do (R312). -/
theorem drainAll_round (hn : ni[i]? = some n) {rest : List Datagram} (hq : n.rxQueue = d :: rest)
    (h : ∀ j < i, waiting ni j = []) :
    drainAll c routes (routeOne c routes (ni.set i { n with rxQueue := rest }) d) = drainAll c routes ni := by
  have hi : i < ni.length := (List.getElem?_eq_some_iff.1 hn).1
  have hlen : (routeOne c routes (ni.set i { n with rxQueue := rest }) d).length = ni.length := by
    rw [routeOne_length, List.length_set]
  have hbefore : ∀ j < i, waiting (routeOne c routes (ni.set i { n with rxQueue := rest }) d) j = [] := by
    intro j hj
    rw [waiting_routeOne, waiting, List.map_set, List.getD_eq_getElem?_getD, List.getElem?_set_ne hj.ne']
    exact h j hj
  rw [drainAll_eq_from c routes (hi.trans_eq hlen.symm) hbefore, drainAll_eq_from c routes hi h, hlen,
    drainIface_round c routes hn hq]

theorem drainAll_of_nil (h : ∀ j, waiting ni j = []) : drainAll c routes ni = ni :=
  drainBelow_of_nil c routes fun j _ => h j

/-- RT.ROUTE leaves every `rx_queue` empty (R312 corner (d)). -/
theorem drainAll_rxQueue (ni : List NetIf) : ∀ n ∈ drainAll c routes ni, n.rxQueue = [] := by
  intro n hn
  obtain ⟨j, hj, hget⟩ := List.mem_iff_getElem.1 hn
  rw [drainAll_length] at hj
  exact waiting_eq_nil_iff.1 (waiting_drainBelow c routes ni hj) n (List.getElem?_eq_some_iff.2 ⟨_, hget⟩)

/-- Every round keeps the addresses and the ARP cache, and no datagram is left at the end (R312, R57). -/
theorem drainAll_addresses_cache_rxQueue (ni : List NetIf) :
    (drainAll c routes ni).map (fun n => (n.eth, n.ip, n.arpCache, n.rxQueue)) =
      ni.map (fun n => (n.eth, n.ip, n.arpCache, ([] : List Datagram))) :=
  calc (drainAll c routes ni).map (fun n => (n.eth, n.ip, n.arpCache, n.rxQueue))
    _ = (drainAll c routes ni).map (fun n => (n.eth, n.ip, n.arpCache, ([] : List Datagram))) :=
      List.map_congr_left fun n hn => by rw [drainAll_rxQueue c routes ni n hn]
    _ = ni.map (fun n => (n.eth, n.ip, n.arpCache, ([] : List Datagram))) :=
      drainAll_map _ (fun _ _ _ _ => by simp only [send_eth, send_ip, send_arpCache]) (fun _ => rfl) c routes ni

end

/-! RT.ROUTE: the command -/

theorem exec_rtRoute (s : State) :
    exec .rtRoute s =
      .next (answered { s with ni := drainAll s.params.codec s.rt.routes s.ni } [0x71#8, 0#8, 0#8, 0#8]) :=
  exec_bare .rtRoute rfl rfl

/-- RT.ROUTE after the first waiting datagram has been routed by itself is RT.ROUTE (R312). -/
theorem exec_rtRoute_round {s : State} {i : Nat} {n : NetIf} {d : Datagram} {rest : List Datagram}
    (hn : s.ni[i]? = some n) (hq : n.rxQueue = d :: rest) (h : ∀ j < i, waiting s.ni j = []) {ni : List NetIf}
    (hone : routeOne s.params.codec s.rt.routes (s.ni.set i { n with rxQueue := rest }) d = ni) :
    exec .rtRoute s = exec .rtRoute { s with ni := ni } := by
  subst hone
  rw [exec_rtRoute, exec_rtRoute, drainAll_round _ _ hn hq h]

/-- Settles O56: the loop may route the first waiting datagram by itself, and route and ttl decide what becomes of it. -/
theorem rtRouteRound : Obligations.RtRouteRound := by
  intro s
  refine ⟨fun hempty => ?_, fun i n d rest hn hq hbefore => ?_⟩
  · rw [exec_rtRoute, drainAll_of_nil _ _ fun j => waiting_eq_nil_iff.2 fun n hn => hempty n (List.mem_of_getElem? hn)]
  intro c taken
  have hnil : ∀ j < i, waiting s.ni j = [] := fun j hj => waiting_eq_nil_iff.2 fun n' => hbefore j n' hj
  refine ⟨fun hnone => ?_, fun r hr => ⟨fun httl => ?_, fun httl out hout => ?_⟩⟩
  · exact exec_rtRoute_round hn hq hnil (routeOne_of_noRoute c _ hnone _)
  · exact exec_rtRoute_round hn hq hnil (routeOne_of_ttl_le_one c _ hr httl _)
  · refine exec_rtRoute_round hn hq hnil ((routeOne_of_forwarded c _ hr httl _).trans ?_)
    rw [niSend_of_getElem? c hout, forwarded_eq c (Nat.one_le_of_lt httl)]

/-- Settles O57: nothing stops RT.ROUTE, and its effect is `drainAll` on the interfaces. -/
theorem rtRouteEmptiesEveryQueue : Obligations.RtRouteEmptiesEveryQueue := fun s =>
  ⟨_, exec_rtRoute s, drainAll_addresses_cache_rxQueue _ _ s.ni⟩

end Sys2Proof.Proofs
end

section
/-! SUPPORT. The system family (spec/47_system.md): the result of SYS.RESET. -/

namespace Sys2Proof.Proofs

open Sys2Proof.Machine Sys2Proof.Safety Sys2Proof.Laws

/-- What SYS.RESET does to the units: the reset state of the same parameters, the waiting descriptors and the responses
kept (R330). -/
theorem effect_sysReset (s : State) :
    effect .sysReset s = { State.resetWith s.params s.draws with cmds := s.cmds, resps := s.resps } := rfl

/-- Settles O2: nothing stops SYS.RESET, its effect is the reset state, and it answers the bare header behind the
responses kept. -/
theorem sysResetResult : Obligations.SysResetResult := by
  intro s
  have hexec : exec .sysReset s = .next (answered (effect .sysReset s) [0x00#8, 0x00#8, 0x00#8, 0x00#8]) :=
    exec_bare .sysReset rfl rfl
  rw [hexec, effect_sysReset, answered]

end Sys2Proof.Proofs
end
